-- ==== Sys2Proof/Word.lean ====
section
/-! DEFINITION. The word types of toy_cipher_core (spec/00_scope.md R7, R8). -/

namespace Sys2Proof

/-- "A byte is 8 bits" (R8). -/
abbrev Byte := BitVec 8

/-- The host data width, and the width of a command word: 32 bits (R7, R90). -/
abbrev Word := BitVec 32

/-- A host byte address: 16 bits (R7). -/
abbrev Addr := BitVec 16

/-- The PRBG state and the key-derivation accumulator: 64 bits (R5). -/
abbrev DWord := BitVec 64

end Sys2Proof
end

