-- ==== Sys2Proof/Config.lean ====
section
/-! DEFINITION. What an implementation fixes (the parameters of spec/00_scope.md R6) and the free values of
spec/93_implementation_defined.md. -/

namespace Sys2Proof

/-- The parameters of the hardware: "A model takes each one as an argument" (R6).
A state carries them, so a statement about every state is a statement about every configuration. -/
structure Params where
  /-- `PSS_VALUE`, the contents of the secret ROM (R6, R38). -/
  pss : Vector Byte 32
  /-- `SBOX_TABLE`, the contents of the substitution ROM (R6, R37). -/
  sbox : Vector Byte 256
  /-- `BUF_BYTES`, the size of the data buffer (R6, R36). -/
  bufBytes : Nat
  deriving DecidableEq, Repr

/-- The bytes of `secure_transfer-test-secret-32B!` (spec/95_test_vectors.md section 0). -/
def Config.referencePss : List Byte :=
  [0x73, 0x65, 0x63, 0x75, 0x72, 0x65, 0x5F, 0x74, 0x72, 0x61, 0x6E, 0x73, 0x66, 0x65, 0x72, 0x2D,
   0x74, 0x65, 0x73, 0x74, 0x2D, 0x73, 0x65, 0x63, 0x72, 0x65, 0x74, 0x2D, 0x33, 0x32, 0x42, 0x21]

/-- `SBOX[b] = wrap8(167*b + 13)` (spec/95_test_vectors.md section 0). -/
def Config.referenceSbox : List Byte :=
  (List.range 256).map fun b => BitVec.ofNat 8 (167 * b + 13)

/-- DESIGN CHOICE (log entry 1, unsafe): the spec gives no value of `PSS_VALUE` and `SBOX_TABLE`; the machine right
after reset is given the stand-ins of spec/95_test_vectors.md section 0 and the reference size 4112 (R6).
No statement rests on them. -/
def Params.reference : Params where
  pss := ⟨Config.referencePss.toArray, rfl⟩
  sbox := ⟨Config.referenceSbox.toArray, by simp [Config.referenceSbox]⟩
  bufBytes := 4112

/-- Free value (log entry 2): what reading buffer byte `a` gives while nothing has written it, "a fresh one on each
read" (spec/93_implementation_defined.md row 10, D34). The first argument is the state's `epoch`. -/
opaque Config.freeByte : Nat → Nat → Byte

/-- Free value (log entry 3): what a host read gives while the engine is busy at an address that R72 leaves
unspecified, "a fresh draw on each read". The first argument is the state's `epoch`, the second the word address
`addr & 0xFFFC`. -/
opaque Config.busyWord : Nat → Addr → Word

end Sys2Proof
end

