-- ==== Sys2Proof/Syntax.lean ====
section
/-! DEFINITION. The command set `TCC-CMD v1`: one constructor per row of spec/opcode_table.json
(spec/30_encoding.md R94). -/

namespace Sys2Proof

/-- A command. `imm` is the field `IMM8`: three commands use it and the others accept any value (R92), so every
constructor carries it and no bit of a command word is dropped. All other operands are implicit (R93). -/
inductive Instr where
  | nop (imm : Byte)
  | encrypt (imm : Byte)
  | encryptN (imm : Byte)
  | decrypt (imm : Byte)
  | genNonce (imm : Byte)
  | deriveKeys (imm : Byte)
  | addPadding (imm : Byte)
  | removePadding (imm : Byte)
  | xorBuf (imm : Byte)
  | substitute (imm : Byte)
  | invSubstitute (imm : Byte)
  | permute (imm : Byte)
  | invPermute (imm : Byte)
  | prbgSeed (imm : Byte)
  | prbgNext (imm : Byte)
  | sboxLookup (imm : Byte)
  | invSboxLookup (imm : Byte)
  deriving DecidableEq, Repr

end Sys2Proof
end

