-- ==== Sys2Proof/WellFormed.lean ====
section
/-! DEFINITION. Well-formedness of a command and of a configuration. -/

namespace Sys2Proof

/-- Every command is well-formed: its one operand is an 8-bit field of which "any value is accepted" (R92, R94), and
the type holds no other value. -/
def Instr.wf : Instr → Bool
  | .nop _ | .encrypt _ | .encryptN _ | .decrypt _ | .genNonce _ | .deriveKeys _ | .addPadding _ | .removePadding _ => true
  | .xorBuf _ | .substitute _ | .invSubstitute _ | .permute _ | .invPermute _ => true
  | .prbgSeed _ | .prbgNext _ | .sboxLookup _ | .invSboxLookup _ => true

/-- The values that occur in a list of bytes, as a 256-bit set. -/
def Config.valueSet (l : List Byte) : BitVec 256 :=
  l.foldl (fun seen b => seen ||| BitVec.twoPow 256 b.toNat) 0

/-- "must be a permutation of 0..255" (R6, R150): a table of 256 entries in which every value occurs. -/
def Params.sboxOk (p : Params) : Bool :=
  Config.valueSet p.sbox.toList == BitVec.allOnes 256

/-- "multiple of 16; 16 <= `BUF_BYTES` <= 0xF000" (R6). -/
def Params.bufBytesOk (p : Params) : Bool :=
  p.bufBytes % 16 == 0 && decide (16 ≤ p.bufBytes) && decide (p.bufBytes ≤ 0xF000)

/-- A well-formed configuration (R6, R150). -/
def Params.wf (p : Params) : Bool :=
  p.sboxOk && p.bufBytesOk

end Sys2Proof
end

