-- ==== Sys2Proof/Decode.lean ====
section
/-! DEFINITION. Decoding and encoding of a command word (spec/30_encoding.md R90 to R97, R100). -/

namespace Sys2Proof

/-- Bits [7:0], `OPCODE` (R90). -/
def cmdOpcode (w : Word) : Byte := w.extractLsb' 0 8

/-- Bits [15:8], `IMM8` (R90, R92). -/
def cmdImm8 (w : Word) : Byte := w.extractLsb' 8 8

/-- Bits [31:16], `RSVD` (R90, R95). -/
def cmdRsvd (w : Word) : BitVec 16 := w.extractLsb' 16 16

/-- Why a word is ILLEGAL (R97, R222). Both reasons end the command with IllegalCommand. -/
inductive Illegal where
  /-- `RSVD` != 0 (R95). -/
  | reservedBitsSet
  /-- `OPCODE` is not in the table of R94 (R96). -/
  | unassignedOpcode
  deriving DecidableEq, Repr

/-- The row of R94 that an `OPCODE` selects, with the word's `IMM8`. -/
def decodeOpcode (op imm : Byte) : Option Instr :=
  match op with
  | 0x00#8 => some (.nop imm)
  | 0x01#8 => some (.encrypt imm)
  | 0x02#8 => some (.encryptN imm)
  | 0x03#8 => some (.decrypt imm)
  | 0x04#8 => some (.genNonce imm)
  | 0x10#8 => some (.deriveKeys imm)
  | 0x11#8 => some (.addPadding imm)
  | 0x12#8 => some (.removePadding imm)
  | 0x13#8 => some (.xorBuf imm)
  | 0x14#8 => some (.substitute imm)
  | 0x15#8 => some (.invSubstitute imm)
  | 0x16#8 => some (.permute imm)
  | 0x17#8 => some (.invPermute imm)
  | 0x20#8 => some (.prbgSeed imm)
  | 0x21#8 => some (.prbgNext imm)
  | 0x22#8 => some (.sboxLookup imm)
  | 0x23#8 => some (.invSboxLookup imm)
  | _ => none

/-- "Decoding is total. Every 32-bit word selects either exactly one row of rule R94 or IllegalCommand" (R97). -/
def decode (w : Word) : Except Illegal Instr :=
  if cmdRsvd w ≠ 0 then .error .reservedBitsSet
  else
    match decodeOpcode (cmdOpcode w) (cmdImm8 w) with
    | some i => .ok i
    | none => .error .unassignedOpcode

/-- The `OPCODE` of a command (R94). -/
def Instr.opcode : Instr → Byte
  | .nop _ => 0x00
  | .encrypt _ => 0x01
  | .encryptN _ => 0x02
  | .decrypt _ => 0x03
  | .genNonce _ => 0x04
  | .deriveKeys _ => 0x10
  | .addPadding _ => 0x11
  | .removePadding _ => 0x12
  | .xorBuf _ => 0x13
  | .substitute _ => 0x14
  | .invSubstitute _ => 0x15
  | .permute _ => 0x16
  | .invPermute _ => 0x17
  | .prbgSeed _ => 0x20
  | .prbgNext _ => 0x21
  | .sboxLookup _ => 0x22
  | .invSboxLookup _ => 0x23

/-- The `IMM8` of a command (R92). -/
def Instr.imm8 : Instr → Byte
  | .nop imm | .encrypt imm | .encryptN imm | .decrypt imm | .genNonce imm | .deriveKeys imm | .addPadding imm
  | .removePadding imm | .xorBuf imm | .substitute imm | .invSubstitute imm | .permute imm | .invPermute imm
  | .prbgSeed imm | .prbgNext imm | .sboxLookup imm | .invSboxLookup imm => imm

/-- "The word of a command is `(IMM8 << 8) | OPCODE`" (R100), with `RSVD` = 0. -/
def encode (i : Instr) : Word := (0#16 ++ i.imm8) ++ i.opcode

/-- The host's view of the decoder: the command in the low `nbits` bits of `w`, every bit above them 0.
A command is one 32-bit word (R91), so the numbering is that of the word itself. -/
def decodeTableWord (nbits w : Nat) : Option Instr :=
  (decode (BitVec.ofNat 32 (w % 2 ^ nbits))).toOption

end Sys2Proof
end

