-- ==== Sys2Proof/Machine/State.lean ====
section
/-! DEFINITION. The machine state (spec/10_state.md), its value after reset (R43), the reasons to stop. -/

namespace Sys2Proof.Machine

/-- Buffer bytes by buffer index, in one canonical form (`Memory.wf`, Machine/Ops.lean): indexes strictly rising.
A byte that nothing has written since reset is not listed; it reads as a free value (R43, log entry 2), which is no
fixed byte, so a written byte is always listed. -/
abbrev Memory := List Host.Cell

/-- What the outside world does next (R22, R70, R250). -/
inductive Event where
  /-- `HostRead(addr)` (R62). -/
  | read (addr : Addr)
  /-- `HostWrite(addr, data, strb)` (R63). -/
  | write (addr : Addr) (data : Word) (strb : BitVec 4)
  /-- The engine takes its step here, "at any point between two host transactions" (R70). -/
  | engine
  /-- `rst_n` = 0 and its release (R250). `taken` is how many random bytes an abandoned command had already taken
  (R251: they are lost). -/
  | reset (taken : Nat)
  deriving DecidableEq, Repr

/-- The reasons the machine stops with a fault. There is none: "No access raises an error" (R67), "There is no trap
entry" (R229), and every error is a command that completes with `STATUS.ERR` = 1 (R220, R228). -/
inductive Fault
  deriving DecidableEq, Repr

/-- The reasons a step is refused. -/
inductive Refusal where
  /-- Raised by `exec` for a command without a meaning. Safe: the model stops. No arm raises it now. -/
  | notModelled (mnemonic : String)
  /-- Raised by `step` when the configuration is not well-formed: "A model refuses a configuration that is not
  well-formed" (R150; R6 for `BUF_BYTES`). Safe: the spec asks for the refusal. -/
  | illFormedParams
  deriving DecidableEq, Repr

/-- Everything the spec gives the machine, and the model's own inputs and counters (INVENTORY.md, State). -/
structure State where
  /-- The parameters, with the ROMs `SBOX`, `PSS` and the constant `CAPACITY` (R6, R34, R37, R38). -/
  params : Params
  /-- `PENDING`, the word accepted and not yet completed. `ENGINE` is `BUSY`, and `STATUS.BUSY` is 1, exactly while it
  is present (R40). -/
  pending : Option Word
  /-- `STATUS.DONE` (R25). -/
  done : Bool
  /-- `STATUS.ERR` (R25). -/
  err : Bool
  /-- `STATUS.ERRCODE` (R25, R220). -/
  errcode : Byte
  /-- `STATUS.LAST_OP` (R25). -/
  lastOp : Byte
  /-- `PT_LEN` (R26). -/
  ptLen : Word
  /-- `CT_LEN` (R27). -/
  ctLen : Word
  /-- `NONCE_LEN.LEN` (R28). -/
  nonceLen : Byte
  /-- `KEYS.K1` (R29). -/
  keyK1 : Byte
  /-- `KEYS.K2` (R29). -/
  keyK2 : Byte
  /-- `PRBG_STATE`, both halves (R30). -/
  prbgState : DWord
  /-- `PRBG_OUT.BYTE` (R31). -/
  prbgOut : Byte
  /-- `RESULT.BYTE` (R32). -/
  result : Byte
  /-- The nonce bank `NONCE[0..15]` (R35). -/
  nonce : Vector Byte 16
  /-- The data buffer `BUF` (R36), by buffer index. -/
  buf : Memory
  /-- `WPRBG`, the working PRBG state (R33). Unobservable. -/
  wprbg : DWord
  /-- `ACC`, the key-derivation accumulator (R39). Unobservable. -/
  acc : DWord
  /-- `TK1`, the transient k1 latch (R41). Unobservable. -/
  tk1 : Byte
  /-- `TK2`, the transient k2 latch (R41). Unobservable. -/
  tk2 : Byte
  /-- The model's own: what the outside world does next, oldest first (log entry 6). -/
  inputs : List Event
  /-- The model's own: the bytes the random source supplies from here on, oldest first; where the list ends the
  source has stopped (R240, R241, log entry 5). -/
  rng : List Byte
  /-- The model's own: `bus_rdata` (R236) as the last `HostRead` left it (log entry 7). -/
  rdata : Word
  /-- The model's own: the counter the free values are taken at (log entry 3). -/
  epoch : Nat
  deriving DecidableEq, Repr

/-- The outcome of a step of this machine. -/
abbrev Result := Host.Outcome State Fault Refusal

/-- The state of R43 for a configuration. `BUF` is unspecified: nothing is listed. `WPRBG`, `ACC`, `TK1` and `TK2` are
"unspecified and unobservable": 0 (DESIGN CHOICE, log entry 4, unsafe). The model's own fields: no input, and the
sixteen random bytes of spec/95_test_vectors.md vector 2.7 e (DESIGN CHOICE, log entries 5, 6 and 7, unsafe). -/
def State.resetWith (p : Params) : State where
  params := p
  pending := none
  done := false
  err := false
  errcode := 0
  lastOp := 0
  ptLen := 0
  ctLen := 0
  nonceLen := 16
  keyK1 := 0
  keyK2 := 0
  prbgState := 0
  prbgOut := 0
  result := 0
  nonce := Vector.replicate 16 0
  buf := []
  wprbg := 0
  acc := 0
  tk1 := 0
  tk2 := 0
  inputs := []
  rng := [1, 2, 3, 4, 5, 6, 7, 8, 9, 10, 11, 12, 13, 14, 15, 16]
  rdata := 0
  epoch := 0

/-- The machine right after reset (R43), in the reference configuration (DESIGN CHOICE, log entry 1, unsafe). -/
def State.reset : State := State.resetWith Params.reference

end Sys2Proof.Machine
end

