-- ==== Sys2Proof/Machine/Flags.lean ====
section
/-! DEFINITION. The flags and the status register (spec/10_state.md R25, R40, R42), the error codes
(spec/60_exceptions.md R220). -/

namespace Sys2Proof.Machine

/-- The error kinds (R220). -/
inductive Error where
  /-- `CT_LEN mod 16 != 0`. -/
  | invalidLength
  /-- `NONCE_LEN.LEN != 16`, or `> 16` for DERIVE_KEYS. -/
  | invalidNonceLength
  /-- The padded length is below 8. -/
  | malformedLength
  /-- The padded length is no multiple of 16. -/
  | badBlockAlignment
  /-- The declared length passes the padded length. -/
  | lengthOverflow
  /-- `RSVD != 0`, or `OPCODE` unassigned. -/
  | illegalCommand
  /-- The buffer range passes `BUF_BYTES`. -/
  | capacityExceeded
  deriving DecidableEq, Repr

/-- The code reported in `STATUS.ERRCODE` (R220). -/
def errorCode : Error → Byte
  | .invalidLength => 0x01
  | .invalidNonceLength => 0x02
  | .malformedLength => 0x03
  | .badBlockAlignment => 0x04
  | .lengthOverflow => 0x05
  | .illegalCommand => 0x10
  | .capacityExceeded => 0x11

/-- `STATUS.BUSY`, which is `ENGINE` = `BUSY` (R25, R40). -/
def State.busy (s : State) : Bool := s.pending.isSome

/-- The word `STATUS` (R25): [31:24] 0, [23:16] `LAST_OP`, [15:8] `ERRCODE`, [7:3] 0, [2] `ERR`, [1] `DONE`,
[0] `BUSY`. -/
def State.statusWord (s : State) : Word :=
  (0#8 ++ s.lastOp) ++ (s.errcode ++ (0#5 ++ (BitVec.ofBool s.err ++ (BitVec.ofBool s.done ++ BitVec.ofBool s.busy))))

end Sys2Proof.Machine
end

