-- ==== Sys2Proof/Machine/Operands.lean ====
section
/-! DEFINITION. Operand forms: byte lanes and strobes (spec/20_memory.md R60, R63), big-endian lengths and exact length
arithmetic (spec/00_scope.md R9), the ROMs (spec/10_state.md R37, R38), the implicit operands of commands. -/

namespace Sys2Proof.Machine

/-- `rotl64(x, n)` (R9). -/
def rotl64 (x : DWord) (n : Nat) : DWord := (x <<< n) ||| (x >>> (64 - n))

/-- Lane `j` of a word: bits `[8*j+7 : 8*j]` (R60). -/
def lane (w : Word) (j : Nat) : Byte := w.extractLsb' (8 * j) 8

/-- The word whose lanes 0 to 3 are the four bytes (R60). -/
def ofLanes (b0 b1 b2 b3 : Byte) : Word := (b3 ++ b2) ++ (b1 ++ b0)

/-- A lane of a strobed write: the new byte where its strobe is 1, else the old one (R63). -/
def laneMerge (old data : Word) (strb : BitVec 4) (j : Nat) : Byte :=
  if strb.getLsbD j then lane data j else lane old j

/-- The value of a 32-bit target after a strobed write (R63). -/
def mergeLanes (old data : Word) (strb : BitVec 4) : Word :=
  ofLanes (laneMerge old data strb 0) (laneMerge old data strb 1) (laneMerge old data strb 2) (laneMerge old data strb 3)

/-- Byte `k` of `be64(n)`: `(n >> (8*(7-k))) & 0xFF` (R9). -/
def be64Byte (n k : Nat) : Byte := BitVec.ofNat 8 (n >>> (8 * (7 - k)))

/-- `be64(n)`, the 8-byte big-endian encoding (R9). -/
def be64 (n : Nat) : List Byte := (List.range 8).map (be64Byte n)

/-- `from_be64(s)`, the inverse of `be64` on 8 bytes (R9). -/
def fromBe64 (bs : List Byte) : Nat := bs.foldl (fun acc b => acc * 256 + b.toNat) 0

/-- `filler_len`: `(16 - ((8 + n) mod 16)) mod 16` (R130). -/
def fillerLen (n : Nat) : Nat := (16 - (8 + n) % 16) % 16

/-- The padded length `8 + n + fl` (R133, R135). -/
def paddedLen (n : Nat) : Nat := 8 + n + fillerLen n

/-- `8 + PT_LEN > BUF_BYTES`, computed exactly (R9, R223). -/
def State.payloadTooLong (s : State) : Bool := decide (8 + s.ptLen.toNat > s.params.bufBytes)

/-- `CT_LEN > BUF_BYTES` (R223). -/
def State.bufferTooLong (s : State) : Bool := decide (s.ctLen.toNat > s.params.bufBytes)

/-- `SBOX[b]` (R37, R150). -/
def sboxAt (p : Params) (b : Byte) : Byte := p.sbox[b.toNat]'b.isLt

/-- `INV_SBOX[v]`: the `b` with `SBOX[b] = v` (R151). -/
def invSboxAt (p : Params) (v : Byte) : Byte := BitVec.ofNat 8 (p.sbox.toList.idxOf v)

/-- `NONCE[0 .. n]`, the first `n` bytes of the nonce bank (R35, R120). -/
def State.noncePrefix (s : State) (n : Nat) : List Byte := s.nonce.toList.take n

end Sys2Proof.Machine
end

