-- ==== Sys2Proof/Machine/Ops.lean ====
section
/-! DEFINITION. The shared operations: the buffer (spec/00_scope.md R11), acceptance of a command
(spec/20_memory.md R71), completion and errors (spec/60_exceptions.md R227, R228), drawing a nonce (R240), reset
(spec/70_reset_and_hazards.md R250). -/

namespace Sys2Proof.Machine

/-! ### Memory -/

/-- The byte at an address, or none where nothing has written it. -/
def Memory.read : Memory → Nat → Option Byte
  | [], _ => none
  | c :: m, a => if c.1 = a then some c.2 else Memory.read m a

/-- Write one byte, keeping the addresses strictly rising. -/
def Memory.write : Memory → Nat → Byte → Memory
  | [], a, b => [(a, b)]
  | c :: m, a, b =>
    if a < c.1 then (a, b) :: c :: m
    else if a = c.1 then (a, b) :: m
    else c :: Memory.write m a b

/-- The canonical form: addresses strictly rising. -/
abbrev Memory.wf (m : Memory) : Prop := m.Pairwise (fun c d => c.1 < d.1)

/-- The byte at an address, with `free` giving what a byte never written reads as. -/
def Memory.get (m : Memory) (free : Nat → Byte) (a : Nat) : Byte := (m.read a).getD (free a)

/-- `MemWrite(a, len(s), s)` (R11). -/
def Memory.writeBytes : Memory → Nat → List Byte → Memory
  | m, _, [] => m
  | m, a, b :: bs => Memory.writeBytes (m.write a b) (a + 1) bs

/-- `for i in 0 .. n-1: BUF[i] <- f(BUF[i])`, the loop of the byte-wise layers (R152, R153, R180). -/
def Memory.mapBytes (m : Memory) (free : Nat → Byte) (f : Byte → Byte) : Nat → Memory
  | 0 => m
  | n + 1 =>
    let m' := Memory.mapBytes m free f n
    m'.write n (f (m'.get free n))

/-- `swap(buf[i], buf[j])` (R170). -/
def Memory.swap (m : Memory) (free : Nat → Byte) (i j : Nat) : Memory :=
  (m.write i (m.get free j)).write j (m.get free i)

/-- `BUF[a]` as the engine or a host read finds it now (R36, R43). -/
def State.bufByte (s : State) (a : Nat) : Byte := s.buf.get (Config.freeByte s.epoch) a

/-- What `BUF[a]` holds: none where nothing has written it since reset (R43). -/
def State.peek (s : State) (a : Nat) : Option Byte := s.buf.read a

/-- `MemRead(a, n)` (R11). -/
def State.memRead (s : State) (a n : Nat) : List Byte := (List.range n).map fun k => s.bufByte (a + k)

/-- `MemWrite(a, len(bs), bs)` (R11). -/
def State.memWrite (s : State) (a : Nat) (bs : List Byte) : State := { s with buf := s.buf.writeBytes a bs }

/-- A byte-wise layer over `BUF[0 .. m]`. -/
def State.mapLayer (s : State) (f : Byte → Byte) (m : Nat) : State :=
  { s with buf := s.buf.mapBytes (Config.freeByte s.epoch) f m }

/-! ### Lifecycle of a command -/

/-- Acceptance of a command word: `PENDING <- data'`, `ENGINE <- BUSY`, `STATUS <- {BUSY 1, DONE 0, ERR 0,
ERRCODE 0x00, LAST_OP data'[7:0]}` (R71). -/
def State.accept (s : State) (w : Word) : State :=
  { s with pending := some w, done := false, err := false, errcode := 0, lastOp := cmdOpcode w }

/-- The end of a command: BUSY 0 and `ENGINE <- IDLE`, DONE 1, ERR and ERRCODE as given, LAST_OP unchanged (R227, R228).
The engine step is over, so free values read later are fresh ones. -/
def State.finish (s : State) (err : Bool) (code : Byte) : State :=
  { s with pending := none, done := true, err := err, errcode := code, epoch := s.epoch + 1 }

/-- `complete()` (R227). -/
def State.complete (s : State) : State := s.finish false 0x00

/-- `raise E`: the whole effect of an error (R228, R229). Writes made before it stay (R12). -/
def State.raise (s : State) (e : Error) : State := s.finish true (errorCode e)

/-! ### The random source -/

/-- The random source can supply all 16 bytes of a nonce (R70, R240). -/
def State.rngReady (s : State) : Bool := decide (16 ≤ s.rng.length)

/-- `for i in 0 .. 15: NONCE[i] <- draw_rng()`, then `NONCE_LEN.LEN <- 16` (R191, R193, R240). -/
def State.drawNonce (s : State) : State :=
  { s with nonce := Vector.ofFn fun i => s.rng.getD i.val 0, nonceLen := 16, rng := s.rng.drop 16 }

/-! ### Reset -/

/-- The pending command is one that draws random bytes and would get as far as drawing (R191, R193, R240). -/
def State.drawing (s : State) : Bool :=
  match s.pending.map decode with
  | some (.ok (.genNonce _)) => true
  | some (.ok (.encrypt _)) => !s.payloadTooLong
  | _ => false

/-- Reset (R250): every piece of state takes the value of R43, the parameters keep theirs, the command in progress is
abandoned. "A random byte already taken by the abandoned command is lost" (R251); reset does not act on the random
source or on the host. -/
def State.applyReset (s : State) (taken : Nat) : State :=
  { State.resetWith s.params with
    inputs := s.inputs
    rng := if s.drawing then s.rng.drop (min taken 16) else s.rng
    rdata := s.rdata
    epoch := s.epoch }

end Sys2Proof.Machine
end

