-- ==== Sys2Proof/Machine/Bus.lean ====
section
/-! DEFINITION. The host bus: the register map (spec/10_state.md section 3), the address map (spec/20_memory.md R66) and
the two host transactions (R62, R63, R72). -/

namespace Sys2Proof.Machine

/-- The host-visible registers (R24 to R35). -/
inductive Reg where
  | cmd
  | status
  | ptLen
  | ctLen
  | nonceLen
  | keys
  | prbgStateLo
  | prbgStateHi
  | prbgOut
  | result
  | capacity
  | nonce0
  | nonce1
  | nonce2
  | nonce3
  deriving DecidableEq, Repr

/-- The register at a word offset (10_state.md section 3). Offset 0x002C is reserved. -/
def regAt (off : Nat) : Option Reg :=
  match off with
  | 0x00 => some .cmd
  | 0x04 => some .status
  | 0x08 => some .ptLen
  | 0x0C => some .ctLen
  | 0x10 => some .nonceLen
  | 0x14 => some .keys
  | 0x18 => some .prbgStateLo
  | 0x1C => some .prbgStateHi
  | 0x20 => some .prbgOut
  | 0x24 => some .result
  | 0x28 => some .capacity
  | 0x30 => some .nonce0
  | 0x34 => some .nonce1
  | 0x38 => some .nonce2
  | 0x3C => some .nonce3
  | _ => none

/-- What an address selects (R66). -/
inductive Target where
  | reg (r : Reg)
  /-- The word of the buffer window that starts at `BUF[off]` (R68). -/
  | window (off : Nat)
  | reserved
  deriving DecidableEq, Repr

/-- `addr & 0xFFFC`: the core ignores address bits [1:0] (R60, R64). -/
def wordAddr (a : Addr) : Nat := (a &&& 0xFFFC#16).toNat

/-- The address map (R66, R67, R68). -/
def targetOf (bufBytes : Nat) (a : Addr) : Target :=
  if 0x1000 ≤ wordAddr a ∧ wordAddr a < 0x1000 + bufBytes then .window (wordAddr a - 0x1000)
  else
    match regAt (wordAddr a) with
    | some r => .reg r
    | none => .reserved

/-- Word `w` of the nonce bank, in little-endian lanes (R35, R60). -/
def State.nonceWord (s : State) (w : Fin 4) : Word :=
  ofLanes (s.nonce[4 * w.val]) (s.nonce[4 * w.val + 1]) (s.nonce[4 * w.val + 2]) (s.nonce[4 * w.val + 3])

/-- Replace word `w` of the nonce bank (R35). -/
def State.setNonceWord (s : State) (w : Fin 4) (v : Word) : State :=
  { s with
    nonce := (((s.nonce.set (4 * w.val) (lane v 0)).set (4 * w.val + 1) (lane v 1)).set (4 * w.val + 2) (lane v 2)).set
      (4 * w.val + 3) (lane v 3) }

/-- A register's value, "with reserved fields as 0, and 0 for `CMD`" (R62). -/
def State.readReg (s : State) : Reg → Word
  | .cmd => 0
  | .status => s.statusWord
  | .ptLen => s.ptLen
  | .ctLen => s.ctLen
  | .nonceLen => s.nonceLen.setWidth 32
  | .keys => (s.keyK2 ++ s.keyK1).setWidth 32
  | .prbgStateLo => s.prbgState.extractLsb' 0 32
  | .prbgStateHi => s.prbgState.extractLsb' 32 32
  | .prbgOut => s.prbgOut.setWidth 32
  | .result => s.result.setWidth 32
  | .capacity => BitVec.ofNat 32 s.params.bufBytes
  | .nonce0 => s.nonceWord 0
  | .nonce1 => s.nonceWord 1
  | .nonce2 => s.nonceWord 2
  | .nonce3 => s.nonceWord 3

/-- Give a register a new value. The read-write registers take it, reserved bits dropped; a write to a read-only
register is ignored (R63, R67); `CMD` holds no value (R24). -/
def State.writeReg (s : State) (r : Reg) (v : Word) : State :=
  match r with
  | .cmd => s
  | .status => s
  | .ptLen => { s with ptLen := v }
  | .ctLen => { s with ctLen := v }
  | .nonceLen => { s with nonceLen := lane v 0 }
  | .keys => { s with keyK1 := lane v 0, keyK2 := lane v 1 }
  | .prbgStateLo => { s with prbgState := s.prbgState.extractLsb' 32 32 ++ v }
  | .prbgStateHi => { s with prbgState := v ++ s.prbgState.extractLsb' 0 32 }
  | .prbgOut => s
  | .result => s
  | .capacity => s
  | .nonce0 => s.setNonceWord 0 v
  | .nonce1 => s.setNonceWord 1 v
  | .nonce2 => s.setNonceWord 2 v
  | .nonce3 => s.setNonceWord 3 v

/-- The word of the buffer window at `BUF[off .. off+4]` (R62, R68). -/
def State.readWindow (s : State) (off : Nat) : Word :=
  ofLanes (s.bufByte off) (s.bufByte (off + 1)) (s.bufByte (off + 2)) (s.bufByte (off + 3))

/-- Lane `j` of a strobed write to the buffer window (R63). -/
def Memory.writeLane (m : Memory) (off : Nat) (data : Word) (strb : BitVec 4) (j : Nat) : Memory :=
  if strb.getLsbD j then m.write (off + j) (lane data j) else m

/-- A strobed write to the buffer window at `BUF[off .. off+4]` (R63, R68). -/
def State.writeWindow (s : State) (off : Nat) (data : Word) (strb : BitVec 4) : State :=
  { s with
    buf := (((s.buf.writeLane off data strb 0).writeLane off data strb 1).writeLane off data strb 2).writeLane off data strb 3 }

/-- `HostRead(addr)` while `ENGINE` = `IDLE` (R62, R67). -/
def State.readIdle (s : State) (a : Addr) : Word :=
  match targetOf s.params.bufBytes a with
  | .reg r => s.readReg r
  | .window off => s.readWindow off
  | .reserved => 0

/-- `HostRead(addr)` while `ENGINE` = `BUSY` (R72): exact for `STATUS`, `CAPACITY` and reserved addresses, a free value
of the word address elsewhere (R64: address bits [1:0] are ignored). -/
def State.readBusy (s : State) (a : Addr) : Word :=
  match targetOf s.params.bufBytes a with
  | .reg .status => s.statusWord
  | .reg .capacity => s.readReg .capacity
  | .reserved => 0
  | .reg _ => Config.busyWord s.epoch (a &&& 0xFFFC#16)
  | .window _ => Config.busyWord s.epoch (a &&& 0xFFFC#16)

/-- The data of `HostRead(addr)` (R62, R72). -/
def State.hostReadData (s : State) (a : Addr) : Word :=
  if s.busy then s.readBusy a else s.readIdle a

/-- `HostRead(addr)`: no side effect on any state of the spec (R62). The data stands on `bus_rdata`; free values read
later are fresh ones. -/
def State.hostRead (s : State) (a : Addr) : State :=
  { s with rdata := s.hostReadData a, epoch := s.epoch + 1 }

/-- `HostWrite(addr, data, strb)` (R63, R67, R71, R72). -/
def State.hostWrite (s : State) (a : Addr) (data : Word) (strb : BitVec 4) : State :=
  if s.busy then s
  else if strb = 0 then s
  else
    match targetOf s.params.bufBytes a with
    | .reg .cmd => s.accept (mergeLanes 0 data strb)
    | .reg r => s.writeReg r (mergeLanes (s.readReg r) data strb)
    | .window off => s.writeWindow off data strb
    | .reserved => s

end Sys2Proof.Machine
end

