-- ==== Sys2Proof/Machine/KeyDerivation.lean ====
section
/-! DEFINITION. key_derivation_unit (spec/42_key_derivation.md): DERIVE_KEYS. -/

namespace Sys2Proof.Machine

/-- The nonce byte of step `i`: `nonce[i mod L]`, or 0 when the nonce is empty (R120, R121). -/
def nonceByteAt (nonce : List Byte) (i : Nat) : Byte :=
  if nonce.length = 0 then 0 else nonce.getD (i % nonce.length) 0

/-- Step `i` of the derivation: `ACC <- rotl64(ACC, 8) ^ zext_64(s ^ t)` (R120). -/
def deriveRound (pss nonce : List Byte) (acc : DWord) (i : Nat) : DWord :=
  rotl64 acc 8 ^^^ (pss.getD (i % pss.length) 0 ^^^ nonceByteAt nonce i).setWidth 64

/-- `derive_acc(pss, nonce)`: `max(len(pss), L)` steps from `ACC` = 0 (R120). -/
def deriveAcc (pss nonce : List Byte) : DWord :=
  (List.range (max pss.length nonce.length)).foldl (deriveRound pss nonce) 0

/-- `k1 = ACC[7:0] ^ 0xAB` (R122, CONST1 of R5). -/
def k1OfAcc (acc : DWord) : Byte := acc.extractLsb' 0 8 ^^^ 0xAB#8

/-- `k2 = wrap8(ACC[15:8] + 0xCD)` (R122, CONST2 of R5). -/
def k2OfAcc (acc : DWord) : Byte := acc.extractLsb' 8 8 + 0xCD#8

/-- The accumulator that `PSS` and the first `n` bytes of the nonce bank give (R120). -/
def State.derivedAcc (s : State) (n : Nat) : DWord := deriveAcc s.params.pss.toList (s.noncePrefix n)

/-- `(TK1, TK2) <- derive_keys(PSS[0..32], NONCE[0..16])`, leaving `ACC` (R39, R41, R192, R195). -/
def State.deriveLatches (s : State) : State :=
  { s with acc := s.derivedAcc 16, tk1 := k1OfAcc (s.derivedAcc 16), tk2 := k2OfAcc (s.derivedAcc 16) }

/-- DERIVE_KEYS (R123). -/
def execDeriveKeys (s : State) : Result :=
  if s.nonceLen.toNat > 16 then .next (s.raise .invalidNonceLength)
  else
    .next ({ s with
      acc := s.derivedAcc s.nonceLen.toNat
      keyK1 := k1OfAcc (s.derivedAcc s.nonceLen.toNat)
      keyK2 := k2OfAcc (s.derivedAcc s.nonceLen.toNat) } : State).complete

end Sys2Proof.Machine
end

