-- ==== Sys2Proof/Machine/Prbg.lean ====
section
/-! DEFINITION. lcg_prbg (spec/41_lcg_prbg.md): PRBG_SEED and PRBG_NEXT. -/

namespace Sys2Proof.Machine

/-- `lcg_step(s) = wrap64(s * LCG_A + LCG_C)` (R110, R5). -/
def lcgStep (s : DWord) : DWord := s * 1664525#64 + 1013904223#64

/-- `lcg_out(s) = s[23:16]` (R111). -/
def lcgOut (s : DWord) : Byte := s.extractLsb' 16 8

/-- The next `n` output bytes of a generator in state `s`, with its final state. -/
def prbgFrom : Nat → DWord → List Byte × DWord
  | 0, s => ([], s)
  | n + 1, s =>
    let r := prbgFrom n (lcgStep s)
    (lcgOut (lcgStep s) :: r.1, r.2)

/-- `prbg_bytes(seed, n)` (R114). -/
def prbgBytes (seed : Byte) (n : Nat) : List Byte × DWord := prbgFrom n (seed.setWidth 64)

/-- PRBG_SEED (R112). -/
def execPrbgSeed (imm : Byte) (s : State) : Result :=
  .next ({ s with prbgState := imm.setWidth 64 } : State).complete

/-- PRBG_NEXT (R113). -/
def execPrbgNext (s : State) : Result :=
  .next ({ s with prbgState := lcgStep s.prbgState, prbgOut := lcgOut (lcgStep s.prbgState) } : State).complete

end Sys2Proof.Machine
end

