-- ==== Sys2Proof/Machine/Padding.lean ====
section
/-! DEFINITION. The padding codec (spec/43_padding.md): ADD_PADDING and REMOVE_PADDING. -/

namespace Sys2Proof.Machine

/-- The writes of `add_padding` around a payload of `n` bytes that stands at `BUF[8 .. 8 + n]`: `MemWrite(0, 8, be64(n))`,
then `make_filler(k2, n)`, whose bytes "equal `prbg_bytes(k2, fl).0`" and which leaves the generator in `WPRBG`
(R130, R131, R133). -/
def State.padBuffer (s : State) (k2 : Byte) (n : Nat) : State :=
  let s' := (s.memWrite 0 (be64 n)).memWrite (8 + n) (prbgBytes k2 (fillerLen n)).1
  { s' with wprbg := (prbgBytes k2 (fillerLen n)).2 }

/-- `remove_padding` on `BUF[0 .. m]`: the recovered length, or the first error in the source's order (R132). -/
def State.removePadding (s : State) (m : Nat) : Except Error Nat :=
  if m < 8 then .error .malformedLength
  else if m % 16 ≠ 0 then .error .badBlockAlignment
  else if 8 + fromBe64 (s.memRead 0 8) > m then .error .lengthOverflow
  else .ok (fromBe64 (s.memRead 0 8))

/-- The end of a command by `remove_padding`: `PT_LEN <- ol` and `complete()`, or the error (R134, R195). -/
def State.finishRemovePadding (s : State) (m : Nat) : State :=
  match s.removePadding m with
  | .error e => s.raise e
  | .ok ol => ({ s with ptLen := BitVec.ofNat 32 ol } : State).complete

/-- ADD_PADDING (R133). -/
def execAddPadding (s : State) : Result :=
  if s.payloadTooLong then .next (s.raise .capacityExceeded)
  else
    .next ({ s.padBuffer s.keyK2 s.ptLen.toNat with ctLen := BitVec.ofNat 32 (paddedLen s.ptLen.toNat) } : State).complete

/-- REMOVE_PADDING (R134). -/
def execRemovePadding (s : State) : Result :=
  if s.bufferTooLong then .next (s.raise .capacityExceeded)
  else .next (s.finishRemovePadding s.ctLen.toNat)

end Sys2Proof.Machine
end

