-- ==== Sys2Proof/Machine/Permutation.lean ====
section
/-! DEFINITION. byte_permutation (spec/45_permutation.md): PERMUTE and INV_PERMUTE. -/

namespace Sys2Proof.Machine

/-- The two swaps of `permute` on the block that starts at `o`, in the stated order (R170). -/
def Memory.permuteBlock (m : Memory) (free : Nat → Byte) (o : Nat) : Memory :=
  (m.swap free (o + 0) (o + 15)).swap free (o + 1) (o + 14)

/-- The two swaps of `inverse_permute` on the block that starts at `o`, in the stated order (R171). -/
def Memory.invPermuteBlock (m : Memory) (free : Nat → Byte) (o : Nat) : Memory :=
  (m.swap free (o + 1) (o + 14)).swap free (o + 0) (o + 15)

/-- `permute` on the first `k` full blocks (R170). -/
def Memory.permuteBlocks (m : Memory) (free : Nat → Byte) : Nat → Memory
  | 0 => m
  | k + 1 => (Memory.permuteBlocks m free k).permuteBlock free (16 * k)

/-- `inverse_permute` on the first `k` full blocks (R171). -/
def Memory.invPermuteBlocks (m : Memory) (free : Nat → Byte) : Nat → Memory
  | 0 => m
  | k + 1 => (Memory.invPermuteBlocks m free k).invPermuteBlock free (16 * k)

/-- `BUF[0 .. m] <- permute(BUF[0 .. m])`: every full block; the ragged tail is untouched (R170, R172). -/
def State.permuteLayer (s : State) (m : Nat) : State :=
  { s with buf := s.buf.permuteBlocks (Config.freeByte s.epoch) (m / 16) }

/-- `BUF[0 .. m] <- inverse_permute(BUF[0 .. m])` (R171, R173). -/
def State.invPermuteLayer (s : State) (m : Nat) : State :=
  { s with buf := s.buf.invPermuteBlocks (Config.freeByte s.epoch) (m / 16) }

/-- PERMUTE (R172). -/
def execPermute (s : State) : Result :=
  if s.bufferTooLong then .next (s.raise .capacityExceeded)
  else .next (s.permuteLayer s.ctLen.toNat).complete

/-- INV_PERMUTE (R173). -/
def execInvPermute (s : State) : Result :=
  if s.bufferTooLong then .next (s.raise .capacityExceeded)
  else .next (s.invPermuteLayer s.ctLen.toNat).complete

end Sys2Proof.Machine
end

