-- ==== Sys2Proof/Machine/Substitution.lean ====
section
/-! DEFINITION. substitution_sbox (spec/44_substitution.md): SUBSTITUTE, INV_SUBSTITUTE, SBOX_LOOKUP,
INV_SBOX_LOOKUP. -/

namespace Sys2Proof.Machine

/-- `BUF[i] <- SBOX[BUF[i]]` for `i` below `m` (R152). -/
def State.substLayer (s : State) (m : Nat) : State := s.mapLayer (sboxAt s.params) m

/-- `BUF[i] <- INV_SBOX[BUF[i]]` for `i` below `m` (R153). -/
def State.invSubstLayer (s : State) (m : Nat) : State := s.mapLayer (invSboxAt s.params) m

/-- SUBSTITUTE (R152). -/
def execSubstitute (s : State) : Result :=
  if s.bufferTooLong then .next (s.raise .capacityExceeded)
  else .next (s.substLayer s.ctLen.toNat).complete

/-- INV_SUBSTITUTE (R153). -/
def execInvSubstitute (s : State) : Result :=
  if s.bufferTooLong then .next (s.raise .capacityExceeded)
  else .next (s.invSubstLayer s.ctLen.toNat).complete

/-- SBOX_LOOKUP (R154). -/
def execSboxLookup (imm : Byte) (s : State) : Result :=
  .next ({ s with result := sboxAt s.params imm } : State).complete

/-- INV_SBOX_LOOKUP (R155). -/
def execInvSboxLookup (imm : Byte) (s : State) : Result :=
  .next ({ s with result := invSboxAt s.params imm } : State).complete

end Sys2Proof.Machine
end

