-- ==== Sys2Proof/Machine/XorBuf.lean ====
section
/-! DEFINITION. stream_xor_buffer (spec/46_xor.md): XOR_BUF. -/

namespace Sys2Proof.Machine

/-- `xor_with_key` on `BUF[0 .. m]` (R180). -/
def State.xorLayer (s : State) (k : Byte) (m : Nat) : State := s.mapLayer (· ^^^ k) m

/-- XOR_BUF (R181). -/
def execXorBuf (s : State) : Result :=
  if s.bufferTooLong then .next (s.raise .capacityExceeded)
  else .next (s.xorLayer s.keyK1 s.ctLen.toNat).complete

end Sys2Proof.Machine
end

