-- ==== Sys2Proof/Machine/Orchestrator.lean ====
section
/-! DEFINITION. encrypt_decrypt_orchestrator (spec/47_orchestrator.md): NOP, GEN_NONCE, ENCRYPT, ENCRYPT_N, DECRYPT. -/

namespace Sys2Proof.Machine

/-- The layers of encryption over `BUF[0 .. m]`, in order: XOR, substitute, permute (R192). -/
def State.encryptLayers (s : State) (k1 : Byte) (m : Nat) : State :=
  ((s.xorLayer k1 m).substLayer m).permuteLayer m

/-- The layers of decryption over `BUF[0 .. m]`, in order: inverse permute, inverse substitute, XOR (R195). -/
def State.decryptLayers (s : State) (k1 : Byte) (m : Nat) : State :=
  ((s.invPermuteLayer m).invSubstLayer m).xorLayer k1 m

/-- `encrypt_pipeline(n)` (R192). -/
def State.encryptPipeline (s : State) (n : Nat) : State :=
  let s1 := s.deriveLatches
  let s2 := s1.padBuffer s1.tk2 n
  let s3 := s2.encryptLayers s1.tk1 (paddedLen n)
  { s3 with ctLen := BitVec.ofNat 32 (paddedLen n) }

/-- `decrypt_pipeline(m)`, with the command's end (R195, R196). -/
def State.decryptPipeline (s : State) (m : Nat) : State :=
  let s1 := s.deriveLatches
  (s1.decryptLayers s1.tk1 m).finishRemovePadding m

/-- NOP (R190). -/
def execNop (s : State) : Result := .next s.complete

/-- GEN_NONCE (R191). It waits, with BUSY = 1, until the random source can supply 16 bytes (R70, R241). -/
def execGenNonce (s : State) : Result :=
  if s.rngReady then .next s.drawNonce.complete
  else .next s

/-- ENCRYPT (R193). The capacity check comes before the nonce is drawn; then the command waits for the random source
(R70, R241). -/
def execEncrypt (s : State) : Result :=
  if s.payloadTooLong then .next (s.raise .capacityExceeded)
  else if s.rngReady then .next (s.drawNonce.encryptPipeline s.ptLen.toNat).complete
  else .next s

/-- ENCRYPT_N (R194). -/
def execEncryptN (s : State) : Result :=
  if s.payloadTooLong then .next (s.raise .capacityExceeded)
  else if s.nonceLen ≠ 16 then .next (s.raise .invalidNonceLength)
  else .next (s.encryptPipeline s.ptLen.toNat).complete

/-- DECRYPT (R196). -/
def execDecrypt (s : State) : Result :=
  if s.bufferTooLong then .next (s.raise .capacityExceeded)
  else if s.ctLen.toNat % 16 ≠ 0 then .next (s.raise .invalidLength)
  else if s.nonceLen ≠ 16 then .next (s.raise .invalidNonceLength)
  else .next (s.decryptPipeline s.ctLen.toNat)

end Sys2Proof.Machine
end

