-- ==== Sys2Proof/Machine/Dispatch.lean ====
section
/-! DEFINITION. One arm per command (spec/30_encoding.md R94). -/

namespace Sys2Proof.Machine

/-- The engine step of a decoded command (spec/20_memory.md R70): each arm calls the command's meaning. -/
def exec (i : Instr) (s : State) : Host.Outcome State Fault Refusal :=
  match i with
  | .nop _ => Sys2Proof.Machine.execNop s
  | .encrypt _ => Sys2Proof.Machine.execEncrypt s
  | .encryptN _ => Sys2Proof.Machine.execEncryptN s
  | .decrypt _ => Sys2Proof.Machine.execDecrypt s
  | .genNonce _ => Sys2Proof.Machine.execGenNonce s
  | .deriveKeys _ => Sys2Proof.Machine.execDeriveKeys s
  | .addPadding _ => Sys2Proof.Machine.execAddPadding s
  | .removePadding _ => Sys2Proof.Machine.execRemovePadding s
  | .xorBuf _ => Sys2Proof.Machine.execXorBuf s
  | .substitute _ => Sys2Proof.Machine.execSubstitute s
  | .invSubstitute _ => Sys2Proof.Machine.execInvSubstitute s
  | .permute _ => Sys2Proof.Machine.execPermute s
  | .invPermute _ => Sys2Proof.Machine.execInvPermute s
  | .prbgSeed imm => Sys2Proof.Machine.execPrbgSeed imm s
  | .prbgNext _ => Sys2Proof.Machine.execPrbgNext s
  | .sboxLookup imm => Sys2Proof.Machine.execSboxLookup imm s
  | .invSboxLookup imm => Sys2Proof.Machine.execInvSboxLookup imm s

end Sys2Proof.Machine
end

