-- ==== Sys2Proof/Machine/Engine.lean ====
section
/-! DEFINITION. Whose turn it is (spec/10_state.md R22), and what each agent does in it. -/

namespace Sys2Proof.Machine

/-- The engine's turn (R70, R222): the pending word is decoded and its command run; an ILLEGAL word ends with
IllegalCommand; with nothing pending the engine is idle and nothing changes. -/
def State.engineTurn (s : State) : Result :=
  match s.pending with
  | none => .next s
  | some w =>
    match decode w with
    | .ok i => exec i s
    | .error _ => .next (s.raise .illegalCommand)

/-- The next event, oldest first. With no event before it the engine has the turn (weak fairness, R70, R262). -/
def State.turn (s : State) : Result :=
  match s.inputs with
  | [] => s.engineTurn
  | .engine :: rest => ({ s with inputs := rest } : State).engineTurn
  | .read a :: rest => .next (({ s with inputs := rest } : State).hostRead a)
  | .write a data strb :: rest => .next (({ s with inputs := rest } : State).hostWrite a data strb)
  | .reset taken :: rest => .next (({ s with inputs := rest } : State).applyReset taken)

/-- One step: the next agent's turn, in a well-formed configuration ("A model refuses a configuration that is not
well-formed", R150). -/
def State.stepOnce (s : State) : Result :=
  if s.params.wf then s.turn else .refused .illFormedParams

/-- The state in which the engine runs the command word `w` in the very next step: the word is accepted (R71), and the
engine has the turn. -/
def State.withCommand (s : State) (w : Word) : State :=
  { s.accept w with inputs := .engine :: s.inputs }

end Sys2Proof.Machine
end

