-- ==== Sys2Proof/Machine/Step.lean ====
section
/-! DEFINITION. The step of the machine and the host's way to place a command word. -/

namespace Sys2Proof.Machine

/-- One step of the machine (spec/20_memory.md R70, R73). -/
def step (s : State) : Host.Outcome State Fault Refusal := s.stepOnce

/-- `s` with the command in the low `nbits` bits of `w` accepted and the engine's turn next, so that the very next step
runs exactly it. The machine fetches nothing (R76): this stands for the host's write to `CMD` (log entry 6). -/
def State.withFetchWord (s : State) (nbits w : Nat) : State := s.withCommand (BitVec.ofNat 32 (w % 2 ^ nbits))

end Sys2Proof.Machine
end

