-- ==== Sys2Proof/Safety.lean ====
section
/-! DEFINITION. What counts as a safe state, and the terms the claims use: the invariant, which state a command may
write (spec/10_state.md R44), and the spec's formulas written out apart from the machine. -/

namespace Sys2Proof.Machine

/-! ### The invariant -/

/-- The values that `STATUS.ERRCODE` may hold: "No other value ever appears in `ERRCODE`" (R220). -/
def legalErrcodes : List Byte := [0x00, 0x01, 0x02, 0x03, 0x04, 0x05, 0x10, 0x11]

/-- What every step keeps. -/
structure State.Inv (s : State) : Prop where
  /-- The buffer keeps its canonical form. -/
  bufWf : s.buf.wf
  /-- No byte stands outside `BUF[0 .. BUF_BYTES]` (R69). -/
  bufBound : ∀ c ∈ s.buf, c.1 < s.params.bufBytes
  /-- "`BUSY` and `DONE` are never both 1" (R25). -/
  busyNotDone : s.busy = true → s.done = false
  /-- While no command has completed since the last acceptance or reset, ERR and ERRCODE are 0 (R25, R43, R71). -/
  errNeedsDone : s.done = false → s.err = false
  /-- `ERRCODE` is 0x00 exactly when there is no error (R220, R227, R228). -/
  errcodeZero : s.err = false ↔ s.errcode = 0
  /-- `ERRCODE` holds a code of R220. -/
  errcodeLegal : s.errcode ∈ legalErrcodes
  /-- `LAST_OP` is the `OPCODE` of the last accepted command (R25, R71). -/
  lastOpPending : ∀ w, s.pending = some w → s.lastOp = cmdOpcode w

/-! ### What a command may write (R44) -/

/-- The registers that R44 has a column for, apart from `BUF`. -/
inductive Column where
  | ptLen
  | ctLen
  | nonceLen
  | nonce
  | keys
  | prbgState
  | prbgOut
  | result
  deriving DecidableEq, Repr

/-- A register of R44 holds the same in two states. -/
def Column.same (s t : State) : Column → Prop
  | .ptLen => t.ptLen = s.ptLen
  | .ctLen => t.ctLen = s.ctLen
  | .nonceLen => t.nonceLen = s.nonceLen
  | .nonce => t.nonce = s.nonce
  | .keys => t.keyK1 = s.keyK1 ∧ t.keyK2 = s.keyK2
  | .prbgState => t.prbgState = s.prbgState
  | .prbgOut => t.prbgOut = s.prbgOut
  | .result => t.result = s.result

end Sys2Proof.Machine

namespace Sys2Proof

open Sys2Proof.Machine

/-- The table of R44: the registers each command may write. -/
def Instr.writes : Instr → List Column
  | .nop _ => []
  | .encrypt _ => [.ctLen, .nonceLen, .nonce]
  | .encryptN _ => [.ctLen]
  | .decrypt _ => [.ptLen]
  | .genNonce _ => [.nonceLen, .nonce]
  | .deriveKeys _ => [.keys]
  | .addPadding _ => [.ctLen]
  | .removePadding _ => [.ptLen]
  | .xorBuf _ => []
  | .substitute _ => []
  | .invSubstitute _ => []
  | .permute _ => []
  | .invPermute _ => []
  | .prbgSeed _ => [.prbgState]
  | .prbgNext _ => [.prbgState, .prbgOut]
  | .sboxLookup _ => [.result]
  | .invSboxLookup _ => [.result]

/-- The table of R44, column `BUF`: command `i` run at `s` may store to `BUF[a]`. For ENCRYPT, ENCRYPT_N and ADD_PADDING,
`CT_LEN` is the padded length the command computes. -/
def Instr.stores (i : Instr) (s : State) (a : Nat) : Prop :=
  match i with
  | .encrypt _ | .encryptN _ => a < paddedLen s.ptLen.toNat
  | .addPadding _ => a < 8 ∨ (8 + s.ptLen.toNat ≤ a ∧ a < paddedLen s.ptLen.toNat)
  | .decrypt _ | .xorBuf _ | .substitute _ | .invSubstitute _ => a < s.ctLen.toNat
  | .permute _ | .invPermute _ => a < s.ctLen.toNat / 16 * 16
  | .nop _ | .genNonce _ | .deriveKeys _ | .removePadding _ => False
  | .prbgSeed _ | .prbgNext _ | .sboxLookup _ | .invSboxLookup _ => False

/-- `SBOX_TABLE` is a permutation of 0..255 (R6, R150). -/
def Params.IsPermutation (p : Params) : Prop := Function.Bijective fun b : Byte => p.sbox[b.toNat]'b.isLt

end Sys2Proof

namespace Sys2Proof.Machine

/-! ### The spec's formulas, apart from the machine -/

/-- `derive_acc(PSS, NONCE[0..L])` of R120, for `L` at most 16: 32 steps from 0. -/
def State.specAcc (s : State) (L : Nat) : DWord :=
  (List.range 32).foldl
    (fun acc i =>
      acc.rotateLeft 8 ^^^
        (s.params.pss.toList.getD i 0 ^^^ if L = 0 then 0 else s.nonce.toList.getD (i % L) 0).setWidth 64)
    0

/-- k1 of R122 for the orchestrator's nonce length 16. -/
def State.specK1 (s : State) : Byte := (s.specAcc 16).extractLsb' 0 8 ^^^ 0xAB#8

/-- k2 of R122 for the orchestrator's nonce length 16. -/
def State.specK2 (s : State) : Byte := (s.specAcc 16).extractLsb' 8 8 + 0xCD#8

/-- `s * LCG_A + LCG_C` modulo 2^64 (R110), as a number. -/
def specLcg (x : Nat) : Nat := (x * 1664525 + 1013904223) % 2 ^ 64

/-- Output byte `k`, counting from 0, of the generator `new(seed)` (R111, R114): bits 23 to 16 of its state after
`k + 1` updates. -/
def specPrbgByte (seed : Byte) (k : Nat) : Byte := BitVec.ofNat 8 (specLcg^[k + 1] seed.toNat / 2 ^ 16)

/-- Byte `i` of `add_padding(P, k2)` (R130), where `P` is the payload of `n` bytes that stands at `BUF[8 .. 8 + n]`. -/
def State.specPadded (s : State) (k2 : Byte) (n i : Nat) : Byte :=
  if i < 8 then BitVec.ofNat 8 (n / 256 ^ (7 - i))
  else if i < 8 + n then s.bufByte i
  else specPrbgByte k2 (i - (8 + n))

/-- Where byte `a` of a permuted block comes from: positions 0 and 15, and 1 and 14, are exchanged (R170). -/
def permutePos (a : Nat) : Nat := a / 16 * 16 + (15 - a % 16)

/-- The positions of a block that the permutation moves (R170). -/
def permuteMoves (a : Nat) : Bool := a % 16 == 0 || a % 16 == 1 || a % 16 == 14 || a % 16 == 15

/-- The index, before `permute` or `inverse_permute`, of the byte that stands at `a` after it (R170, R171). -/
def specPermute (a : Nat) : Nat := if permuteMoves a then permutePos a else a

/-- `from_be64` of the length field that bytes `b 0` to `b 7` form (R9). -/
def specFromBe64 (b : Nat → Byte) : Nat := ((List.range 8).map fun k => (b k).toNat * 256 ^ (7 - k)).sum

/-! ### Ends and runs of commands -/

/-- `r` is the end of a command at `s` with the error `code`, and nothing of the spec's state but STATUS has changed
(R228, R230); `epoch` is the model's own (log entry 3). -/
def State.OnlyRaises (s : State) (code : Byte) (r : Result) : Prop :=
  ∃ e, r = .next { s with pending := none, done := true, err := true, errcode := code, epoch := e }

/-- Run commands one after another, each as its own engine step. -/
def runCommands : List Instr → State → Result
  | [], s => .next s
  | i :: is, s =>
    match exec i s with
    | .next t => runCommands is t
    | .fault r => .fault r
    | .refused r => .refused r

/-- Two states that differ in the unobservable latches WPRBG, ACC, TK1 and TK2 at most (R33, R39, R41). -/
def State.SameButLatches (s t : State) : Prop :=
  t = { s with wprbg := t.wprbg, acc := t.acc, tk1 := t.tk1, tk2 := t.tk2 }

end Sys2Proof.Machine
end

