-- ==== Sys2Proof/Certificates/Slice0/Obligations.lean ====
section
/-! DEFINITION. The statements for the provers. Each says in its docstring which rule of spec/ it formalises.
`epoch`, `inputs`, `rng` and `rdata` are the model's own fields (INVENTORY.md, State). `epoch` is the counter that free
values are taken at (log entry 3): a statement leaves its next value open, but for the one that is about it. -/

open Sys2Proof Sys2Proof.Machine

/-! ### Encoding -/

/-- Words written out from spec/30_encoding.md R90, R94 and spec/95_test_vectors.md section 2.8. -/
def Obligations.SampleWordsDecode : Prop :=
  decode 0x00000000#32 = .ok (.nop 0x00) ∧
  decode 0x00000102#32 = .ok (.encryptN 0x01) ∧
  decode 0x00000003#32 = .ok (.decrypt 0x00) ∧
  decode 0x00000010#32 = .ok (.deriveKeys 0x00) ∧
  decode 0x00000012#32 = .ok (.removePadding 0x00) ∧
  decode 0x00000013#32 = .ok (.xorBuf 0x00) ∧
  decode 0x00000017#32 = .ok (.invPermute 0x00) ∧
  decode 0x0000CD20#32 = .ok (.prbgSeed 0xCD) ∧
  decode 0x00004122#32 = .ok (.sboxLookup 0x41) ∧
  decode 0x00000005#32 = .error .unassignedOpcode ∧
  decode 0x00010003#32 = .error .reservedBitsSet ∧
  decode 0x000000FF#32 = .error .unassignedOpcode

/-- R97, R100: a word decodes to a command exactly when it is the command's word `(IMM8 << 8) | OPCODE`; both directions,
every command, every immediate. -/
def Obligations.DecodeAndEncodeAgree : Prop :=
  ∀ (w : Word) (i : Instr), decode w = .ok i ↔ w = encode i

/-- R95, R96, R97: the words that select no command are those with `RSVD` != 0 and those whose `OPCODE` is 0x05 to 0x0F,
0x18 to 0x1F or 0x24 to 0xFF. -/
def Obligations.IllegalWordsAreExactly : Prop :=
  ∀ w : Word,
    (∃ e, decode w = .error e) ↔
      w.toNat / 2 ^ 16 ≠ 0 ∨
      (0x05 ≤ w.toNat % 256 ∧ w.toNat % 256 ≤ 0x0F) ∨
      (0x18 ≤ w.toNat % 256 ∧ w.toNat % 256 ≤ 0x1F) ∨
      0x24 ≤ w.toNat % 256

/-! ### The engine step -/

/-- R70: in the engine's turn the pending word's command runs, and a step is that command's `exec`. When that turn comes is
the model's own schedule (DESIGN CHOICE, log entry 6, no rule of the spec): the event `engine` is a turn, and so is a step
with no event left; `withFetchWord` accepts the word whatever the engine was doing, where a host write while busy is ignored
(R72), and puts the engine's turn first. -/
def Obligations.EngineTurnRunsPendingCommand : Prop :=
  (∀ (s : State) (w : Word) (i : Instr) (rest : List Event),
    s.params.wf = true → s.pending = some w → decode w = .ok i → s.inputs = .engine :: rest →
      step s = exec i { s with inputs := rest }) ∧
  (∀ (s : State) (w : Word) (i : Instr),
    s.params.wf = true → s.pending = some w → decode w = .ok i → s.inputs = [] → step s = exec i s) ∧
  (∀ (s : State) (w : Nat) (i : Instr),
    s.params.wf = true → decodeTableWord 32 w = some i →
      step (s.withFetchWord 32 w) = exec i (s.accept (BitVec.ofNat 32 w)))

/-- R222: an ILLEGAL word ends with IllegalCommand (0x10), and no state of the spec other than STATUS changes; LAST_OP
holds the word's low byte, as acceptance set it (in every state that meets the invariant). -/
def Obligations.IllegalCommandEndsWithError : Prop :=
  ∀ (s : State) (w : Word) (rest : List Event),
    s.params.wf = true → s.pending = some w → s.inputs = .engine :: rest →
    (w.toNat / 2 ^ 16 ≠ 0 ∨
      (0x05 ≤ w.toNat % 256 ∧ w.toNat % 256 ≤ 0x0F) ∨
      (0x18 ≤ w.toNat % 256 ∧ w.toNat % 256 ≤ 0x1F) ∨
      0x24 ≤ w.toNat % 256) →
    ({ s with inputs := rest } : State).OnlyRaises 0x10 (step s) ∧
    (s.Inv → ∀ t, step s = .next t → t.lastOp = w.extractLsb' 0 8)

/-- R150: "A model refuses a configuration that is not well-formed", for a table that is not a permutation. That an ill-sized
`BUF_BYTES` (R6) is refused too (DEDUCED), and that `step` is what refuses (DESIGN CHOICE), is the model's: log entry 9. -/
def Obligations.OnlyIllFormedConfigurationsAreRefused : Prop :=
  ∀ s : State,
    step s = .refused .illFormedParams ↔
      ¬ (s.params.IsPermutation ∧ s.params.bufBytes % 16 = 0 ∧ 16 ≤ s.params.bufBytes ∧ s.params.bufBytes ≤ 0xF000)

/-- No step of a well-formed configuration stops: nothing traps and no access raises an error (R67, R229). -/
def Obligations.WellFormedStepGoesOn : Prop :=
  ∀ s : State, s.params.wf = true → ∃ t, step s = .next t

/-! ### The host bus -/

/-- R71, D43: a write to `CMD` with a strobe, while idle, is accepted: lanes without a strobe count as 0x00, PENDING takes
the word, STATUS becomes {BUSY 1, DONE 0, ERR 0, ERRCODE 0, LAST_OP word[7:0]}. -/
def Obligations.CmdWriteIsAccepted : Prop :=
  ∀ (s : State) (a : Addr) (d : Word) (strb : BitVec 4) (rest : List Event),
    s.params.wf = true → s.pending = none → s.inputs = .write a d strb :: rest →
    a.toNat / 4 * 4 = 0x0000 → strb ≠ 0 →
    ∃ w : Word,
      (∀ j < 4, w.extractLsb' (8 * j) 8 = if strb.getLsbD j then d.extractLsb' (8 * j) 8 else 0#8) ∧
      step s = .next { s with
        inputs := rest, pending := some w, done := false, err := false, errcode := 0, lastOp := w.extractLsb' 0 8 }

/-- R63, R67, R72: a host write changes nothing when the engine is busy, when no strobe is set, at a reserved address, at
0x002C, and at the read-only registers. -/
def Obligations.IgnoredHostWrites : Prop :=
  ∀ (s : State) (a : Addr) (d : Word) (strb : BitVec 4) (rest : List Event),
    s.params.wf = true → s.inputs = .write a d strb :: rest →
    (s.pending ≠ none ∨ strb = 0 ∨
      a.toNat / 4 * 4 ∈ [0x0004, 0x0020, 0x0024, 0x0028, 0x002C] ∨
      (0x0040 ≤ a.toNat ∧ a.toNat < 0x1000) ∨
      0x1000 + s.params.bufBytes ≤ a.toNat) →
    step s = .next { s with inputs := rest }

/-- R63, R68: a write to the buffer window stores the strobed bytes in little-endian lanes, and changes nothing else. -/
def Obligations.BufferWindowWrite : Prop :=
  ∀ (s : State) (a : Addr) (d : Word) (strb : BitVec 4) (rest : List Event),
    s.params.wf = true → s.pending = none → s.inputs = .write a d strb :: rest →
    0x1000 ≤ a.toNat → a.toNat < 0x1000 + s.params.bufBytes →
    ∃ t,
      step s = .next t ∧ t = { s with inputs := rest, buf := t.buf } ∧
      (∀ j < 4, t.peek (a.toNat / 4 * 4 - 0x1000 + j) =
        if strb.getLsbD j then some (d.extractLsb' (8 * j) 8) else s.peek (a.toNat / 4 * 4 - 0x1000 + j)) ∧
      (∀ b, b < a.toNat / 4 * 4 - 0x1000 ∨ a.toNat / 4 * 4 - 0x1000 + 4 ≤ b → t.peek b = s.peek b)

/-- R63, R26 to R30: a write to a read-write register other than the nonce bank replaces the strobed bytes of its
implemented bits, keeps the others, and changes nothing else. -/
def Obligations.RegisterWrites : Prop :=
  ∀ (s : State) (a : Addr) (d : Word) (strb : BitVec 4) (rest : List Event),
    s.params.wf = true → s.pending = none → s.inputs = .write a d strb :: rest →
    let merged (old v : Word) : Prop :=
      ∀ j < 4, v.extractLsb' (8 * j) 8 = if strb.getLsbD j then d.extractLsb' (8 * j) 8 else old.extractLsb' (8 * j) 8
    (a.toNat / 4 * 4 = 0x0008 → ∃ v, merged s.ptLen v ∧ step s = .next { s with inputs := rest, ptLen := v }) ∧
    (a.toNat / 4 * 4 = 0x000C → ∃ v, merged s.ctLen v ∧ step s = .next { s with inputs := rest, ctLen := v }) ∧
    (a.toNat / 4 * 4 = 0x0010 →
      step s = .next { s with
        inputs := rest, nonceLen := if strb.getLsbD 0 then d.extractLsb' 0 8 else s.nonceLen }) ∧
    (a.toNat / 4 * 4 = 0x0014 →
      step s = .next { s with
        inputs := rest
        keyK1 := if strb.getLsbD 0 then d.extractLsb' 0 8 else s.keyK1
        keyK2 := if strb.getLsbD 1 then d.extractLsb' 8 8 else s.keyK2 }) ∧
    (a.toNat / 4 * 4 = 0x0018 →
      ∃ v, merged (s.prbgState.extractLsb' 0 32) v ∧
        step s = .next { s with inputs := rest, prbgState := s.prbgState.extractLsb' 32 32 ++ v }) ∧
    (a.toNat / 4 * 4 = 0x001C →
      ∃ v, merged (s.prbgState.extractLsb' 32 32) v ∧
        step s = .next { s with inputs := rest, prbgState := v ++ s.prbgState.extractLsb' 0 32 })

/-- R35, R60, R63: a write to `NONCEw` replaces the strobed bytes `NONCE[4*w + j]`, and changes nothing else. -/
def Obligations.NonceBankWrite : Prop :=
  ∀ (s : State) (a : Addr) (d : Word) (strb : BitVec 4) (rest : List Event),
    s.params.wf = true → s.pending = none → s.inputs = .write a d strb :: rest →
    0x0030 ≤ a.toNat → a.toNat < 0x0040 →
    ∃ t,
      step s = .next t ∧ t = { s with inputs := rest, nonce := t.nonce } ∧
      ∀ i : Fin 16, t.nonce[i] =
        if i.val / 4 = (a.toNat - 0x0030) / 4 ∧ strb.getLsbD (i.val % 4) = true then d.extractLsb' (8 * (i.val % 4)) 8
        else s.nonce[i]

/-- R62, R67, R68 with the registers of R24 to R35: what a host read returns while idle. It changes no state of the
spec. -/
def Obligations.HostReadsWhileIdle : Prop :=
  ∀ (s : State) (a : Addr) (rest : List Event),
    s.params.wf = true → s.pending = none → s.inputs = .read a :: rest →
    ∃ (v : Word) (e : Nat),
      step s = .next { s with inputs := rest, rdata := v, epoch := e } ∧
      (a.toNat / 4 * 4 = 0x0000 → v = 0) ∧
      (a.toNat / 4 * 4 = 0x0004 →
        v.toNat = 2 * s.done.toNat + 4 * s.err.toNat + 2 ^ 8 * s.errcode.toNat + 2 ^ 16 * s.lastOp.toNat) ∧
      (a.toNat / 4 * 4 = 0x0008 → v = s.ptLen) ∧
      (a.toNat / 4 * 4 = 0x000C → v = s.ctLen) ∧
      (a.toNat / 4 * 4 = 0x0010 → v.toNat = s.nonceLen.toNat) ∧
      (a.toNat / 4 * 4 = 0x0014 → v.toNat = s.keyK1.toNat + 2 ^ 8 * s.keyK2.toNat) ∧
      (a.toNat / 4 * 4 = 0x0018 → v = s.prbgState.extractLsb' 0 32) ∧
      (a.toNat / 4 * 4 = 0x001C → v = s.prbgState.extractLsb' 32 32) ∧
      (a.toNat / 4 * 4 = 0x0020 → v.toNat = s.prbgOut.toNat) ∧
      (a.toNat / 4 * 4 = 0x0024 → v.toNat = s.result.toNat) ∧
      (a.toNat / 4 * 4 = 0x0028 → v.toNat = s.params.bufBytes) ∧
      (a.toNat / 4 * 4 = 0x002C → v = 0) ∧
      (∀ i : Fin 16, a.toNat / 4 * 4 = 0x0030 + i.val / 4 * 4 → v.extractLsb' (8 * (i.val % 4)) 8 = s.nonce[i]) ∧
      (0x0040 ≤ a.toNat ∧ a.toNat < 0x1000 → v = 0) ∧
      (0x1000 ≤ a.toNat ∧ a.toNat < 0x1000 + s.params.bufBytes →
        ∀ j < 4, ∀ b, s.peek (a.toNat / 4 * 4 - 0x1000 + j) = some b → v.extractLsb' (8 * j) 8 = b) ∧
      (0x1000 + s.params.bufBytes ≤ a.toNat → v = 0)

/-- R72: while the engine is busy, reads of STATUS, CAPACITY and reserved addresses are exact; nothing is said of any other
read. -/
def Obligations.HostReadsWhileBusy : Prop :=
  ∀ (s : State) (a : Addr) (rest : List Event),
    s.params.wf = true → s.pending ≠ none → s.inputs = .read a :: rest →
    ∃ (v : Word) (e : Nat),
      step s = .next { s with inputs := rest, rdata := v, epoch := e } ∧
      (a.toNat / 4 * 4 = 0x0004 →
        v.toNat = 1 + 2 * s.done.toNat + 4 * s.err.toNat + 2 ^ 8 * s.errcode.toNat + 2 ^ 16 * s.lastOp.toNat) ∧
      (a.toNat / 4 * 4 = 0x0028 → v.toNat = s.params.bufBytes) ∧
      (a.toNat / 4 * 4 = 0x002C → v = 0) ∧
      (0x0040 ≤ a.toNat ∧ a.toNat < 0x1000 → v = 0) ∧
      (0x1000 + s.params.bufBytes ≤ a.toNat → v = 0)

/-- R64: "A transaction at a non-word-aligned address acts exactly as the same transaction at `addr & 0xFFFC`." -/
def Obligations.AddressLowBitsAreIgnored : Prop :=
  ∀ (s : State) (a b : Addr) (d : Word) (strb : BitVec 4) (rest : List Event),
    b.toNat = a.toNat / 4 * 4 →
    step { s with inputs := .write a d strb :: rest } = step { s with inputs := .write b d strb :: rest } ∧
    step { s with inputs := .read a :: rest } = step { s with inputs := .read b :: rest }

/-- R38, R23: no host transaction reaches the PSS: what a read returns and what a write does are the same whatever
`PSS_VALUE` is. -/
def Obligations.BusNeverReachesThePss : Prop :=
  ∀ (s : State) (pss : Vector Byte 32) (a : Addr) (d : Word) (strb : BitVec 4),
    (s.hostRead a).rdata = (({ s with params := { s.params with pss := pss } } : State).hostRead a).rdata ∧
    ({ s with params := { s.params with pss := pss } } : State).hostWrite a d strb =
      { s.hostWrite a d strb with params := { (s.hostWrite a d strb).params with pss := pss } }

/-- The model's own counter (DESIGN CHOICE, log entry 3): every host read and every end of a command moves it, so that a free
value read later is "a fresh one" (93_implementation_defined.md rows 10 and 11). -/
def Obligations.FreeValuesAreDrawnAfresh : Prop :=
  (∀ (s : State) (a : Addr) (rest : List Event),
    s.params.wf = true → s.inputs = .read a :: rest → ∃ t, step s = .next t ∧ t.epoch = s.epoch + 1) ∧
  (∀ (i : Instr) (s t : State), exec i s = .next t → t = s ∨ t.epoch = s.epoch + 1)

/-- R72, R70 and 95_test_vectors.md P6: "A model must allow both outcomes": a write to PT_LEN after the write of a NOP is lost
when the engine has not yet taken its step, and lands when it has. The two schedules are given in the model's own `inputs`
(log entry 6). -/
def Obligations.PtLenWriteAfterNopIsLostOrLands : Prop :=
  ∀ (s : State) (v : Word), s.params.wf = true → s.pending = none →
    (∃ t u,
      step { s with inputs := [.write 0x0000 0 0xF, .write 0x0008 v 0xF] } = .next t ∧ step t = .next u ∧
      u.ptLen = s.ptLen ∧ u.pending = some 0) ∧
    (∃ t u x,
      step { s with inputs := [.write 0x0000 0 0xF, .engine, .write 0x0008 v 0xF] } = .next t ∧ step t = .next u ∧
      step u = .next x ∧ x.ptLen = v ∧ x.pending = none ∧ x.done = true)

/-! ### Reset and the invariant -/

/-- R250, R43: the state that reset leaves, whatever it was before and also when a command is abandoned; and the same for
the model's own state right after reset. -/
def Obligations.ResetLeavesTheTableOfResetValues : Prop :=
  let table (t : State) : Prop :=
    t.pending = none ∧ t.done = false ∧ t.err = false ∧ t.errcode = 0 ∧ t.lastOp = 0 ∧ t.ptLen = 0 ∧ t.ctLen = 0 ∧
    t.nonceLen = 16 ∧ t.keyK1 = 0 ∧ t.keyK2 = 0 ∧ t.prbgState = 0 ∧ t.prbgOut = 0 ∧ t.result = 0 ∧
    (∀ i : Fin 16, t.nonce[i] = 0) ∧ (∀ a, t.peek a = none)
  (∀ (s : State) (taken : Nat) (rest : List Event),
    s.params.wf = true → s.inputs = .reset taken :: rest →
    ∃ t, step s = .next t ∧ table t ∧ t.params = s.params ∧ t.inputs = rest) ∧
  (∀ p, table (State.resetWith p) ∧ (State.resetWith p).params = p)

/-- R251: "A random byte already taken by the abandoned command is lost." The command is GEN_NONCE, or ENCRYPT of a payload
that fits; a reset while idle, or of any other word, takes no byte from the source. That the reset event carries the number of
bytes taken, and that the number has no effect where no command draws, is the model's choice (DESIGN CHOICE, log entry 15),
over the model's own list `rng` (log entry 5). -/
def Obligations.ResetLosesTheRandomBytesTaken : Prop :=
  ∀ (s : State) (taken : Nat) (rest : List Event),
    s.params.wf = true → s.inputs = .reset taken :: rest → taken ≤ 16 →
    (∀ w imm, s.pending = some w → decode w = .ok (.genNonce imm) → ∃ t, step s = .next t ∧ t.rng = s.rng.drop taken) ∧
    (∀ w imm, s.pending = some w → decode w = .ok (.encrypt imm) → 8 + s.ptLen.toNat ≤ s.params.bufBytes →
      ∃ t, step s = .next t ∧ t.rng = s.rng.drop taken) ∧
    (∀ w, s.pending = some w →
      (∀ imm, decode w ≠ .ok (.genNonce imm) ∧
        (decode w = .ok (.encrypt imm) → 8 + s.ptLen.toNat > s.params.bufBytes)) →
      ∃ t, step s = .next t ∧ t.rng = s.rng) ∧
    (s.pending = none → ∃ t, step s = .next t ∧ t.rng = s.rng)

/-- The invariant holds right after reset, in every configuration. -/
def Obligations.InvariantHoldsAtReset : Prop :=
  ∀ p : Params, (State.resetWith p).Inv

/-- Every step keeps the invariant: the buffer keeps its canonical form inside `BUF[0 .. BUF_BYTES]` (R69), BUSY and DONE
are never both 1 (R25), ERR and ERRCODE agree and hold only codes of R220, LAST_OP is the opcode of the last accepted
word (R25). -/
def Obligations.EveryStepKeepsTheInvariant : Prop :=
  ∀ s t : State, s.Inv → step s = .next t → t.Inv

/-- R23: no step changes a parameter. -/
def Obligations.ParametersNeverChange : Prop :=
  ∀ s t : State, step s = .next t → t.params = s.params

/-- R25: a step that neither accepts a command, nor runs one, nor resets leaves STATUS and PENDING as they were. -/
def Obligations.StatusChangesOnlyByAcceptanceCompletionReset : Prop :=
  ∀ (s t : State) (rest : List Event),
    step s = .next t →
    ((∃ a, s.inputs = .read a :: rest) ∨
      (∃ a d strb, s.inputs = .write a d strb :: rest ∧ a.toNat / 4 * 4 ≠ 0) ∨
      (s.inputs = .engine :: rest ∧ s.pending = none) ∨
      (s.inputs = [] ∧ s.pending = none)) →
    t.statusWord = s.statusWord ∧ t.pending = s.pending

/-! ### Rules about every command -/

/-- R44: no command writes a register that the table does not list for it, nor a byte of the buffer outside the range that
the table gives it. -/
def Obligations.CommandsWriteOnlyWhatTheTableLists : Prop :=
  ∀ (i : Instr) (s t : State), exec i s = .next t →
    (∀ c : Column, c ∉ i.writes → c.same s t) ∧ (∀ a : Nat, ¬ i.stores s a → t.peek a = s.peek a)

/-- R33, R39, R41, D14: WPRBG, ACC, TK1 and TK2 are unobservable: two states that differ in them alone step to states that
differ in them alone. -/
def Obligations.LatchesAreUnobservable : Prop :=
  ∀ s t s' : State, s.SameButLatches t → step s = .next s' → ∃ t', step t = .next t' ∧ s'.SameButLatches t'

/-- R223: CapacityExceeded (0x11) comes first and leaves everything but STATUS as it was. -/
def Obligations.CapacityExceededChangesOnlyStatus : Prop :=
  ∀ (i : Instr) (imm : Byte) (s : State),
    (i ∈ [Instr.encrypt imm, .encryptN imm, .addPadding imm] ∧ 8 + s.ptLen.toNat > s.params.bufBytes) ∨
    (i ∈ [Instr.decrypt imm, .removePadding imm, .xorBuf imm, .substitute imm, .invSubstitute imm, .permute imm,
        .invPermute imm] ∧ s.ctLen.toNat > s.params.bufBytes) →
    s.OnlyRaises 0x11 (exec i s)

/-- R225, R230: a command that ends with an error has changed nothing but STATUS and the unobservable latches; the one
exception is DECRYPT with LengthOverflow (0x05), which has run its inverse layers over the buffer. -/
def Obligations.ErrorsLeaveEverythingButStatus : Prop :=
  ∀ (i : Instr) (s t : State),
    exec i s = .next t → s.pending ≠ none → t.pending = none → t.err = true →
    ¬ ((∃ imm, i = .decrypt imm) ∧ t.errcode = 0x05) →
    ({ s with pending := none, done := true, err := true, errcode := t.errcode, epoch := t.epoch } : State).SameButLatches t

/-! ### lcg_prbg -/

/-- R112, R113 with R110, R111: PRBG_SEED and PRBG_NEXT. -/
def Obligations.PrbgSeedAndNext : Prop :=
  ∀ (imm : Byte) (s : State),
    (∃ v e, v.toNat = imm.toNat ∧
      exec (.prbgSeed imm) s = .next { s with
        pending := none, done := true, err := false, errcode := 0, epoch := e, prbgState := v }) ∧
    (∃ v o e, v.toNat = (s.prbgState.toNat * 1664525 + 1013904223) % 2 ^ 64 ∧ o.toNat = v.toNat / 2 ^ 16 % 256 ∧
      exec (.prbgNext imm) s = .next { s with
        pending := none, done := true, err := false, errcode := 0, epoch := e, prbgState := v, prbgOut := o })

/-- R115: PRBG_SEED and then `n` PRBG_NEXT leave state `n` of the generator `new(seed)` and, when `n` >= 1, its last output
byte. -/
def Obligations.PrbgSequenceFollowsTheGenerator : Prop :=
  ∀ (seed imm : Byte) (n : Nat) (s : State),
    ∃ t, runCommands (.prbgSeed seed :: List.replicate n (.prbgNext imm)) s = .next t ∧
      t.prbgState.toNat = specLcg^[n] seed.toNat ∧ ∀ k, n = k + 1 → t.prbgOut = specPrbgByte seed k

/-! ### key_derivation_unit -/

/-- R123 with R120, R121, R122: DERIVE_KEYS writes the derived pair for every nonce length up to 16, the empty nonce
included, and raises InvalidNonceLength (0x02) for a longer one, KEYS unchanged. That `ACC` still holds the fold after the
command is the model's choice (DESIGN CHOICE, log entry 4): the spec leaves it any value between commands (R39). -/
def Obligations.DeriveKeysWritesTheDerivedPair : Prop :=
  ∀ (imm : Byte) (s : State),
    (s.nonceLen.toNat ≤ 16 →
      ∃ e, exec (.deriveKeys imm) s = .next { s with
        pending := none, done := true, err := false, errcode := 0, epoch := e
        acc := s.specAcc s.nonceLen.toNat
        keyK1 := (s.specAcc s.nonceLen.toNat).extractLsb' 0 8 ^^^ 0xAB#8
        keyK2 := (s.specAcc s.nonceLen.toNat).extractLsb' 8 8 + 0xCD#8 }) ∧
    (s.nonceLen.toNat > 16 → s.OnlyRaises 0x02 (exec (.deriveKeys imm) s))

/-- R124: for a nonce length 0, 1, 2, 4, 8 or 16 the accumulator and the keys are constants of `PSS_VALUE`. The accumulator is
read where the model keeps it after the command (DESIGN CHOICE, log entry 4): the spec leaves `ACC` any value between commands
(R39). -/
def Obligations.KeysDoNotDependOnTheNonce : Prop :=
  ∀ (imm : Byte) (s : State), s.nonceLen.toNat ∈ [0, 1, 2, 4, 8, 16] →
    ∃ t, exec (.deriveKeys imm) s = .next t ∧
      (∀ m : Fin 8, t.acc.extractLsb' (8 * m.val) 8 =
        s.params.pss[31 - m.val] ^^^ s.params.pss[23 - m.val] ^^^ s.params.pss[15 - m.val] ^^^ s.params.pss[7 - m.val]) ∧
      t.keyK1 = s.params.pss[7] ^^^ s.params.pss[15] ^^^ s.params.pss[23] ^^^ s.params.pss[31] ^^^ 0xAB#8 ∧
      t.keyK2 = (s.params.pss[6] ^^^ s.params.pss[14] ^^^ s.params.pss[22] ^^^ s.params.pss[30]) + 0xCD#8

/-! ### The padding codec -/

/-- R133 with R130, R131: ADD_PADDING writes the prefix and the filler, leaves the payload and everything beyond the padded
buffer, and raises CapacityExceeded (0x11) for a payload that does not fit. That `WPRBG` still holds the generator's last
state after the command is the model's choice (DESIGN CHOICE, log entry 4): the spec leaves it any value between commands
(R33). -/
def Obligations.AddPaddingBuildsThePaddedBuffer : Prop :=
  ∀ (imm : Byte) (s : State) (n fl : Nat),
    s.params.wf = true → n = s.ptLen.toNat → fl = (16 - (8 + n) % 16) % 16 →
    (8 + n ≤ s.params.bufBytes →
      ∃ t,
        exec (.addPadding imm) s = .next t ∧
        t = { s with
          pending := none, done := true, err := false, errcode := 0, epoch := t.epoch
          buf := t.buf, ctLen := t.ctLen, wprbg := t.wprbg } ∧
        t.ctLen.toNat = 8 + n + fl ∧
        t.wprbg.toNat = specLcg^[fl] s.keyK2.toNat ∧
        (∀ k < 8, t.peek k = some (BitVec.ofNat 8 (n / 256 ^ (7 - k)))) ∧
        (∀ k < fl, t.peek (8 + n + k) = some (specPrbgByte s.keyK2 k)) ∧
        (∀ a, 8 ≤ a → a < 8 + n ∨ 8 + n + fl ≤ a → t.peek a = s.peek a)) ∧
    (8 + n > s.params.bufBytes → s.OnlyRaises 0x11 (exec (.addPadding imm) s))

/-- R134 with R132: REMOVE_PADDING's checks in their order, each error leaving everything but STATUS, and the recovered
length; the length check does not wrap. -/
def Obligations.RemovePaddingChecksAndRecoversTheLength : Prop :=
  ∀ (imm : Byte) (s : State) (m ol : Nat),
    m = s.ctLen.toNat → ol = specFromBe64 s.bufByte →
    (m > s.params.bufBytes → s.OnlyRaises 0x11 (exec (.removePadding imm) s)) ∧
    (m ≤ s.params.bufBytes → m < 8 → s.OnlyRaises 0x03 (exec (.removePadding imm) s)) ∧
    (m ≤ s.params.bufBytes → 8 ≤ m → m % 16 ≠ 0 → s.OnlyRaises 0x04 (exec (.removePadding imm) s)) ∧
    (m ≤ s.params.bufBytes → 8 ≤ m → m % 16 = 0 → 8 + ol > m → s.OnlyRaises 0x05 (exec (.removePadding imm) s)) ∧
    (m ≤ s.params.bufBytes → 8 ≤ m → m % 16 = 0 → 8 + ol ≤ m →
      ∃ v e, v.toNat = ol ∧
        exec (.removePadding imm) s = .next { s with
          pending := none, done := true, err := false, errcode := 0, epoch := e, ptLen := v })

/-- R135: ADD_PADDING and then REMOVE_PADDING leave PT_LEN and the payload as they were, and the padded length is a
multiple of 16. -/
def Obligations.PaddingRoundTrip : Prop :=
  ∀ (imm imm' : Byte) (s : State),
    s.params.wf = true → 8 + s.ptLen.toNat ≤ s.params.bufBytes →
    ∃ t u,
      exec (.addPadding imm) s = .next t ∧ exec (.removePadding imm') t = .next u ∧
      t.ctLen.toNat % 16 = 0 ∧ 8 + s.ptLen.toNat ≤ t.ctLen.toNat ∧ t.ctLen.toNat < 8 + s.ptLen.toNat + 16 ∧
      u.err = false ∧ u.ptLen = s.ptLen ∧ ∀ i < s.ptLen.toNat, u.peek (8 + i) = s.peek (8 + i)

/-! ### The layers -/

/-- R181, R180: XOR_BUF. -/
def Obligations.XorBufXorsEveryByte : Prop :=
  ∀ (imm : Byte) (s : State),
    (s.ctLen.toNat ≤ s.params.bufBytes →
      ∃ t,
        exec (.xorBuf imm) s = .next t ∧
        t = { s with pending := none, done := true, err := false, errcode := 0, epoch := t.epoch, buf := t.buf } ∧
        (∀ a < s.ctLen.toNat, t.peek a = some (s.bufByte a ^^^ s.keyK1)) ∧
        (∀ a ≥ s.ctLen.toNat, t.peek a = s.peek a)) ∧
    (s.ctLen.toNat > s.params.bufBytes → s.OnlyRaises 0x11 (exec (.xorBuf imm) s))

/-- R182: two XOR_BUF commands restore the buffer. -/
def Obligations.XorBufIsSelfInverse : Prop :=
  ∀ (imm imm' : Byte) (s : State), s.ctLen.toNat ≤ s.params.bufBytes →
    ∃ u, runCommands [.xorBuf imm, .xorBuf imm'] s = .next u ∧
      (∀ a < s.ctLen.toNat, u.peek a = some (s.bufByte a)) ∧ (∀ a ≥ s.ctLen.toNat, u.peek a = s.peek a)

/-- R152, R153: SUBSTITUTE maps every byte by `SBOX_TABLE`; INV_SUBSTITUTE leaves the byte whose image the old byte is. -/
def Obligations.SubstitutionMapsEveryByte : Prop :=
  ∀ (imm : Byte) (s : State), s.params.wf = true →
    (s.ctLen.toNat ≤ s.params.bufBytes →
      (∃ t,
        exec (.substitute imm) s = .next t ∧
        t = { s with pending := none, done := true, err := false, errcode := 0, epoch := t.epoch, buf := t.buf } ∧
        (∀ a < s.ctLen.toNat, t.peek a = some (s.params.sbox[(s.bufByte a).toNat]'(s.bufByte a).isLt)) ∧
        (∀ a ≥ s.ctLen.toNat, t.peek a = s.peek a)) ∧
      (∃ t,
        exec (.invSubstitute imm) s = .next t ∧
        t = { s with pending := none, done := true, err := false, errcode := 0, epoch := t.epoch, buf := t.buf } ∧
        (∀ a < s.ctLen.toNat, ∃ b : Byte, t.peek a = some b ∧ s.params.sbox[b.toNat]'b.isLt = s.bufByte a) ∧
        (∀ a ≥ s.ctLen.toNat, t.peek a = s.peek a))) ∧
    (s.ctLen.toNat > s.params.bufBytes →
      s.OnlyRaises 0x11 (exec (.substitute imm) s) ∧ s.OnlyRaises 0x11 (exec (.invSubstitute imm) s))

/-- R151, R153: SUBSTITUTE and INV_SUBSTITUTE restore the buffer, in both orders. -/
def Obligations.SubstitutionRoundTrip : Prop :=
  ∀ (imm imm' : Byte) (s : State), s.params.wf = true → s.ctLen.toNat ≤ s.params.bufBytes →
    ∀ is ∈ [[Instr.substitute imm, .invSubstitute imm'], [.invSubstitute imm, .substitute imm']],
      ∃ u, runCommands is s = .next u ∧
        (∀ a < s.ctLen.toNat, u.peek a = some (s.bufByte a)) ∧ (∀ a ≥ s.ctLen.toNat, u.peek a = s.peek a)

/-- R154, R155, R151: the two lookups. -/
def Obligations.SboxLookups : Prop :=
  ∀ (imm : Byte) (s : State), s.params.wf = true →
    (∃ e, exec (.sboxLookup imm) s = .next { s with
      pending := none, done := true, err := false, errcode := 0, epoch := e
      result := s.params.sbox[imm.toNat]'imm.isLt }) ∧
    ∃ (b : Byte) (e : Nat), s.params.sbox[b.toNat]'b.isLt = imm ∧
      exec (.invSboxLookup imm) s = .next { s with
        pending := none, done := true, err := false, errcode := 0, epoch := e, result := b }

/-- R172, R173 with R170, R171: PERMUTE and INV_PERMUTE exchange positions 0 and 15, and 1 and 14, of every full block and
touch nothing else, the ragged tail included. -/
def Obligations.PermutationSwapsInFullBlocks : Prop :=
  ∀ (imm : Byte) (s : State) (i : Instr), i ∈ [Instr.permute imm, .invPermute imm] →
    (s.ctLen.toNat ≤ s.params.bufBytes →
      ∃ t,
        exec i s = .next t ∧
        t = { s with pending := none, done := true, err := false, errcode := 0, epoch := t.epoch, buf := t.buf } ∧
        ∀ a, t.peek a =
          if a < s.ctLen.toNat / 16 * 16 ∧ a % 16 ∈ [0, 1, 14, 15] then some (s.bufByte (a / 16 * 16 + (15 - a % 16)))
          else s.peek a) ∧
    (s.ctLen.toNat > s.params.bufBytes → s.OnlyRaises 0x11 (exec i s))

/-- R174: PERMUTE and INV_PERMUTE restore the buffer, in both orders, and so does PERMUTE twice. -/
def Obligations.PermutationRoundTrip : Prop :=
  ∀ (imm imm' : Byte) (s : State), s.ctLen.toNat ≤ s.params.bufBytes →
    ∀ is ∈ [[Instr.permute imm, .invPermute imm'], [.invPermute imm, .permute imm'], [.permute imm, .permute imm']],
      ∃ u, runCommands is s = .next u ∧
        (∀ a, a < s.ctLen.toNat / 16 * 16 → a % 16 ∈ [0, 1, 14, 15] → u.peek a = some (s.bufByte a)) ∧
        (∀ a, s.ctLen.toNat / 16 * 16 ≤ a ∨ a % 16 ∉ [0, 1, 14, 15] → u.peek a = s.peek a)

/-! ### encrypt_decrypt_orchestrator -/

/-- R190: NOP does nothing and completes; run after its acceptance it leaves STATUS = 0x00000002. -/
def Obligations.NopOnlyCompletes : Prop :=
  ∀ (imm : Byte) (s : State),
    (∃ e, exec (.nop imm) s = .next { s with pending := none, done := true, err := false, errcode := 0, epoch := e }) ∧
    (∀ w, decode w = .ok (.nop imm) → ∃ t, exec (.nop imm) (s.accept w) = .next t ∧ t.statusWord = 0x00000002)

/-- R191, R240: GEN_NONCE takes 16 bytes from the random source, in order; until the source can supply them it waits. -/
def Obligations.GenNonceDrawsSixteenBytes : Prop :=
  ∀ (imm : Byte) (s : State),
    (16 ≤ s.rng.length →
      ∃ t,
        exec (.genNonce imm) s = .next t ∧
        t = { s with
          pending := none, done := true, err := false, errcode := 0, epoch := t.epoch
          nonce := t.nonce, nonceLen := 16, rng := s.rng.drop 16 } ∧
        ∀ i : Fin 16, s.rng[i.val]? = some t.nonce[i]) ∧
    (s.rng.length < 16 → exec (.genNonce imm) s = .next s)

/-- R241: while the random source cannot supply 16 bytes, GEN_NONCE, and ENCRYPT of a payload that fits, never complete: a
step other than a reset changes nothing of the spec's state, and BUSY stays 1. -/
def Obligations.StalledRandomSourceHoldsTheEngine : Prop :=
  ∀ (s t : State) (w : Word) (i : Instr),
    s.pending = some w → decode w = .ok i →
    (∃ imm, i = .genNonce imm ∨ (i = .encrypt imm ∧ 8 + s.ptLen.toNat ≤ s.params.bufBytes)) →
    s.rng.length < 16 → (∀ k rest, s.inputs ≠ .reset k :: rest) → step s = .next t →
    t = { s with inputs := t.inputs, rdata := t.rdata, epoch := t.epoch } ∧ t.statusWord.getLsbD 0 = true

/-- R194 with R192: ENCRYPT_N's checks in their order, and the ciphertext permute(map SBOX (xor(add_padding(P, k2), k1))) in
BUF[0 .. CT_LEN]; KEYS, PRBG_STATE, PT_LEN and the nonce are unchanged. That `ACC`, `TK1`, `TK2` and `WPRBG` still hold what
the command put there is the model's choice (DESIGN CHOICE, log entry 4): the spec leaves them any value between commands (R33,
R39, R41). -/
def Obligations.EncryptNProducesTheCiphertext : Prop :=
  ∀ (imm : Byte) (s : State) (n fl : Nat),
    s.params.wf = true → n = s.ptLen.toNat → fl = (16 - (8 + n) % 16) % 16 →
    (8 + n > s.params.bufBytes → s.OnlyRaises 0x11 (exec (.encryptN imm) s)) ∧
    (8 + n ≤ s.params.bufBytes → s.nonceLen ≠ 16 → s.OnlyRaises 0x02 (exec (.encryptN imm) s)) ∧
    (8 + n ≤ s.params.bufBytes → s.nonceLen = 16 →
      ∃ t,
        exec (.encryptN imm) s = .next t ∧
        t = { s with
          pending := none, done := true, err := false, errcode := 0, epoch := t.epoch
          buf := t.buf, ctLen := t.ctLen, wprbg := t.wprbg, acc := s.specAcc 16, tk1 := s.specK1, tk2 := s.specK2 } ∧
        t.ctLen.toNat = 8 + n + fl ∧
        t.wprbg.toNat = specLcg^[fl] s.specK2.toNat ∧
        (∀ a < 8 + n + fl, t.peek a = some (sboxAt s.params (s.specPadded s.specK2 n (specPermute a) ^^^ s.specK1))) ∧
        (∀ a ≥ 8 + n + fl, t.peek a = s.peek a))

/-- R193 with R192: ENCRYPT checks the capacity, then draws a nonce and produces the ciphertext. That `ACC`, `TK1`, `TK2` and
`WPRBG` still hold what the command put there is the model's choice (DESIGN CHOICE, log entry 4): the spec leaves them any value
between commands (R33, R39, R41). -/
def Obligations.EncryptDrawsANonceAndEncrypts : Prop :=
  ∀ (imm : Byte) (s : State) (n fl : Nat),
    s.params.wf = true → n = s.ptLen.toNat → fl = (16 - (8 + n) % 16) % 16 →
    (8 + n > s.params.bufBytes → s.OnlyRaises 0x11 (exec (.encrypt imm) s)) ∧
    (8 + n ≤ s.params.bufBytes → 16 ≤ s.rng.length →
      ∃ t,
        exec (.encrypt imm) s = .next t ∧
        t = { s with
          pending := none, done := true, err := false, errcode := 0, epoch := t.epoch
          nonce := t.nonce, nonceLen := 16, rng := s.rng.drop 16
          buf := t.buf, ctLen := t.ctLen, wprbg := t.wprbg, acc := t.specAcc 16, tk1 := t.specK1, tk2 := t.specK2 } ∧
        (∀ i : Fin 16, s.rng[i.val]? = some t.nonce[i]) ∧
        t.ctLen.toNat = 8 + n + fl ∧
        t.wprbg.toNat = specLcg^[fl] t.specK2.toNat ∧
        (∀ a < 8 + n + fl, t.peek a = some (sboxAt s.params (s.specPadded t.specK2 n (specPermute a) ^^^ t.specK1))) ∧
        (∀ a ≥ 8 + n + fl, t.peek a = s.peek a))

/-- R196 with R195: DECRYPT's checks in their order, then the inverse layers. `d a` is byte `a` after them. At `CT_LEN` = 0
the command ends with MalformedLength (0x03) and the buffer as it was. When the declared length fits, PT_LEN takes it; when it
does not, the command ends with LengthOverflow (0x05), PT_LEN is unchanged and the buffer holds the inverse-transformed
bytes. That `ACC`, `TK1` and `TK2` still hold what the command put there is the model's choice (DESIGN CHOICE, log entry 4): the
spec leaves them any value between commands (R39, R41). -/
def Obligations.DecryptChecksAndInvertsTheLayers : Prop :=
  ∀ (imm : Byte) (s : State) (m : Nat),
    s.params.wf = true → m = s.ctLen.toNat →
    (m > s.params.bufBytes → s.OnlyRaises 0x11 (exec (.decrypt imm) s)) ∧
    (m ≤ s.params.bufBytes → m % 16 ≠ 0 → s.OnlyRaises 0x01 (exec (.decrypt imm) s)) ∧
    (m ≤ s.params.bufBytes → m % 16 = 0 → s.nonceLen ≠ 16 → s.OnlyRaises 0x02 (exec (.decrypt imm) s)) ∧
    (m ≤ s.params.bufBytes → m = 0 → s.nonceLen = 16 →
      ({ s with acc := s.specAcc 16, tk1 := s.specK1, tk2 := s.specK2 } : State).OnlyRaises 0x03 (exec (.decrypt imm) s)) ∧
    (m ≤ s.params.bufBytes → m % 16 = 0 → m ≠ 0 → s.nonceLen = 16 →
      ∃ (t : State) (d : Nat → Byte),
        exec (.decrypt imm) s = .next t ∧
        (∀ a < m, sboxAt s.params (d a ^^^ s.specK1) = s.bufByte (specPermute a)) ∧
        (∀ a < m, t.peek a = some (d a)) ∧ (∀ a ≥ m, t.peek a = s.peek a) ∧
        (8 + specFromBe64 d ≤ m →
          t = { s with
            pending := none, done := true, err := false, errcode := 0, epoch := t.epoch
            ptLen := t.ptLen, buf := t.buf, acc := s.specAcc 16, tk1 := s.specK1, tk2 := s.specK2 } ∧
          t.ptLen.toNat = specFromBe64 d) ∧
        (8 + specFromBe64 d > m →
          t = { s with
            pending := none, done := true, err := true, errcode := 0x05, epoch := t.epoch
            buf := t.buf, acc := s.specAcc 16, tk1 := s.specK1, tk2 := s.specK2 }))

/-- R197: DECRYPT never raises BadBlockAlignment (0x04), and MalformedLength (0x03) only when `CT_LEN` = 0; REMOVE_PADDING
raises both. -/
def Obligations.DecryptNeverRaisesBadBlockAlignment : Prop :=
  (∀ (imm : Byte) (s t : State), exec (.decrypt imm) s = .next t →
    t.errcode ≠ 0x04 ∧ (t.errcode = 0x03 → s.ctLen = 0)) ∧
  (∀ code ∈ [(0x03 : Byte), 0x04], ∃ (imm : Byte) (s t : State), exec (.removePadding imm) s = .next t ∧ t.errcode = code)

/-- R198: ENCRYPT_N and then DECRYPT, under the same nonce or any other 16-byte nonce, recovers the payload and leaves
add_padding(P, k2) in the buffer; the same holds for ENCRYPT followed by DECRYPT. -/
def Obligations.EncryptThenDecryptRecoversThePayload : Prop :=
  ∀ (imm imm' : Byte) (s : State),
    s.params.wf = true → 8 + s.ptLen.toNat ≤ s.params.bufBytes →
    (∀ nonce : Vector Byte 16, s.nonceLen = 16 →
      ∃ t u,
        exec (.encryptN imm) s = .next t ∧ exec (.decrypt imm') { t with nonce := nonce } = .next u ∧
        u.err = false ∧ u.ptLen = s.ptLen ∧
        (∀ i < s.ptLen.toNat, u.peek (8 + i) = some (s.bufByte (8 + i))) ∧
        (∀ a < u.ctLen.toNat, u.peek a = some (s.specPadded s.specK2 s.ptLen.toNat a))) ∧
    (16 ≤ s.rng.length →
      ∃ u,
        runCommands [.encrypt imm, .decrypt imm'] s = .next u ∧
        u.err = false ∧ u.ptLen = s.ptLen ∧
        (∀ i < s.ptLen.toNat, u.peek (8 + i) = some (s.bufByte (8 + i))) ∧
        (∀ a < u.ctLen.toNat, u.peek a = some (s.specPadded u.specK2 s.ptLen.toNat a)))

/-- R124, R193: the ciphertext does not depend on the nonce, drawn or written: ENCRYPT_N under two nonces, and ENCRYPT with
any random source that supplies, leave the same buffer and the same length. -/
def Obligations.CiphertextDoesNotDependOnTheNonce : Prop :=
  ∀ (imm imm' : Byte) (nonce : Vector Byte 16) (rng : List Byte) (s : State),
    8 + s.ptLen.toNat ≤ s.params.bufBytes → s.nonceLen = 16 → 16 ≤ rng.length →
    ∃ t u v,
      exec (.encryptN imm) s = .next t ∧ exec (.encryptN imm) { s with nonce := nonce } = .next u ∧
      exec (.encrypt imm') { s with rng := rng } = .next v ∧
      u.buf = t.buf ∧ u.ctLen = t.ctLen ∧ v.buf = t.buf ∧ v.ctLen = t.ctLen

/-- R257: DERIVE_KEYS, ADD_PADDING, XOR_BUF, SUBSTITUTE and PERMUTE, in that order, give the same buffer and length as
ENCRYPT_N, for a payload that has been written. -/
def Obligations.LayersByHandEncryptAlike : Prop :=
  ∀ (imm : Byte) (s : State),
    s.params.wf = true → 8 + s.ptLen.toNat ≤ s.params.bufBytes → s.nonceLen = 16 →
    (∀ i < s.ptLen.toNat, s.peek (8 + i) ≠ none) →
    ∃ t u,
      exec (.encryptN imm) s = .next t ∧
      runCommands [.deriveKeys imm, .addPadding imm, .xorBuf imm, .substitute imm, .permute imm] s = .next u ∧
      u.ctLen = t.ctLen ∧ ∀ a, u.peek a = t.peek a

/-- R257: DERIVE_KEYS, INV_PERMUTE, INV_SUBSTITUTE, XOR_BUF and REMOVE_PADDING, in that order, give the same buffer, length
and error as DECRYPT, for an aligned ciphertext that has been written. -/
def Obligations.LayersByHandDecryptAlike : Prop :=
  ∀ (imm : Byte) (s : State),
    s.ctLen.toNat ≤ s.params.bufBytes → s.ctLen.toNat % 16 = 0 → s.nonceLen = 16 →
    (∀ a < s.ctLen.toNat, s.peek a ≠ none) →
    ∃ t u,
      exec (.decrypt imm) s = .next t ∧
      runCommands [.deriveKeys imm, .invPermute imm, .invSubstitute imm, .xorBuf imm, .removePadding imm] s = .next u ∧
      u.ptLen = t.ptLen ∧ u.err = t.err ∧ u.errcode = t.errcode ∧ ∀ a, u.peek a = t.peek a
end

