-- ==== Sys2Proof/Laws/State.lean ====
section
/-! SUPPORT. One lemma per field per update of the state: what each named update leaves in each field. -/

namespace Sys2Proof.Machine

/-- Two states with the same fields are equal. -/
theorem State.ext_fields {s t : State} (h0 : t.params = s.params) (h1 : t.pending = s.pending) (h2 : t.done = s.done) (h3 : t.err = s.err)
    (h4 : t.errcode = s.errcode) (h5 : t.lastOp = s.lastOp) (h6 : t.ptLen = s.ptLen) (h7 : t.ctLen = s.ctLen)
    (h8 : t.nonceLen = s.nonceLen) (h9 : t.keyK1 = s.keyK1) (h10 : t.keyK2 = s.keyK2) (h11 : t.prbgState = s.prbgState)
    (h12 : t.prbgOut = s.prbgOut) (h13 : t.result = s.result) (h14 : t.nonce = s.nonce) (h15 : t.buf = s.buf)
    (h16 : t.wprbg = s.wprbg) (h17 : t.acc = s.acc) (h18 : t.tk1 = s.tk1) (h19 : t.tk2 = s.tk2)
    (h20 : t.inputs = s.inputs) (h21 : t.rng = s.rng) (h22 : t.rdata = s.rdata) (h23 : t.epoch = s.epoch) : t = s := by
  cases s
  cases t
  simp_all

/-! ### accept -/

@[simp] theorem State.accept_params (s : State) (w : Word) : (s.accept w).params = s.params := rfl
@[simp] theorem State.accept_pending (s : State) (w : Word) : (s.accept w).pending = some w := rfl
@[simp] theorem State.accept_done (s : State) (w : Word) : (s.accept w).done = false := rfl
@[simp] theorem State.accept_err (s : State) (w : Word) : (s.accept w).err = false := rfl
@[simp] theorem State.accept_errcode (s : State) (w : Word) : (s.accept w).errcode = 0 := rfl
@[simp] theorem State.accept_lastOp (s : State) (w : Word) : (s.accept w).lastOp = cmdOpcode w := rfl
@[simp] theorem State.accept_ptLen (s : State) (w : Word) : (s.accept w).ptLen = s.ptLen := rfl
@[simp] theorem State.accept_ctLen (s : State) (w : Word) : (s.accept w).ctLen = s.ctLen := rfl
@[simp] theorem State.accept_nonceLen (s : State) (w : Word) : (s.accept w).nonceLen = s.nonceLen := rfl
@[simp] theorem State.accept_keyK1 (s : State) (w : Word) : (s.accept w).keyK1 = s.keyK1 := rfl
@[simp] theorem State.accept_keyK2 (s : State) (w : Word) : (s.accept w).keyK2 = s.keyK2 := rfl
@[simp] theorem State.accept_prbgState (s : State) (w : Word) : (s.accept w).prbgState = s.prbgState := rfl
@[simp] theorem State.accept_prbgOut (s : State) (w : Word) : (s.accept w).prbgOut = s.prbgOut := rfl
@[simp] theorem State.accept_result (s : State) (w : Word) : (s.accept w).result = s.result := rfl
@[simp] theorem State.accept_nonce (s : State) (w : Word) : (s.accept w).nonce = s.nonce := rfl
@[simp] theorem State.accept_buf (s : State) (w : Word) : (s.accept w).buf = s.buf := rfl
@[simp] theorem State.accept_wprbg (s : State) (w : Word) : (s.accept w).wprbg = s.wprbg := rfl
@[simp] theorem State.accept_acc (s : State) (w : Word) : (s.accept w).acc = s.acc := rfl
@[simp] theorem State.accept_tk1 (s : State) (w : Word) : (s.accept w).tk1 = s.tk1 := rfl
@[simp] theorem State.accept_tk2 (s : State) (w : Word) : (s.accept w).tk2 = s.tk2 := rfl
@[simp] theorem State.accept_inputs (s : State) (w : Word) : (s.accept w).inputs = s.inputs := rfl
@[simp] theorem State.accept_rng (s : State) (w : Word) : (s.accept w).rng = s.rng := rfl
@[simp] theorem State.accept_rdata (s : State) (w : Word) : (s.accept w).rdata = s.rdata := rfl
@[simp] theorem State.accept_epoch (s : State) (w : Word) : (s.accept w).epoch = s.epoch := rfl

/-! ### complete -/

@[simp] theorem State.complete_params (s : State) : s.complete.params = s.params := rfl
@[simp] theorem State.complete_pending (s : State) : s.complete.pending = none := rfl
@[simp] theorem State.complete_done (s : State) : s.complete.done = true := rfl
@[simp] theorem State.complete_err (s : State) : s.complete.err = false := rfl
@[simp] theorem State.complete_errcode (s : State) : s.complete.errcode = 0 := rfl
@[simp] theorem State.complete_lastOp (s : State) : s.complete.lastOp = s.lastOp := rfl
@[simp] theorem State.complete_ptLen (s : State) : s.complete.ptLen = s.ptLen := rfl
@[simp] theorem State.complete_ctLen (s : State) : s.complete.ctLen = s.ctLen := rfl
@[simp] theorem State.complete_nonceLen (s : State) : s.complete.nonceLen = s.nonceLen := rfl
@[simp] theorem State.complete_keyK1 (s : State) : s.complete.keyK1 = s.keyK1 := rfl
@[simp] theorem State.complete_keyK2 (s : State) : s.complete.keyK2 = s.keyK2 := rfl
@[simp] theorem State.complete_prbgState (s : State) : s.complete.prbgState = s.prbgState := rfl
@[simp] theorem State.complete_prbgOut (s : State) : s.complete.prbgOut = s.prbgOut := rfl
@[simp] theorem State.complete_result (s : State) : s.complete.result = s.result := rfl
@[simp] theorem State.complete_nonce (s : State) : s.complete.nonce = s.nonce := rfl
@[simp] theorem State.complete_buf (s : State) : s.complete.buf = s.buf := rfl
@[simp] theorem State.complete_wprbg (s : State) : s.complete.wprbg = s.wprbg := rfl
@[simp] theorem State.complete_acc (s : State) : s.complete.acc = s.acc := rfl
@[simp] theorem State.complete_tk1 (s : State) : s.complete.tk1 = s.tk1 := rfl
@[simp] theorem State.complete_tk2 (s : State) : s.complete.tk2 = s.tk2 := rfl
@[simp] theorem State.complete_inputs (s : State) : s.complete.inputs = s.inputs := rfl
@[simp] theorem State.complete_rng (s : State) : s.complete.rng = s.rng := rfl
@[simp] theorem State.complete_rdata (s : State) : s.complete.rdata = s.rdata := rfl
@[simp] theorem State.complete_epoch (s : State) : s.complete.epoch = s.epoch + 1 := rfl

/-! ### raise -/

@[simp] theorem State.raise_params (s : State) (e : Error) : (s.raise e).params = s.params := rfl
@[simp] theorem State.raise_pending (s : State) (e : Error) : (s.raise e).pending = none := rfl
@[simp] theorem State.raise_done (s : State) (e : Error) : (s.raise e).done = true := rfl
@[simp] theorem State.raise_err (s : State) (e : Error) : (s.raise e).err = true := rfl
@[simp] theorem State.raise_errcode (s : State) (e : Error) : (s.raise e).errcode = errorCode e := rfl
@[simp] theorem State.raise_lastOp (s : State) (e : Error) : (s.raise e).lastOp = s.lastOp := rfl
@[simp] theorem State.raise_ptLen (s : State) (e : Error) : (s.raise e).ptLen = s.ptLen := rfl
@[simp] theorem State.raise_ctLen (s : State) (e : Error) : (s.raise e).ctLen = s.ctLen := rfl
@[simp] theorem State.raise_nonceLen (s : State) (e : Error) : (s.raise e).nonceLen = s.nonceLen := rfl
@[simp] theorem State.raise_keyK1 (s : State) (e : Error) : (s.raise e).keyK1 = s.keyK1 := rfl
@[simp] theorem State.raise_keyK2 (s : State) (e : Error) : (s.raise e).keyK2 = s.keyK2 := rfl
@[simp] theorem State.raise_prbgState (s : State) (e : Error) : (s.raise e).prbgState = s.prbgState := rfl
@[simp] theorem State.raise_prbgOut (s : State) (e : Error) : (s.raise e).prbgOut = s.prbgOut := rfl
@[simp] theorem State.raise_result (s : State) (e : Error) : (s.raise e).result = s.result := rfl
@[simp] theorem State.raise_nonce (s : State) (e : Error) : (s.raise e).nonce = s.nonce := rfl
@[simp] theorem State.raise_buf (s : State) (e : Error) : (s.raise e).buf = s.buf := rfl
@[simp] theorem State.raise_wprbg (s : State) (e : Error) : (s.raise e).wprbg = s.wprbg := rfl
@[simp] theorem State.raise_acc (s : State) (e : Error) : (s.raise e).acc = s.acc := rfl
@[simp] theorem State.raise_tk1 (s : State) (e : Error) : (s.raise e).tk1 = s.tk1 := rfl
@[simp] theorem State.raise_tk2 (s : State) (e : Error) : (s.raise e).tk2 = s.tk2 := rfl
@[simp] theorem State.raise_inputs (s : State) (e : Error) : (s.raise e).inputs = s.inputs := rfl
@[simp] theorem State.raise_rng (s : State) (e : Error) : (s.raise e).rng = s.rng := rfl
@[simp] theorem State.raise_rdata (s : State) (e : Error) : (s.raise e).rdata = s.rdata := rfl
@[simp] theorem State.raise_epoch (s : State) (e : Error) : (s.raise e).epoch = s.epoch + 1 := rfl

/-! ### drawNonce -/

@[simp] theorem State.drawNonce_params (s : State) : s.drawNonce.params = s.params := rfl
@[simp] theorem State.drawNonce_pending (s : State) : s.drawNonce.pending = s.pending := rfl
@[simp] theorem State.drawNonce_done (s : State) : s.drawNonce.done = s.done := rfl
@[simp] theorem State.drawNonce_err (s : State) : s.drawNonce.err = s.err := rfl
@[simp] theorem State.drawNonce_errcode (s : State) : s.drawNonce.errcode = s.errcode := rfl
@[simp] theorem State.drawNonce_lastOp (s : State) : s.drawNonce.lastOp = s.lastOp := rfl
@[simp] theorem State.drawNonce_ptLen (s : State) : s.drawNonce.ptLen = s.ptLen := rfl
@[simp] theorem State.drawNonce_ctLen (s : State) : s.drawNonce.ctLen = s.ctLen := rfl
@[simp] theorem State.drawNonce_nonceLen (s : State) : s.drawNonce.nonceLen = 16 := rfl
@[simp] theorem State.drawNonce_keyK1 (s : State) : s.drawNonce.keyK1 = s.keyK1 := rfl
@[simp] theorem State.drawNonce_keyK2 (s : State) : s.drawNonce.keyK2 = s.keyK2 := rfl
@[simp] theorem State.drawNonce_prbgState (s : State) : s.drawNonce.prbgState = s.prbgState := rfl
@[simp] theorem State.drawNonce_prbgOut (s : State) : s.drawNonce.prbgOut = s.prbgOut := rfl
@[simp] theorem State.drawNonce_result (s : State) : s.drawNonce.result = s.result := rfl
@[simp] theorem State.drawNonce_nonce (s : State) : s.drawNonce.nonce = Vector.ofFn fun i => s.rng.getD i.val 0 := rfl
@[simp] theorem State.drawNonce_buf (s : State) : s.drawNonce.buf = s.buf := rfl
@[simp] theorem State.drawNonce_wprbg (s : State) : s.drawNonce.wprbg = s.wprbg := rfl
@[simp] theorem State.drawNonce_acc (s : State) : s.drawNonce.acc = s.acc := rfl
@[simp] theorem State.drawNonce_tk1 (s : State) : s.drawNonce.tk1 = s.tk1 := rfl
@[simp] theorem State.drawNonce_tk2 (s : State) : s.drawNonce.tk2 = s.tk2 := rfl
@[simp] theorem State.drawNonce_inputs (s : State) : s.drawNonce.inputs = s.inputs := rfl
@[simp] theorem State.drawNonce_rng (s : State) : s.drawNonce.rng = s.rng.drop 16 := rfl
@[simp] theorem State.drawNonce_rdata (s : State) : s.drawNonce.rdata = s.rdata := rfl
@[simp] theorem State.drawNonce_epoch (s : State) : s.drawNonce.epoch = s.epoch := rfl

/-! ### memWrite -/

@[simp] theorem State.memWrite_params (s : State) (a : Nat) (bs : List Byte) : (s.memWrite a bs).params = s.params := rfl
@[simp] theorem State.memWrite_pending (s : State) (a : Nat) (bs : List Byte) : (s.memWrite a bs).pending = s.pending := rfl
@[simp] theorem State.memWrite_done (s : State) (a : Nat) (bs : List Byte) : (s.memWrite a bs).done = s.done := rfl
@[simp] theorem State.memWrite_err (s : State) (a : Nat) (bs : List Byte) : (s.memWrite a bs).err = s.err := rfl
@[simp] theorem State.memWrite_errcode (s : State) (a : Nat) (bs : List Byte) : (s.memWrite a bs).errcode = s.errcode := rfl
@[simp] theorem State.memWrite_lastOp (s : State) (a : Nat) (bs : List Byte) : (s.memWrite a bs).lastOp = s.lastOp := rfl
@[simp] theorem State.memWrite_ptLen (s : State) (a : Nat) (bs : List Byte) : (s.memWrite a bs).ptLen = s.ptLen := rfl
@[simp] theorem State.memWrite_ctLen (s : State) (a : Nat) (bs : List Byte) : (s.memWrite a bs).ctLen = s.ctLen := rfl
@[simp] theorem State.memWrite_nonceLen (s : State) (a : Nat) (bs : List Byte) : (s.memWrite a bs).nonceLen = s.nonceLen := rfl
@[simp] theorem State.memWrite_keyK1 (s : State) (a : Nat) (bs : List Byte) : (s.memWrite a bs).keyK1 = s.keyK1 := rfl
@[simp] theorem State.memWrite_keyK2 (s : State) (a : Nat) (bs : List Byte) : (s.memWrite a bs).keyK2 = s.keyK2 := rfl
@[simp] theorem State.memWrite_prbgState (s : State) (a : Nat) (bs : List Byte) : (s.memWrite a bs).prbgState = s.prbgState := rfl
@[simp] theorem State.memWrite_prbgOut (s : State) (a : Nat) (bs : List Byte) : (s.memWrite a bs).prbgOut = s.prbgOut := rfl
@[simp] theorem State.memWrite_result (s : State) (a : Nat) (bs : List Byte) : (s.memWrite a bs).result = s.result := rfl
@[simp] theorem State.memWrite_nonce (s : State) (a : Nat) (bs : List Byte) : (s.memWrite a bs).nonce = s.nonce := rfl
@[simp] theorem State.memWrite_buf (s : State) (a : Nat) (bs : List Byte) : (s.memWrite a bs).buf = s.buf.writeBytes a bs := rfl
@[simp] theorem State.memWrite_wprbg (s : State) (a : Nat) (bs : List Byte) : (s.memWrite a bs).wprbg = s.wprbg := rfl
@[simp] theorem State.memWrite_acc (s : State) (a : Nat) (bs : List Byte) : (s.memWrite a bs).acc = s.acc := rfl
@[simp] theorem State.memWrite_tk1 (s : State) (a : Nat) (bs : List Byte) : (s.memWrite a bs).tk1 = s.tk1 := rfl
@[simp] theorem State.memWrite_tk2 (s : State) (a : Nat) (bs : List Byte) : (s.memWrite a bs).tk2 = s.tk2 := rfl
@[simp] theorem State.memWrite_inputs (s : State) (a : Nat) (bs : List Byte) : (s.memWrite a bs).inputs = s.inputs := rfl
@[simp] theorem State.memWrite_rng (s : State) (a : Nat) (bs : List Byte) : (s.memWrite a bs).rng = s.rng := rfl
@[simp] theorem State.memWrite_rdata (s : State) (a : Nat) (bs : List Byte) : (s.memWrite a bs).rdata = s.rdata := rfl
@[simp] theorem State.memWrite_epoch (s : State) (a : Nat) (bs : List Byte) : (s.memWrite a bs).epoch = s.epoch := rfl

/-! ### padBuffer -/

@[simp] theorem State.padBuffer_params (s : State) (k2 : Byte) (n : Nat) : (s.padBuffer k2 n).params = s.params := by simp only [State.padBuffer, State.memWrite_params]
@[simp] theorem State.padBuffer_pending (s : State) (k2 : Byte) (n : Nat) : (s.padBuffer k2 n).pending = s.pending := by simp only [State.padBuffer, State.memWrite_pending]
@[simp] theorem State.padBuffer_done (s : State) (k2 : Byte) (n : Nat) : (s.padBuffer k2 n).done = s.done := by simp only [State.padBuffer, State.memWrite_done]
@[simp] theorem State.padBuffer_err (s : State) (k2 : Byte) (n : Nat) : (s.padBuffer k2 n).err = s.err := by simp only [State.padBuffer, State.memWrite_err]
@[simp] theorem State.padBuffer_errcode (s : State) (k2 : Byte) (n : Nat) : (s.padBuffer k2 n).errcode = s.errcode := by simp only [State.padBuffer, State.memWrite_errcode]
@[simp] theorem State.padBuffer_lastOp (s : State) (k2 : Byte) (n : Nat) : (s.padBuffer k2 n).lastOp = s.lastOp := by simp only [State.padBuffer, State.memWrite_lastOp]
@[simp] theorem State.padBuffer_ptLen (s : State) (k2 : Byte) (n : Nat) : (s.padBuffer k2 n).ptLen = s.ptLen := by simp only [State.padBuffer, State.memWrite_ptLen]
@[simp] theorem State.padBuffer_ctLen (s : State) (k2 : Byte) (n : Nat) : (s.padBuffer k2 n).ctLen = s.ctLen := by simp only [State.padBuffer, State.memWrite_ctLen]
@[simp] theorem State.padBuffer_nonceLen (s : State) (k2 : Byte) (n : Nat) : (s.padBuffer k2 n).nonceLen = s.nonceLen := by simp only [State.padBuffer, State.memWrite_nonceLen]
@[simp] theorem State.padBuffer_keyK1 (s : State) (k2 : Byte) (n : Nat) : (s.padBuffer k2 n).keyK1 = s.keyK1 := by simp only [State.padBuffer, State.memWrite_keyK1]
@[simp] theorem State.padBuffer_keyK2 (s : State) (k2 : Byte) (n : Nat) : (s.padBuffer k2 n).keyK2 = s.keyK2 := by simp only [State.padBuffer, State.memWrite_keyK2]
@[simp] theorem State.padBuffer_prbgState (s : State) (k2 : Byte) (n : Nat) : (s.padBuffer k2 n).prbgState = s.prbgState := by simp only [State.padBuffer, State.memWrite_prbgState]
@[simp] theorem State.padBuffer_prbgOut (s : State) (k2 : Byte) (n : Nat) : (s.padBuffer k2 n).prbgOut = s.prbgOut := by simp only [State.padBuffer, State.memWrite_prbgOut]
@[simp] theorem State.padBuffer_result (s : State) (k2 : Byte) (n : Nat) : (s.padBuffer k2 n).result = s.result := by simp only [State.padBuffer, State.memWrite_result]
@[simp] theorem State.padBuffer_nonce (s : State) (k2 : Byte) (n : Nat) : (s.padBuffer k2 n).nonce = s.nonce := by simp only [State.padBuffer, State.memWrite_nonce]
@[simp] theorem State.padBuffer_buf (s : State) (k2 : Byte) (n : Nat) : (s.padBuffer k2 n).buf = (s.buf.writeBytes 0 (be64 n)).writeBytes (8 + n) (prbgBytes k2 (fillerLen n)).1 := rfl
@[simp] theorem State.padBuffer_wprbg (s : State) (k2 : Byte) (n : Nat) : (s.padBuffer k2 n).wprbg = (prbgBytes k2 (fillerLen n)).2 := rfl
@[simp] theorem State.padBuffer_acc (s : State) (k2 : Byte) (n : Nat) : (s.padBuffer k2 n).acc = s.acc := by simp only [State.padBuffer, State.memWrite_acc]
@[simp] theorem State.padBuffer_tk1 (s : State) (k2 : Byte) (n : Nat) : (s.padBuffer k2 n).tk1 = s.tk1 := by simp only [State.padBuffer, State.memWrite_tk1]
@[simp] theorem State.padBuffer_tk2 (s : State) (k2 : Byte) (n : Nat) : (s.padBuffer k2 n).tk2 = s.tk2 := by simp only [State.padBuffer, State.memWrite_tk2]
@[simp] theorem State.padBuffer_inputs (s : State) (k2 : Byte) (n : Nat) : (s.padBuffer k2 n).inputs = s.inputs := by simp only [State.padBuffer, State.memWrite_inputs]
@[simp] theorem State.padBuffer_rng (s : State) (k2 : Byte) (n : Nat) : (s.padBuffer k2 n).rng = s.rng := by simp only [State.padBuffer, State.memWrite_rng]
@[simp] theorem State.padBuffer_rdata (s : State) (k2 : Byte) (n : Nat) : (s.padBuffer k2 n).rdata = s.rdata := by simp only [State.padBuffer, State.memWrite_rdata]
@[simp] theorem State.padBuffer_epoch (s : State) (k2 : Byte) (n : Nat) : (s.padBuffer k2 n).epoch = s.epoch := by simp only [State.padBuffer, State.memWrite_epoch]

/-! ### xorLayer -/

@[simp] theorem State.xorLayer_params (s : State) (k : Byte) (m : Nat) : (s.xorLayer k m).params = s.params := rfl
@[simp] theorem State.xorLayer_pending (s : State) (k : Byte) (m : Nat) : (s.xorLayer k m).pending = s.pending := rfl
@[simp] theorem State.xorLayer_done (s : State) (k : Byte) (m : Nat) : (s.xorLayer k m).done = s.done := rfl
@[simp] theorem State.xorLayer_err (s : State) (k : Byte) (m : Nat) : (s.xorLayer k m).err = s.err := rfl
@[simp] theorem State.xorLayer_errcode (s : State) (k : Byte) (m : Nat) : (s.xorLayer k m).errcode = s.errcode := rfl
@[simp] theorem State.xorLayer_lastOp (s : State) (k : Byte) (m : Nat) : (s.xorLayer k m).lastOp = s.lastOp := rfl
@[simp] theorem State.xorLayer_ptLen (s : State) (k : Byte) (m : Nat) : (s.xorLayer k m).ptLen = s.ptLen := rfl
@[simp] theorem State.xorLayer_ctLen (s : State) (k : Byte) (m : Nat) : (s.xorLayer k m).ctLen = s.ctLen := rfl
@[simp] theorem State.xorLayer_nonceLen (s : State) (k : Byte) (m : Nat) : (s.xorLayer k m).nonceLen = s.nonceLen := rfl
@[simp] theorem State.xorLayer_keyK1 (s : State) (k : Byte) (m : Nat) : (s.xorLayer k m).keyK1 = s.keyK1 := rfl
@[simp] theorem State.xorLayer_keyK2 (s : State) (k : Byte) (m : Nat) : (s.xorLayer k m).keyK2 = s.keyK2 := rfl
@[simp] theorem State.xorLayer_prbgState (s : State) (k : Byte) (m : Nat) : (s.xorLayer k m).prbgState = s.prbgState := rfl
@[simp] theorem State.xorLayer_prbgOut (s : State) (k : Byte) (m : Nat) : (s.xorLayer k m).prbgOut = s.prbgOut := rfl
@[simp] theorem State.xorLayer_result (s : State) (k : Byte) (m : Nat) : (s.xorLayer k m).result = s.result := rfl
@[simp] theorem State.xorLayer_nonce (s : State) (k : Byte) (m : Nat) : (s.xorLayer k m).nonce = s.nonce := rfl
@[simp] theorem State.xorLayer_buf (s : State) (k : Byte) (m : Nat) : (s.xorLayer k m).buf = s.buf.mapBytes (Config.freeByte s.epoch) (· ^^^ k) m := rfl
@[simp] theorem State.xorLayer_wprbg (s : State) (k : Byte) (m : Nat) : (s.xorLayer k m).wprbg = s.wprbg := rfl
@[simp] theorem State.xorLayer_acc (s : State) (k : Byte) (m : Nat) : (s.xorLayer k m).acc = s.acc := rfl
@[simp] theorem State.xorLayer_tk1 (s : State) (k : Byte) (m : Nat) : (s.xorLayer k m).tk1 = s.tk1 := rfl
@[simp] theorem State.xorLayer_tk2 (s : State) (k : Byte) (m : Nat) : (s.xorLayer k m).tk2 = s.tk2 := rfl
@[simp] theorem State.xorLayer_inputs (s : State) (k : Byte) (m : Nat) : (s.xorLayer k m).inputs = s.inputs := rfl
@[simp] theorem State.xorLayer_rng (s : State) (k : Byte) (m : Nat) : (s.xorLayer k m).rng = s.rng := rfl
@[simp] theorem State.xorLayer_rdata (s : State) (k : Byte) (m : Nat) : (s.xorLayer k m).rdata = s.rdata := rfl
@[simp] theorem State.xorLayer_epoch (s : State) (k : Byte) (m : Nat) : (s.xorLayer k m).epoch = s.epoch := rfl

/-! ### substLayer -/

@[simp] theorem State.substLayer_params (s : State) (m : Nat) : (s.substLayer m).params = s.params := rfl
@[simp] theorem State.substLayer_pending (s : State) (m : Nat) : (s.substLayer m).pending = s.pending := rfl
@[simp] theorem State.substLayer_done (s : State) (m : Nat) : (s.substLayer m).done = s.done := rfl
@[simp] theorem State.substLayer_err (s : State) (m : Nat) : (s.substLayer m).err = s.err := rfl
@[simp] theorem State.substLayer_errcode (s : State) (m : Nat) : (s.substLayer m).errcode = s.errcode := rfl
@[simp] theorem State.substLayer_lastOp (s : State) (m : Nat) : (s.substLayer m).lastOp = s.lastOp := rfl
@[simp] theorem State.substLayer_ptLen (s : State) (m : Nat) : (s.substLayer m).ptLen = s.ptLen := rfl
@[simp] theorem State.substLayer_ctLen (s : State) (m : Nat) : (s.substLayer m).ctLen = s.ctLen := rfl
@[simp] theorem State.substLayer_nonceLen (s : State) (m : Nat) : (s.substLayer m).nonceLen = s.nonceLen := rfl
@[simp] theorem State.substLayer_keyK1 (s : State) (m : Nat) : (s.substLayer m).keyK1 = s.keyK1 := rfl
@[simp] theorem State.substLayer_keyK2 (s : State) (m : Nat) : (s.substLayer m).keyK2 = s.keyK2 := rfl
@[simp] theorem State.substLayer_prbgState (s : State) (m : Nat) : (s.substLayer m).prbgState = s.prbgState := rfl
@[simp] theorem State.substLayer_prbgOut (s : State) (m : Nat) : (s.substLayer m).prbgOut = s.prbgOut := rfl
@[simp] theorem State.substLayer_result (s : State) (m : Nat) : (s.substLayer m).result = s.result := rfl
@[simp] theorem State.substLayer_nonce (s : State) (m : Nat) : (s.substLayer m).nonce = s.nonce := rfl
@[simp] theorem State.substLayer_buf (s : State) (m : Nat) : (s.substLayer m).buf = s.buf.mapBytes (Config.freeByte s.epoch) (sboxAt s.params) m := rfl
@[simp] theorem State.substLayer_wprbg (s : State) (m : Nat) : (s.substLayer m).wprbg = s.wprbg := rfl
@[simp] theorem State.substLayer_acc (s : State) (m : Nat) : (s.substLayer m).acc = s.acc := rfl
@[simp] theorem State.substLayer_tk1 (s : State) (m : Nat) : (s.substLayer m).tk1 = s.tk1 := rfl
@[simp] theorem State.substLayer_tk2 (s : State) (m : Nat) : (s.substLayer m).tk2 = s.tk2 := rfl
@[simp] theorem State.substLayer_inputs (s : State) (m : Nat) : (s.substLayer m).inputs = s.inputs := rfl
@[simp] theorem State.substLayer_rng (s : State) (m : Nat) : (s.substLayer m).rng = s.rng := rfl
@[simp] theorem State.substLayer_rdata (s : State) (m : Nat) : (s.substLayer m).rdata = s.rdata := rfl
@[simp] theorem State.substLayer_epoch (s : State) (m : Nat) : (s.substLayer m).epoch = s.epoch := rfl

/-! ### invSubstLayer -/

@[simp] theorem State.invSubstLayer_params (s : State) (m : Nat) : (s.invSubstLayer m).params = s.params := rfl
@[simp] theorem State.invSubstLayer_pending (s : State) (m : Nat) : (s.invSubstLayer m).pending = s.pending := rfl
@[simp] theorem State.invSubstLayer_done (s : State) (m : Nat) : (s.invSubstLayer m).done = s.done := rfl
@[simp] theorem State.invSubstLayer_err (s : State) (m : Nat) : (s.invSubstLayer m).err = s.err := rfl
@[simp] theorem State.invSubstLayer_errcode (s : State) (m : Nat) : (s.invSubstLayer m).errcode = s.errcode := rfl
@[simp] theorem State.invSubstLayer_lastOp (s : State) (m : Nat) : (s.invSubstLayer m).lastOp = s.lastOp := rfl
@[simp] theorem State.invSubstLayer_ptLen (s : State) (m : Nat) : (s.invSubstLayer m).ptLen = s.ptLen := rfl
@[simp] theorem State.invSubstLayer_ctLen (s : State) (m : Nat) : (s.invSubstLayer m).ctLen = s.ctLen := rfl
@[simp] theorem State.invSubstLayer_nonceLen (s : State) (m : Nat) : (s.invSubstLayer m).nonceLen = s.nonceLen := rfl
@[simp] theorem State.invSubstLayer_keyK1 (s : State) (m : Nat) : (s.invSubstLayer m).keyK1 = s.keyK1 := rfl
@[simp] theorem State.invSubstLayer_keyK2 (s : State) (m : Nat) : (s.invSubstLayer m).keyK2 = s.keyK2 := rfl
@[simp] theorem State.invSubstLayer_prbgState (s : State) (m : Nat) : (s.invSubstLayer m).prbgState = s.prbgState := rfl
@[simp] theorem State.invSubstLayer_prbgOut (s : State) (m : Nat) : (s.invSubstLayer m).prbgOut = s.prbgOut := rfl
@[simp] theorem State.invSubstLayer_result (s : State) (m : Nat) : (s.invSubstLayer m).result = s.result := rfl
@[simp] theorem State.invSubstLayer_nonce (s : State) (m : Nat) : (s.invSubstLayer m).nonce = s.nonce := rfl
@[simp] theorem State.invSubstLayer_buf (s : State) (m : Nat) : (s.invSubstLayer m).buf = s.buf.mapBytes (Config.freeByte s.epoch) (invSboxAt s.params) m := rfl
@[simp] theorem State.invSubstLayer_wprbg (s : State) (m : Nat) : (s.invSubstLayer m).wprbg = s.wprbg := rfl
@[simp] theorem State.invSubstLayer_acc (s : State) (m : Nat) : (s.invSubstLayer m).acc = s.acc := rfl
@[simp] theorem State.invSubstLayer_tk1 (s : State) (m : Nat) : (s.invSubstLayer m).tk1 = s.tk1 := rfl
@[simp] theorem State.invSubstLayer_tk2 (s : State) (m : Nat) : (s.invSubstLayer m).tk2 = s.tk2 := rfl
@[simp] theorem State.invSubstLayer_inputs (s : State) (m : Nat) : (s.invSubstLayer m).inputs = s.inputs := rfl
@[simp] theorem State.invSubstLayer_rng (s : State) (m : Nat) : (s.invSubstLayer m).rng = s.rng := rfl
@[simp] theorem State.invSubstLayer_rdata (s : State) (m : Nat) : (s.invSubstLayer m).rdata = s.rdata := rfl
@[simp] theorem State.invSubstLayer_epoch (s : State) (m : Nat) : (s.invSubstLayer m).epoch = s.epoch := rfl

/-! ### permuteLayer -/

@[simp] theorem State.permuteLayer_params (s : State) (m : Nat) : (s.permuteLayer m).params = s.params := rfl
@[simp] theorem State.permuteLayer_pending (s : State) (m : Nat) : (s.permuteLayer m).pending = s.pending := rfl
@[simp] theorem State.permuteLayer_done (s : State) (m : Nat) : (s.permuteLayer m).done = s.done := rfl
@[simp] theorem State.permuteLayer_err (s : State) (m : Nat) : (s.permuteLayer m).err = s.err := rfl
@[simp] theorem State.permuteLayer_errcode (s : State) (m : Nat) : (s.permuteLayer m).errcode = s.errcode := rfl
@[simp] theorem State.permuteLayer_lastOp (s : State) (m : Nat) : (s.permuteLayer m).lastOp = s.lastOp := rfl
@[simp] theorem State.permuteLayer_ptLen (s : State) (m : Nat) : (s.permuteLayer m).ptLen = s.ptLen := rfl
@[simp] theorem State.permuteLayer_ctLen (s : State) (m : Nat) : (s.permuteLayer m).ctLen = s.ctLen := rfl
@[simp] theorem State.permuteLayer_nonceLen (s : State) (m : Nat) : (s.permuteLayer m).nonceLen = s.nonceLen := rfl
@[simp] theorem State.permuteLayer_keyK1 (s : State) (m : Nat) : (s.permuteLayer m).keyK1 = s.keyK1 := rfl
@[simp] theorem State.permuteLayer_keyK2 (s : State) (m : Nat) : (s.permuteLayer m).keyK2 = s.keyK2 := rfl
@[simp] theorem State.permuteLayer_prbgState (s : State) (m : Nat) : (s.permuteLayer m).prbgState = s.prbgState := rfl
@[simp] theorem State.permuteLayer_prbgOut (s : State) (m : Nat) : (s.permuteLayer m).prbgOut = s.prbgOut := rfl
@[simp] theorem State.permuteLayer_result (s : State) (m : Nat) : (s.permuteLayer m).result = s.result := rfl
@[simp] theorem State.permuteLayer_nonce (s : State) (m : Nat) : (s.permuteLayer m).nonce = s.nonce := rfl
@[simp] theorem State.permuteLayer_buf (s : State) (m : Nat) : (s.permuteLayer m).buf = s.buf.permuteBlocks (Config.freeByte s.epoch) (m / 16) := rfl
@[simp] theorem State.permuteLayer_wprbg (s : State) (m : Nat) : (s.permuteLayer m).wprbg = s.wprbg := rfl
@[simp] theorem State.permuteLayer_acc (s : State) (m : Nat) : (s.permuteLayer m).acc = s.acc := rfl
@[simp] theorem State.permuteLayer_tk1 (s : State) (m : Nat) : (s.permuteLayer m).tk1 = s.tk1 := rfl
@[simp] theorem State.permuteLayer_tk2 (s : State) (m : Nat) : (s.permuteLayer m).tk2 = s.tk2 := rfl
@[simp] theorem State.permuteLayer_inputs (s : State) (m : Nat) : (s.permuteLayer m).inputs = s.inputs := rfl
@[simp] theorem State.permuteLayer_rng (s : State) (m : Nat) : (s.permuteLayer m).rng = s.rng := rfl
@[simp] theorem State.permuteLayer_rdata (s : State) (m : Nat) : (s.permuteLayer m).rdata = s.rdata := rfl
@[simp] theorem State.permuteLayer_epoch (s : State) (m : Nat) : (s.permuteLayer m).epoch = s.epoch := rfl

/-! ### invPermuteLayer -/

@[simp] theorem State.invPermuteLayer_params (s : State) (m : Nat) : (s.invPermuteLayer m).params = s.params := rfl
@[simp] theorem State.invPermuteLayer_pending (s : State) (m : Nat) : (s.invPermuteLayer m).pending = s.pending := rfl
@[simp] theorem State.invPermuteLayer_done (s : State) (m : Nat) : (s.invPermuteLayer m).done = s.done := rfl
@[simp] theorem State.invPermuteLayer_err (s : State) (m : Nat) : (s.invPermuteLayer m).err = s.err := rfl
@[simp] theorem State.invPermuteLayer_errcode (s : State) (m : Nat) : (s.invPermuteLayer m).errcode = s.errcode := rfl
@[simp] theorem State.invPermuteLayer_lastOp (s : State) (m : Nat) : (s.invPermuteLayer m).lastOp = s.lastOp := rfl
@[simp] theorem State.invPermuteLayer_ptLen (s : State) (m : Nat) : (s.invPermuteLayer m).ptLen = s.ptLen := rfl
@[simp] theorem State.invPermuteLayer_ctLen (s : State) (m : Nat) : (s.invPermuteLayer m).ctLen = s.ctLen := rfl
@[simp] theorem State.invPermuteLayer_nonceLen (s : State) (m : Nat) : (s.invPermuteLayer m).nonceLen = s.nonceLen := rfl
@[simp] theorem State.invPermuteLayer_keyK1 (s : State) (m : Nat) : (s.invPermuteLayer m).keyK1 = s.keyK1 := rfl
@[simp] theorem State.invPermuteLayer_keyK2 (s : State) (m : Nat) : (s.invPermuteLayer m).keyK2 = s.keyK2 := rfl
@[simp] theorem State.invPermuteLayer_prbgState (s : State) (m : Nat) : (s.invPermuteLayer m).prbgState = s.prbgState := rfl
@[simp] theorem State.invPermuteLayer_prbgOut (s : State) (m : Nat) : (s.invPermuteLayer m).prbgOut = s.prbgOut := rfl
@[simp] theorem State.invPermuteLayer_result (s : State) (m : Nat) : (s.invPermuteLayer m).result = s.result := rfl
@[simp] theorem State.invPermuteLayer_nonce (s : State) (m : Nat) : (s.invPermuteLayer m).nonce = s.nonce := rfl
@[simp] theorem State.invPermuteLayer_buf (s : State) (m : Nat) : (s.invPermuteLayer m).buf = s.buf.invPermuteBlocks (Config.freeByte s.epoch) (m / 16) := rfl
@[simp] theorem State.invPermuteLayer_wprbg (s : State) (m : Nat) : (s.invPermuteLayer m).wprbg = s.wprbg := rfl
@[simp] theorem State.invPermuteLayer_acc (s : State) (m : Nat) : (s.invPermuteLayer m).acc = s.acc := rfl
@[simp] theorem State.invPermuteLayer_tk1 (s : State) (m : Nat) : (s.invPermuteLayer m).tk1 = s.tk1 := rfl
@[simp] theorem State.invPermuteLayer_tk2 (s : State) (m : Nat) : (s.invPermuteLayer m).tk2 = s.tk2 := rfl
@[simp] theorem State.invPermuteLayer_inputs (s : State) (m : Nat) : (s.invPermuteLayer m).inputs = s.inputs := rfl
@[simp] theorem State.invPermuteLayer_rng (s : State) (m : Nat) : (s.invPermuteLayer m).rng = s.rng := rfl
@[simp] theorem State.invPermuteLayer_rdata (s : State) (m : Nat) : (s.invPermuteLayer m).rdata = s.rdata := rfl
@[simp] theorem State.invPermuteLayer_epoch (s : State) (m : Nat) : (s.invPermuteLayer m).epoch = s.epoch := rfl

/-! ### deriveLatches -/

@[simp] theorem State.deriveLatches_params (s : State) : s.deriveLatches.params = s.params := rfl
@[simp] theorem State.deriveLatches_pending (s : State) : s.deriveLatches.pending = s.pending := rfl
@[simp] theorem State.deriveLatches_done (s : State) : s.deriveLatches.done = s.done := rfl
@[simp] theorem State.deriveLatches_err (s : State) : s.deriveLatches.err = s.err := rfl
@[simp] theorem State.deriveLatches_errcode (s : State) : s.deriveLatches.errcode = s.errcode := rfl
@[simp] theorem State.deriveLatches_lastOp (s : State) : s.deriveLatches.lastOp = s.lastOp := rfl
@[simp] theorem State.deriveLatches_ptLen (s : State) : s.deriveLatches.ptLen = s.ptLen := rfl
@[simp] theorem State.deriveLatches_ctLen (s : State) : s.deriveLatches.ctLen = s.ctLen := rfl
@[simp] theorem State.deriveLatches_nonceLen (s : State) : s.deriveLatches.nonceLen = s.nonceLen := rfl
@[simp] theorem State.deriveLatches_keyK1 (s : State) : s.deriveLatches.keyK1 = s.keyK1 := rfl
@[simp] theorem State.deriveLatches_keyK2 (s : State) : s.deriveLatches.keyK2 = s.keyK2 := rfl
@[simp] theorem State.deriveLatches_prbgState (s : State) : s.deriveLatches.prbgState = s.prbgState := rfl
@[simp] theorem State.deriveLatches_prbgOut (s : State) : s.deriveLatches.prbgOut = s.prbgOut := rfl
@[simp] theorem State.deriveLatches_result (s : State) : s.deriveLatches.result = s.result := rfl
@[simp] theorem State.deriveLatches_nonce (s : State) : s.deriveLatches.nonce = s.nonce := rfl
@[simp] theorem State.deriveLatches_buf (s : State) : s.deriveLatches.buf = s.buf := rfl
@[simp] theorem State.deriveLatches_wprbg (s : State) : s.deriveLatches.wprbg = s.wprbg := rfl
@[simp] theorem State.deriveLatches_acc (s : State) : s.deriveLatches.acc = s.derivedAcc 16 := rfl
@[simp] theorem State.deriveLatches_tk1 (s : State) : s.deriveLatches.tk1 = k1OfAcc (s.derivedAcc 16) := rfl
@[simp] theorem State.deriveLatches_tk2 (s : State) : s.deriveLatches.tk2 = k2OfAcc (s.derivedAcc 16) := rfl
@[simp] theorem State.deriveLatches_inputs (s : State) : s.deriveLatches.inputs = s.inputs := rfl
@[simp] theorem State.deriveLatches_rng (s : State) : s.deriveLatches.rng = s.rng := rfl
@[simp] theorem State.deriveLatches_rdata (s : State) : s.deriveLatches.rdata = s.rdata := rfl
@[simp] theorem State.deriveLatches_epoch (s : State) : s.deriveLatches.epoch = s.epoch := rfl

/-! ### hostRead -/

@[simp] theorem State.hostRead_params (s : State) (a : Addr) : (s.hostRead a).params = s.params := rfl
@[simp] theorem State.hostRead_pending (s : State) (a : Addr) : (s.hostRead a).pending = s.pending := rfl
@[simp] theorem State.hostRead_done (s : State) (a : Addr) : (s.hostRead a).done = s.done := rfl
@[simp] theorem State.hostRead_err (s : State) (a : Addr) : (s.hostRead a).err = s.err := rfl
@[simp] theorem State.hostRead_errcode (s : State) (a : Addr) : (s.hostRead a).errcode = s.errcode := rfl
@[simp] theorem State.hostRead_lastOp (s : State) (a : Addr) : (s.hostRead a).lastOp = s.lastOp := rfl
@[simp] theorem State.hostRead_ptLen (s : State) (a : Addr) : (s.hostRead a).ptLen = s.ptLen := rfl
@[simp] theorem State.hostRead_ctLen (s : State) (a : Addr) : (s.hostRead a).ctLen = s.ctLen := rfl
@[simp] theorem State.hostRead_nonceLen (s : State) (a : Addr) : (s.hostRead a).nonceLen = s.nonceLen := rfl
@[simp] theorem State.hostRead_keyK1 (s : State) (a : Addr) : (s.hostRead a).keyK1 = s.keyK1 := rfl
@[simp] theorem State.hostRead_keyK2 (s : State) (a : Addr) : (s.hostRead a).keyK2 = s.keyK2 := rfl
@[simp] theorem State.hostRead_prbgState (s : State) (a : Addr) : (s.hostRead a).prbgState = s.prbgState := rfl
@[simp] theorem State.hostRead_prbgOut (s : State) (a : Addr) : (s.hostRead a).prbgOut = s.prbgOut := rfl
@[simp] theorem State.hostRead_result (s : State) (a : Addr) : (s.hostRead a).result = s.result := rfl
@[simp] theorem State.hostRead_nonce (s : State) (a : Addr) : (s.hostRead a).nonce = s.nonce := rfl
@[simp] theorem State.hostRead_buf (s : State) (a : Addr) : (s.hostRead a).buf = s.buf := rfl
@[simp] theorem State.hostRead_wprbg (s : State) (a : Addr) : (s.hostRead a).wprbg = s.wprbg := rfl
@[simp] theorem State.hostRead_acc (s : State) (a : Addr) : (s.hostRead a).acc = s.acc := rfl
@[simp] theorem State.hostRead_tk1 (s : State) (a : Addr) : (s.hostRead a).tk1 = s.tk1 := rfl
@[simp] theorem State.hostRead_tk2 (s : State) (a : Addr) : (s.hostRead a).tk2 = s.tk2 := rfl
@[simp] theorem State.hostRead_inputs (s : State) (a : Addr) : (s.hostRead a).inputs = s.inputs := rfl
@[simp] theorem State.hostRead_rng (s : State) (a : Addr) : (s.hostRead a).rng = s.rng := rfl
@[simp] theorem State.hostRead_rdata (s : State) (a : Addr) : (s.hostRead a).rdata = s.hostReadData a := rfl
@[simp] theorem State.hostRead_epoch (s : State) (a : Addr) : (s.hostRead a).epoch = s.epoch + 1 := rfl

/-! ### writeWindow -/

@[simp] theorem State.writeWindow_params (s : State) (off : Nat) (d : Word) (strb : BitVec 4) : (s.writeWindow off d strb).params = s.params := by simp only [State.writeWindow]
@[simp] theorem State.writeWindow_pending (s : State) (off : Nat) (d : Word) (strb : BitVec 4) : (s.writeWindow off d strb).pending = s.pending := by simp only [State.writeWindow]
@[simp] theorem State.writeWindow_done (s : State) (off : Nat) (d : Word) (strb : BitVec 4) : (s.writeWindow off d strb).done = s.done := by simp only [State.writeWindow]
@[simp] theorem State.writeWindow_err (s : State) (off : Nat) (d : Word) (strb : BitVec 4) : (s.writeWindow off d strb).err = s.err := by simp only [State.writeWindow]
@[simp] theorem State.writeWindow_errcode (s : State) (off : Nat) (d : Word) (strb : BitVec 4) : (s.writeWindow off d strb).errcode = s.errcode := by simp only [State.writeWindow]
@[simp] theorem State.writeWindow_lastOp (s : State) (off : Nat) (d : Word) (strb : BitVec 4) : (s.writeWindow off d strb).lastOp = s.lastOp := by simp only [State.writeWindow]
@[simp] theorem State.writeWindow_ptLen (s : State) (off : Nat) (d : Word) (strb : BitVec 4) : (s.writeWindow off d strb).ptLen = s.ptLen := by simp only [State.writeWindow]
@[simp] theorem State.writeWindow_ctLen (s : State) (off : Nat) (d : Word) (strb : BitVec 4) : (s.writeWindow off d strb).ctLen = s.ctLen := by simp only [State.writeWindow]
@[simp] theorem State.writeWindow_nonceLen (s : State) (off : Nat) (d : Word) (strb : BitVec 4) : (s.writeWindow off d strb).nonceLen = s.nonceLen := by simp only [State.writeWindow]
@[simp] theorem State.writeWindow_keyK1 (s : State) (off : Nat) (d : Word) (strb : BitVec 4) : (s.writeWindow off d strb).keyK1 = s.keyK1 := by simp only [State.writeWindow]
@[simp] theorem State.writeWindow_keyK2 (s : State) (off : Nat) (d : Word) (strb : BitVec 4) : (s.writeWindow off d strb).keyK2 = s.keyK2 := by simp only [State.writeWindow]
@[simp] theorem State.writeWindow_prbgState (s : State) (off : Nat) (d : Word) (strb : BitVec 4) : (s.writeWindow off d strb).prbgState = s.prbgState := by simp only [State.writeWindow]
@[simp] theorem State.writeWindow_prbgOut (s : State) (off : Nat) (d : Word) (strb : BitVec 4) : (s.writeWindow off d strb).prbgOut = s.prbgOut := by simp only [State.writeWindow]
@[simp] theorem State.writeWindow_result (s : State) (off : Nat) (d : Word) (strb : BitVec 4) : (s.writeWindow off d strb).result = s.result := by simp only [State.writeWindow]
@[simp] theorem State.writeWindow_nonce (s : State) (off : Nat) (d : Word) (strb : BitVec 4) : (s.writeWindow off d strb).nonce = s.nonce := by simp only [State.writeWindow]
@[simp] theorem State.writeWindow_buf (s : State) (off : Nat) (d : Word) (strb : BitVec 4) : (s.writeWindow off d strb).buf = (((s.buf.writeLane off d strb 0).writeLane off d strb 1).writeLane off d strb 2).writeLane off d strb 3 := by simp only [State.writeWindow]
@[simp] theorem State.writeWindow_wprbg (s : State) (off : Nat) (d : Word) (strb : BitVec 4) : (s.writeWindow off d strb).wprbg = s.wprbg := by simp only [State.writeWindow]
@[simp] theorem State.writeWindow_acc (s : State) (off : Nat) (d : Word) (strb : BitVec 4) : (s.writeWindow off d strb).acc = s.acc := by simp only [State.writeWindow]
@[simp] theorem State.writeWindow_tk1 (s : State) (off : Nat) (d : Word) (strb : BitVec 4) : (s.writeWindow off d strb).tk1 = s.tk1 := by simp only [State.writeWindow]
@[simp] theorem State.writeWindow_tk2 (s : State) (off : Nat) (d : Word) (strb : BitVec 4) : (s.writeWindow off d strb).tk2 = s.tk2 := by simp only [State.writeWindow]
@[simp] theorem State.writeWindow_inputs (s : State) (off : Nat) (d : Word) (strb : BitVec 4) : (s.writeWindow off d strb).inputs = s.inputs := by simp only [State.writeWindow]
@[simp] theorem State.writeWindow_rng (s : State) (off : Nat) (d : Word) (strb : BitVec 4) : (s.writeWindow off d strb).rng = s.rng := by simp only [State.writeWindow]
@[simp] theorem State.writeWindow_rdata (s : State) (off : Nat) (d : Word) (strb : BitVec 4) : (s.writeWindow off d strb).rdata = s.rdata := by simp only [State.writeWindow]
@[simp] theorem State.writeWindow_epoch (s : State) (off : Nat) (d : Word) (strb : BitVec 4) : (s.writeWindow off d strb).epoch = s.epoch := by simp only [State.writeWindow]

/-! ### encryptLayers -/

@[simp] theorem State.encryptLayers_params (s : State) (k : Byte) (m : Nat) :
    (s.encryptLayers k m).params = s.params := by
  simp only [State.encryptLayers, State.permuteLayer_params, State.substLayer_params, State.xorLayer_params]
@[simp] theorem State.encryptLayers_pending (s : State) (k : Byte) (m : Nat) :
    (s.encryptLayers k m).pending = s.pending := by
  simp only [State.encryptLayers, State.permuteLayer_pending, State.substLayer_pending, State.xorLayer_pending]
@[simp] theorem State.encryptLayers_done (s : State) (k : Byte) (m : Nat) :
    (s.encryptLayers k m).done = s.done := by
  simp only [State.encryptLayers, State.permuteLayer_done, State.substLayer_done, State.xorLayer_done]
@[simp] theorem State.encryptLayers_err (s : State) (k : Byte) (m : Nat) : (s.encryptLayers k m).err = s.err := by
  simp only [State.encryptLayers, State.permuteLayer_err, State.substLayer_err, State.xorLayer_err]
@[simp] theorem State.encryptLayers_errcode (s : State) (k : Byte) (m : Nat) :
    (s.encryptLayers k m).errcode = s.errcode := by
  simp only [State.encryptLayers, State.permuteLayer_errcode, State.substLayer_errcode, State.xorLayer_errcode]
@[simp] theorem State.encryptLayers_lastOp (s : State) (k : Byte) (m : Nat) :
    (s.encryptLayers k m).lastOp = s.lastOp := by
  simp only [State.encryptLayers, State.permuteLayer_lastOp, State.substLayer_lastOp, State.xorLayer_lastOp]
@[simp] theorem State.encryptLayers_ptLen (s : State) (k : Byte) (m : Nat) :
    (s.encryptLayers k m).ptLen = s.ptLen := by
  simp only [State.encryptLayers, State.permuteLayer_ptLen, State.substLayer_ptLen, State.xorLayer_ptLen]
@[simp] theorem State.encryptLayers_ctLen (s : State) (k : Byte) (m : Nat) :
    (s.encryptLayers k m).ctLen = s.ctLen := by
  simp only [State.encryptLayers, State.permuteLayer_ctLen, State.substLayer_ctLen, State.xorLayer_ctLen]
@[simp] theorem State.encryptLayers_nonceLen (s : State) (k : Byte) (m : Nat) :
    (s.encryptLayers k m).nonceLen = s.nonceLen := by
  simp only [State.encryptLayers, State.permuteLayer_nonceLen, State.substLayer_nonceLen, State.xorLayer_nonceLen]
@[simp] theorem State.encryptLayers_keyK1 (s : State) (k : Byte) (m : Nat) :
    (s.encryptLayers k m).keyK1 = s.keyK1 := by
  simp only [State.encryptLayers, State.permuteLayer_keyK1, State.substLayer_keyK1, State.xorLayer_keyK1]
@[simp] theorem State.encryptLayers_keyK2 (s : State) (k : Byte) (m : Nat) :
    (s.encryptLayers k m).keyK2 = s.keyK2 := by
  simp only [State.encryptLayers, State.permuteLayer_keyK2, State.substLayer_keyK2, State.xorLayer_keyK2]
@[simp] theorem State.encryptLayers_prbgState (s : State) (k : Byte) (m : Nat) :
    (s.encryptLayers k m).prbgState = s.prbgState := by
  simp only [State.encryptLayers, State.permuteLayer_prbgState, State.substLayer_prbgState, State.xorLayer_prbgState]
@[simp] theorem State.encryptLayers_prbgOut (s : State) (k : Byte) (m : Nat) :
    (s.encryptLayers k m).prbgOut = s.prbgOut := by
  simp only [State.encryptLayers, State.permuteLayer_prbgOut, State.substLayer_prbgOut, State.xorLayer_prbgOut]
@[simp] theorem State.encryptLayers_result (s : State) (k : Byte) (m : Nat) :
    (s.encryptLayers k m).result = s.result := by
  simp only [State.encryptLayers, State.permuteLayer_result, State.substLayer_result, State.xorLayer_result]
@[simp] theorem State.encryptLayers_nonce (s : State) (k : Byte) (m : Nat) :
    (s.encryptLayers k m).nonce = s.nonce := by
  simp only [State.encryptLayers, State.permuteLayer_nonce, State.substLayer_nonce, State.xorLayer_nonce]
@[simp] theorem State.encryptLayers_wprbg (s : State) (k : Byte) (m : Nat) :
    (s.encryptLayers k m).wprbg = s.wprbg := by
  simp only [State.encryptLayers, State.permuteLayer_wprbg, State.substLayer_wprbg, State.xorLayer_wprbg]
@[simp] theorem State.encryptLayers_acc (s : State) (k : Byte) (m : Nat) : (s.encryptLayers k m).acc = s.acc := by
  simp only [State.encryptLayers, State.permuteLayer_acc, State.substLayer_acc, State.xorLayer_acc]
@[simp] theorem State.encryptLayers_tk1 (s : State) (k : Byte) (m : Nat) : (s.encryptLayers k m).tk1 = s.tk1 := by
  simp only [State.encryptLayers, State.permuteLayer_tk1, State.substLayer_tk1, State.xorLayer_tk1]
@[simp] theorem State.encryptLayers_tk2 (s : State) (k : Byte) (m : Nat) : (s.encryptLayers k m).tk2 = s.tk2 := by
  simp only [State.encryptLayers, State.permuteLayer_tk2, State.substLayer_tk2, State.xorLayer_tk2]
@[simp] theorem State.encryptLayers_inputs (s : State) (k : Byte) (m : Nat) :
    (s.encryptLayers k m).inputs = s.inputs := by
  simp only [State.encryptLayers, State.permuteLayer_inputs, State.substLayer_inputs, State.xorLayer_inputs]
@[simp] theorem State.encryptLayers_rng (s : State) (k : Byte) (m : Nat) : (s.encryptLayers k m).rng = s.rng := by
  simp only [State.encryptLayers, State.permuteLayer_rng, State.substLayer_rng, State.xorLayer_rng]
@[simp] theorem State.encryptLayers_rdata (s : State) (k : Byte) (m : Nat) :
    (s.encryptLayers k m).rdata = s.rdata := by
  simp only [State.encryptLayers, State.permuteLayer_rdata, State.substLayer_rdata, State.xorLayer_rdata]
@[simp] theorem State.encryptLayers_epoch (s : State) (k : Byte) (m : Nat) :
    (s.encryptLayers k m).epoch = s.epoch := by
  simp only [State.encryptLayers, State.permuteLayer_epoch, State.substLayer_epoch, State.xorLayer_epoch]

/-! ### decryptLayers -/

@[simp] theorem State.decryptLayers_params (s : State) (k : Byte) (m : Nat) :
    (s.decryptLayers k m).params = s.params := by
  simp only [State.decryptLayers, State.xorLayer_params, State.invSubstLayer_params, State.invPermuteLayer_params]
@[simp] theorem State.decryptLayers_pending (s : State) (k : Byte) (m : Nat) :
    (s.decryptLayers k m).pending = s.pending := by
  simp only [State.decryptLayers, State.xorLayer_pending, State.invSubstLayer_pending, State.invPermuteLayer_pending]
@[simp] theorem State.decryptLayers_done (s : State) (k : Byte) (m : Nat) :
    (s.decryptLayers k m).done = s.done := by
  simp only [State.decryptLayers, State.xorLayer_done, State.invSubstLayer_done, State.invPermuteLayer_done]
@[simp] theorem State.decryptLayers_err (s : State) (k : Byte) (m : Nat) : (s.decryptLayers k m).err = s.err := by
  simp only [State.decryptLayers, State.xorLayer_err, State.invSubstLayer_err, State.invPermuteLayer_err]
@[simp] theorem State.decryptLayers_errcode (s : State) (k : Byte) (m : Nat) :
    (s.decryptLayers k m).errcode = s.errcode := by
  simp only [State.decryptLayers, State.xorLayer_errcode, State.invSubstLayer_errcode, State.invPermuteLayer_errcode]
@[simp] theorem State.decryptLayers_lastOp (s : State) (k : Byte) (m : Nat) :
    (s.decryptLayers k m).lastOp = s.lastOp := by
  simp only [State.decryptLayers, State.xorLayer_lastOp, State.invSubstLayer_lastOp, State.invPermuteLayer_lastOp]
@[simp] theorem State.decryptLayers_ptLen (s : State) (k : Byte) (m : Nat) :
    (s.decryptLayers k m).ptLen = s.ptLen := by
  simp only [State.decryptLayers, State.xorLayer_ptLen, State.invSubstLayer_ptLen, State.invPermuteLayer_ptLen]
@[simp] theorem State.decryptLayers_ctLen (s : State) (k : Byte) (m : Nat) :
    (s.decryptLayers k m).ctLen = s.ctLen := by
  simp only [State.decryptLayers, State.xorLayer_ctLen, State.invSubstLayer_ctLen, State.invPermuteLayer_ctLen]
@[simp] theorem State.decryptLayers_nonceLen (s : State) (k : Byte) (m : Nat) :
    (s.decryptLayers k m).nonceLen = s.nonceLen := by
  simp only [State.decryptLayers, State.xorLayer_nonceLen, State.invSubstLayer_nonceLen, State.invPermuteLayer_nonceLen]
@[simp] theorem State.decryptLayers_keyK1 (s : State) (k : Byte) (m : Nat) :
    (s.decryptLayers k m).keyK1 = s.keyK1 := by
  simp only [State.decryptLayers, State.xorLayer_keyK1, State.invSubstLayer_keyK1, State.invPermuteLayer_keyK1]
@[simp] theorem State.decryptLayers_keyK2 (s : State) (k : Byte) (m : Nat) :
    (s.decryptLayers k m).keyK2 = s.keyK2 := by
  simp only [State.decryptLayers, State.xorLayer_keyK2, State.invSubstLayer_keyK2, State.invPermuteLayer_keyK2]
@[simp] theorem State.decryptLayers_prbgState (s : State) (k : Byte) (m : Nat) :
    (s.decryptLayers k m).prbgState = s.prbgState := by
  simp only [State.decryptLayers, State.xorLayer_prbgState, State.invSubstLayer_prbgState, State.invPermuteLayer_prbgState]
@[simp] theorem State.decryptLayers_prbgOut (s : State) (k : Byte) (m : Nat) :
    (s.decryptLayers k m).prbgOut = s.prbgOut := by
  simp only [State.decryptLayers, State.xorLayer_prbgOut, State.invSubstLayer_prbgOut, State.invPermuteLayer_prbgOut]
@[simp] theorem State.decryptLayers_result (s : State) (k : Byte) (m : Nat) :
    (s.decryptLayers k m).result = s.result := by
  simp only [State.decryptLayers, State.xorLayer_result, State.invSubstLayer_result, State.invPermuteLayer_result]
@[simp] theorem State.decryptLayers_nonce (s : State) (k : Byte) (m : Nat) :
    (s.decryptLayers k m).nonce = s.nonce := by
  simp only [State.decryptLayers, State.xorLayer_nonce, State.invSubstLayer_nonce, State.invPermuteLayer_nonce]
@[simp] theorem State.decryptLayers_wprbg (s : State) (k : Byte) (m : Nat) :
    (s.decryptLayers k m).wprbg = s.wprbg := by
  simp only [State.decryptLayers, State.xorLayer_wprbg, State.invSubstLayer_wprbg, State.invPermuteLayer_wprbg]
@[simp] theorem State.decryptLayers_acc (s : State) (k : Byte) (m : Nat) : (s.decryptLayers k m).acc = s.acc := by
  simp only [State.decryptLayers, State.xorLayer_acc, State.invSubstLayer_acc, State.invPermuteLayer_acc]
@[simp] theorem State.decryptLayers_tk1 (s : State) (k : Byte) (m : Nat) : (s.decryptLayers k m).tk1 = s.tk1 := by
  simp only [State.decryptLayers, State.xorLayer_tk1, State.invSubstLayer_tk1, State.invPermuteLayer_tk1]
@[simp] theorem State.decryptLayers_tk2 (s : State) (k : Byte) (m : Nat) : (s.decryptLayers k m).tk2 = s.tk2 := by
  simp only [State.decryptLayers, State.xorLayer_tk2, State.invSubstLayer_tk2, State.invPermuteLayer_tk2]
@[simp] theorem State.decryptLayers_inputs (s : State) (k : Byte) (m : Nat) :
    (s.decryptLayers k m).inputs = s.inputs := by
  simp only [State.decryptLayers, State.xorLayer_inputs, State.invSubstLayer_inputs, State.invPermuteLayer_inputs]
@[simp] theorem State.decryptLayers_rng (s : State) (k : Byte) (m : Nat) : (s.decryptLayers k m).rng = s.rng := by
  simp only [State.decryptLayers, State.xorLayer_rng, State.invSubstLayer_rng, State.invPermuteLayer_rng]
@[simp] theorem State.decryptLayers_rdata (s : State) (k : Byte) (m : Nat) :
    (s.decryptLayers k m).rdata = s.rdata := by
  simp only [State.decryptLayers, State.xorLayer_rdata, State.invSubstLayer_rdata, State.invPermuteLayer_rdata]
@[simp] theorem State.decryptLayers_epoch (s : State) (k : Byte) (m : Nat) :
    (s.decryptLayers k m).epoch = s.epoch := by
  simp only [State.decryptLayers, State.xorLayer_epoch, State.invSubstLayer_epoch, State.invPermuteLayer_epoch]

/-! ### encryptPipeline -/

@[simp] theorem State.encryptPipeline_params (s : State) (n : Nat) : (s.encryptPipeline n).params = s.params := by
  simp only [State.encryptPipeline, State.encryptLayers_params, State.padBuffer_params, State.deriveLatches_params]
@[simp] theorem State.encryptPipeline_pending (s : State) (n : Nat) :
    (s.encryptPipeline n).pending = s.pending := by
  simp only [State.encryptPipeline, State.encryptLayers_pending, State.padBuffer_pending, State.deriveLatches_pending]
@[simp] theorem State.encryptPipeline_done (s : State) (n : Nat) : (s.encryptPipeline n).done = s.done := by
  simp only [State.encryptPipeline, State.encryptLayers_done, State.padBuffer_done, State.deriveLatches_done]
@[simp] theorem State.encryptPipeline_err (s : State) (n : Nat) : (s.encryptPipeline n).err = s.err := by
  simp only [State.encryptPipeline, State.encryptLayers_err, State.padBuffer_err, State.deriveLatches_err]
@[simp] theorem State.encryptPipeline_errcode (s : State) (n : Nat) :
    (s.encryptPipeline n).errcode = s.errcode := by
  simp only [State.encryptPipeline, State.encryptLayers_errcode, State.padBuffer_errcode, State.deriveLatches_errcode]
@[simp] theorem State.encryptPipeline_lastOp (s : State) (n : Nat) : (s.encryptPipeline n).lastOp = s.lastOp := by
  simp only [State.encryptPipeline, State.encryptLayers_lastOp, State.padBuffer_lastOp, State.deriveLatches_lastOp]
@[simp] theorem State.encryptPipeline_ptLen (s : State) (n : Nat) : (s.encryptPipeline n).ptLen = s.ptLen := by
  simp only [State.encryptPipeline, State.encryptLayers_ptLen, State.padBuffer_ptLen, State.deriveLatches_ptLen]
@[simp] theorem State.encryptPipeline_ctLen (s : State) (n : Nat) :
    (s.encryptPipeline n).ctLen = BitVec.ofNat 32 (paddedLen n) := rfl
@[simp] theorem State.encryptPipeline_nonceLen (s : State) (n : Nat) :
    (s.encryptPipeline n).nonceLen = s.nonceLen := by
  simp only [State.encryptPipeline, State.encryptLayers_nonceLen, State.padBuffer_nonceLen, State.deriveLatches_nonceLen]
@[simp] theorem State.encryptPipeline_keyK1 (s : State) (n : Nat) : (s.encryptPipeline n).keyK1 = s.keyK1 := by
  simp only [State.encryptPipeline, State.encryptLayers_keyK1, State.padBuffer_keyK1, State.deriveLatches_keyK1]
@[simp] theorem State.encryptPipeline_keyK2 (s : State) (n : Nat) : (s.encryptPipeline n).keyK2 = s.keyK2 := by
  simp only [State.encryptPipeline, State.encryptLayers_keyK2, State.padBuffer_keyK2, State.deriveLatches_keyK2]
@[simp] theorem State.encryptPipeline_prbgState (s : State) (n : Nat) :
    (s.encryptPipeline n).prbgState = s.prbgState := by
  simp only [State.encryptPipeline, State.encryptLayers_prbgState, State.padBuffer_prbgState, State.deriveLatches_prbgState]
@[simp] theorem State.encryptPipeline_prbgOut (s : State) (n : Nat) :
    (s.encryptPipeline n).prbgOut = s.prbgOut := by
  simp only [State.encryptPipeline, State.encryptLayers_prbgOut, State.padBuffer_prbgOut, State.deriveLatches_prbgOut]
@[simp] theorem State.encryptPipeline_result (s : State) (n : Nat) : (s.encryptPipeline n).result = s.result := by
  simp only [State.encryptPipeline, State.encryptLayers_result, State.padBuffer_result, State.deriveLatches_result]
@[simp] theorem State.encryptPipeline_nonce (s : State) (n : Nat) : (s.encryptPipeline n).nonce = s.nonce := by
  simp only [State.encryptPipeline, State.encryptLayers_nonce, State.padBuffer_nonce, State.deriveLatches_nonce]
@[simp] theorem State.encryptPipeline_acc (s : State) (n : Nat) : (s.encryptPipeline n).acc = s.derivedAcc 16 := by
  simp only [State.encryptPipeline, State.encryptLayers_acc, State.padBuffer_acc, State.deriveLatches_acc]
@[simp] theorem State.encryptPipeline_tk1 (s : State) (n : Nat) :
    (s.encryptPipeline n).tk1 = k1OfAcc (s.derivedAcc 16) := by
  simp only [State.encryptPipeline, State.encryptLayers_tk1, State.padBuffer_tk1, State.deriveLatches_tk1]
@[simp] theorem State.encryptPipeline_tk2 (s : State) (n : Nat) :
    (s.encryptPipeline n).tk2 = k2OfAcc (s.derivedAcc 16) := by
  simp only [State.encryptPipeline, State.encryptLayers_tk2, State.padBuffer_tk2, State.deriveLatches_tk2]
@[simp] theorem State.encryptPipeline_inputs (s : State) (n : Nat) : (s.encryptPipeline n).inputs = s.inputs := by
  simp only [State.encryptPipeline, State.encryptLayers_inputs, State.padBuffer_inputs, State.deriveLatches_inputs]
@[simp] theorem State.encryptPipeline_rng (s : State) (n : Nat) : (s.encryptPipeline n).rng = s.rng := by
  simp only [State.encryptPipeline, State.encryptLayers_rng, State.padBuffer_rng, State.deriveLatches_rng]
@[simp] theorem State.encryptPipeline_rdata (s : State) (n : Nat) : (s.encryptPipeline n).rdata = s.rdata := by
  simp only [State.encryptPipeline, State.encryptLayers_rdata, State.padBuffer_rdata, State.deriveLatches_rdata]
@[simp] theorem State.encryptPipeline_epoch (s : State) (n : Nat) : (s.encryptPipeline n).epoch = s.epoch := by
  simp only [State.encryptPipeline, State.encryptLayers_epoch, State.padBuffer_epoch, State.deriveLatches_epoch]

/-! ### finishRemovePadding -/

@[simp] theorem State.finishRemovePadding_params (s : State) (m : Nat) :
    (s.finishRemovePadding m).params = s.params := by
  unfold State.finishRemovePadding; split <;> rfl
@[simp] theorem State.finishRemovePadding_pending (s : State) (m : Nat) :
    (s.finishRemovePadding m).pending = none := by
  unfold State.finishRemovePadding; split <;> rfl
@[simp] theorem State.finishRemovePadding_done (s : State) (m : Nat) :
    (s.finishRemovePadding m).done = true := by
  unfold State.finishRemovePadding; split <;> rfl
@[simp] theorem State.finishRemovePadding_lastOp (s : State) (m : Nat) :
    (s.finishRemovePadding m).lastOp = s.lastOp := by
  unfold State.finishRemovePadding; split <;> rfl
@[simp] theorem State.finishRemovePadding_ctLen (s : State) (m : Nat) :
    (s.finishRemovePadding m).ctLen = s.ctLen := by
  unfold State.finishRemovePadding; split <;> rfl
@[simp] theorem State.finishRemovePadding_nonceLen (s : State) (m : Nat) :
    (s.finishRemovePadding m).nonceLen = s.nonceLen := by
  unfold State.finishRemovePadding; split <;> rfl
@[simp] theorem State.finishRemovePadding_keyK1 (s : State) (m : Nat) :
    (s.finishRemovePadding m).keyK1 = s.keyK1 := by
  unfold State.finishRemovePadding; split <;> rfl
@[simp] theorem State.finishRemovePadding_keyK2 (s : State) (m : Nat) :
    (s.finishRemovePadding m).keyK2 = s.keyK2 := by
  unfold State.finishRemovePadding; split <;> rfl
@[simp] theorem State.finishRemovePadding_prbgState (s : State) (m : Nat) :
    (s.finishRemovePadding m).prbgState = s.prbgState := by
  unfold State.finishRemovePadding; split <;> rfl
@[simp] theorem State.finishRemovePadding_prbgOut (s : State) (m : Nat) :
    (s.finishRemovePadding m).prbgOut = s.prbgOut := by
  unfold State.finishRemovePadding; split <;> rfl
@[simp] theorem State.finishRemovePadding_result (s : State) (m : Nat) :
    (s.finishRemovePadding m).result = s.result := by
  unfold State.finishRemovePadding; split <;> rfl
@[simp] theorem State.finishRemovePadding_nonce (s : State) (m : Nat) :
    (s.finishRemovePadding m).nonce = s.nonce := by
  unfold State.finishRemovePadding; split <;> rfl
@[simp] theorem State.finishRemovePadding_buf (s : State) (m : Nat) :
    (s.finishRemovePadding m).buf = s.buf := by
  unfold State.finishRemovePadding; split <;> rfl
@[simp] theorem State.finishRemovePadding_wprbg (s : State) (m : Nat) :
    (s.finishRemovePadding m).wprbg = s.wprbg := by
  unfold State.finishRemovePadding; split <;> rfl
@[simp] theorem State.finishRemovePadding_acc (s : State) (m : Nat) :
    (s.finishRemovePadding m).acc = s.acc := by
  unfold State.finishRemovePadding; split <;> rfl
@[simp] theorem State.finishRemovePadding_tk1 (s : State) (m : Nat) :
    (s.finishRemovePadding m).tk1 = s.tk1 := by
  unfold State.finishRemovePadding; split <;> rfl
@[simp] theorem State.finishRemovePadding_tk2 (s : State) (m : Nat) :
    (s.finishRemovePadding m).tk2 = s.tk2 := by
  unfold State.finishRemovePadding; split <;> rfl
@[simp] theorem State.finishRemovePadding_inputs (s : State) (m : Nat) :
    (s.finishRemovePadding m).inputs = s.inputs := by
  unfold State.finishRemovePadding; split <;> rfl
@[simp] theorem State.finishRemovePadding_rng (s : State) (m : Nat) :
    (s.finishRemovePadding m).rng = s.rng := by
  unfold State.finishRemovePadding; split <;> rfl
@[simp] theorem State.finishRemovePadding_rdata (s : State) (m : Nat) :
    (s.finishRemovePadding m).rdata = s.rdata := by
  unfold State.finishRemovePadding; split <;> rfl
@[simp] theorem State.finishRemovePadding_epoch (s : State) (m : Nat) :
    (s.finishRemovePadding m).epoch = s.epoch + 1 := by
  unfold State.finishRemovePadding; split <;> rfl

/-! ### decryptPipeline -/

@[simp] theorem State.decryptPipeline_params (s : State) (m : Nat) : (s.decryptPipeline m).params = s.params := by
  simp only [State.decryptPipeline, State.finishRemovePadding_params, State.decryptLayers_params, State.deriveLatches_params]
@[simp] theorem State.decryptPipeline_pending (s : State) (m : Nat) : (s.decryptPipeline m).pending = none := by
  simp only [State.decryptPipeline, State.finishRemovePadding_pending]
@[simp] theorem State.decryptPipeline_done (s : State) (m : Nat) : (s.decryptPipeline m).done = true := by
  simp only [State.decryptPipeline, State.finishRemovePadding_done]
@[simp] theorem State.decryptPipeline_lastOp (s : State) (m : Nat) : (s.decryptPipeline m).lastOp = s.lastOp := by
  simp only [State.decryptPipeline, State.finishRemovePadding_lastOp, State.decryptLayers_lastOp, State.deriveLatches_lastOp]
@[simp] theorem State.decryptPipeline_ctLen (s : State) (m : Nat) : (s.decryptPipeline m).ctLen = s.ctLen := by
  simp only [State.decryptPipeline, State.finishRemovePadding_ctLen, State.decryptLayers_ctLen, State.deriveLatches_ctLen]
@[simp] theorem State.decryptPipeline_nonceLen (s : State) (m : Nat) : (s.decryptPipeline m).nonceLen = s.nonceLen := by
  simp only [State.decryptPipeline, State.finishRemovePadding_nonceLen, State.decryptLayers_nonceLen, State.deriveLatches_nonceLen]
@[simp] theorem State.decryptPipeline_keyK1 (s : State) (m : Nat) : (s.decryptPipeline m).keyK1 = s.keyK1 := by
  simp only [State.decryptPipeline, State.finishRemovePadding_keyK1, State.decryptLayers_keyK1, State.deriveLatches_keyK1]
@[simp] theorem State.decryptPipeline_keyK2 (s : State) (m : Nat) : (s.decryptPipeline m).keyK2 = s.keyK2 := by
  simp only [State.decryptPipeline, State.finishRemovePadding_keyK2, State.decryptLayers_keyK2, State.deriveLatches_keyK2]
@[simp] theorem State.decryptPipeline_prbgState (s : State) (m : Nat) : (s.decryptPipeline m).prbgState = s.prbgState := by
  simp only [State.decryptPipeline, State.finishRemovePadding_prbgState, State.decryptLayers_prbgState, State.deriveLatches_prbgState]
@[simp] theorem State.decryptPipeline_prbgOut (s : State) (m : Nat) : (s.decryptPipeline m).prbgOut = s.prbgOut := by
  simp only [State.decryptPipeline, State.finishRemovePadding_prbgOut, State.decryptLayers_prbgOut, State.deriveLatches_prbgOut]
@[simp] theorem State.decryptPipeline_result (s : State) (m : Nat) : (s.decryptPipeline m).result = s.result := by
  simp only [State.decryptPipeline, State.finishRemovePadding_result, State.decryptLayers_result, State.deriveLatches_result]
@[simp] theorem State.decryptPipeline_nonce (s : State) (m : Nat) : (s.decryptPipeline m).nonce = s.nonce := by
  simp only [State.decryptPipeline, State.finishRemovePadding_nonce, State.decryptLayers_nonce, State.deriveLatches_nonce]
@[simp] theorem State.decryptPipeline_wprbg (s : State) (m : Nat) : (s.decryptPipeline m).wprbg = s.wprbg := by
  simp only [State.decryptPipeline, State.finishRemovePadding_wprbg, State.decryptLayers_wprbg, State.deriveLatches_wprbg]
@[simp] theorem State.decryptPipeline_acc (s : State) (m : Nat) : (s.decryptPipeline m).acc = s.derivedAcc 16 := by
  simp only [State.decryptPipeline, State.finishRemovePadding_acc, State.decryptLayers_acc, State.deriveLatches_acc]
@[simp] theorem State.decryptPipeline_tk1 (s : State) (m : Nat) : (s.decryptPipeline m).tk1 = k1OfAcc (s.derivedAcc 16) := by
  simp only [State.decryptPipeline, State.finishRemovePadding_tk1, State.decryptLayers_tk1, State.deriveLatches_tk1]
@[simp] theorem State.decryptPipeline_tk2 (s : State) (m : Nat) : (s.decryptPipeline m).tk2 = k2OfAcc (s.derivedAcc 16) := by
  simp only [State.decryptPipeline, State.finishRemovePadding_tk2, State.decryptLayers_tk2, State.deriveLatches_tk2]
@[simp] theorem State.decryptPipeline_inputs (s : State) (m : Nat) : (s.decryptPipeline m).inputs = s.inputs := by
  simp only [State.decryptPipeline, State.finishRemovePadding_inputs, State.decryptLayers_inputs, State.deriveLatches_inputs]
@[simp] theorem State.decryptPipeline_rng (s : State) (m : Nat) : (s.decryptPipeline m).rng = s.rng := by
  simp only [State.decryptPipeline, State.finishRemovePadding_rng, State.decryptLayers_rng, State.deriveLatches_rng]
@[simp] theorem State.decryptPipeline_rdata (s : State) (m : Nat) : (s.decryptPipeline m).rdata = s.rdata := by
  simp only [State.decryptPipeline, State.finishRemovePadding_rdata, State.decryptLayers_rdata, State.deriveLatches_rdata]
@[simp] theorem State.decryptPipeline_epoch (s : State) (m : Nat) : (s.decryptPipeline m).epoch = s.epoch + 1 := by
  simp only [State.decryptPipeline, State.finishRemovePadding_epoch, State.decryptLayers_epoch, State.deriveLatches_epoch]
theorem State.decryptPipeline_buf (s : State) (m : Nat) :
    (s.decryptPipeline m).buf = (s.deriveLatches.decryptLayers s.deriveLatches.tk1 m).buf := by
  simp only [State.decryptPipeline, State.finishRemovePadding_buf]

end Sys2Proof.Machine
end

