-- ==== Sys2Proof/Laws/Memory.lean ====
section
/-! SUPPORT. The laws of the buffer: read after write, the canonical form, and what each memory operation leaves at
every address. -/

namespace Sys2Proof.Machine

/-! ### One byte -/

@[simp] theorem Memory.read_nil (a : Nat) : Memory.read [] a = none := rfl

/-- A read after a write: the written address gives the byte, every other address what it gave. -/
theorem Memory.read_write (m : Memory) (a d : Nat) (b : Byte) :
    (m.write a b).read d = if d = a then some b else m.read d := by
  induction m with
  | nil =>
    by_cases h : d = a
    · subst h; simp [Memory.write, Memory.read]
    · have : ¬ a = d := fun e => h e.symm
      simp [Memory.write, Memory.read, h, this]
  | cons c m ih =>
    simp only [Memory.write]
    split
    · by_cases h : d = a
      · subst h; simp [Memory.read]
      · have : ¬ a = d := fun e => h e.symm
        simp [Memory.read, h, this]
    · split
      · rename_i h
        subst h
        by_cases h' : d = c.1
        · subst h'; simp [Memory.read]
        · have : ¬ c.1 = d := fun e => h' e.symm
          simp [Memory.read, h', this]
      · by_cases h' : c.1 = d
        · have : ¬ d = a := by omega
          simp [Memory.read, h', this]
        · simp [Memory.read, h', ih]

@[simp] theorem Memory.read_write_same (m : Memory) (a : Nat) (b : Byte) : (m.write a b).read a = some b := by
  simp [Memory.read_write]

theorem Memory.read_write_other (m : Memory) {a d : Nat} (b : Byte) (h : d ≠ a) : (m.write a b).read d = m.read d := by
  simp [Memory.read_write, h]

/-- A byte that stands in the memory is what a read gives, whatever a byte never written reads as. -/
theorem Memory.get_of_read {m : Memory} {a : Nat} {b : Byte} (free : Nat → Byte) (h : m.read a = some b) :
    m.get free a = b := by simp [Memory.get, h]

theorem Memory.get_write (m : Memory) (free : Nat → Byte) (a d : Nat) (b : Byte) :
    (m.write a b).get free d = if d = a then b else m.get free d := by
  by_cases h : d = a <;> simp [Memory.get, Memory.read_write, h]

/-- Where two memories read the same, they give the same byte. -/
theorem Memory.get_congr {m m' : Memory} {a : Nat} (free : Nat → Byte) (h : m.read a = m'.read a) :
    m.get free a = m'.get free a := by simp [Memory.get, h]

/-! ### The canonical form -/

/-- What stands in a memory after a write stood there before or is the written byte. -/
theorem Memory.mem_write {m : Memory} {a : Nat} {b : Byte} {c : Host.Cell} (h : c ∈ m.write a b) :
    c = (a, b) ∨ c ∈ m := by
  induction m with
  | nil => simp [Memory.write] at h; exact .inl h
  | cons d m ih =>
    simp only [Memory.write] at h
    split at h
    · simpa using h
    · split at h
      · rcases List.mem_cons.mp h with h | h
        · exact .inl h
        · exact .inr (List.mem_cons_of_mem _ h)
      · rcases List.mem_cons.mp h with h | h
        · exact .inr (h ▸ List.mem_cons_self)
        · exact (ih h).imp_right (List.mem_cons_of_mem _)

/-- A write keeps the canonical form. -/
theorem Memory.write_wf {m : Memory} (h : m.wf) (a : Nat) (b : Byte) : (m.write a b).wf := by
  induction m with
  | nil => simp [Memory.write]
  | cons c m ih =>
    obtain ⟨hc, hm⟩ := List.pairwise_cons.mp h
    simp only [Memory.write]
    split
    · rename_i hlt
      refine List.pairwise_cons.mpr ⟨fun d hd => ?_, h⟩
      rcases List.mem_cons.mp hd with rfl | hd
      · exact hlt
      · exact Nat.lt_trans hlt (hc d hd)
    · split
      · rename_i he
        refine List.pairwise_cons.mpr ⟨fun d hd => ?_, hm⟩
        simpa [he] using hc d hd
      · refine List.pairwise_cons.mpr ⟨fun d hd => ?_, ih hm⟩
        rcases Memory.mem_write hd with rfl | hd
        · show c.1 < a
          omega
        · exact hc d hd

/-- A well-formed memory, all of whose addresses lie below `n`. -/
structure Memory.Within (n : Nat) (m : Memory) : Prop where
  wf : m.wf
  bound : ∀ c ∈ m, c.1 < n

theorem Memory.Within.write {n : Nat} {m : Memory} (h : Memory.Within n m) {a : Nat} (ha : a < n) (b : Byte) :
    Memory.Within n (m.write a b) where
  wf := Memory.write_wf h.wf a b
  bound c hc := by
    rcases Memory.mem_write hc with rfl | hc
    · exact ha
    · exact h.bound c hc

theorem Memory.Within.writeBytes {n : Nat} {m : Memory} (h : Memory.Within n m) (a : Nat) (bs : List Byte)
    (ha : a + bs.length ≤ n) : Memory.Within n (m.writeBytes a bs) := by
  induction bs generalizing m a with
  | nil => exact h
  | cons b bs ih =>
    simp only [List.length_cons] at ha
    exact ih (h.write (by omega) b) (a + 1) (by omega)

theorem Memory.Within.mapBytes {n : Nat} {m : Memory} (h : Memory.Within n m) (free : Nat → Byte) (f : Byte → Byte)
    (k : Nat) (hk : k ≤ n) : Memory.Within n (m.mapBytes free f k) := by
  induction k with
  | zero => exact h
  | succ k ih => exact (ih (by omega)).write (by omega) _

theorem Memory.Within.swap {n : Nat} {m : Memory} (h : Memory.Within n m) (free : Nat → Byte) {i j : Nat} (hi : i < n)
    (hj : j < n) : Memory.Within n (m.swap free i j) := (h.write hi _).write hj _

theorem Memory.Within.permuteBlocks {n : Nat} {m : Memory} (h : Memory.Within n m) (free : Nat → Byte) (k : Nat)
    (hk : 16 * k ≤ n) : Memory.Within n (m.permuteBlocks free k) := by
  induction k with
  | zero => exact h
  | succ k ih => exact ((ih (by omega)).swap free (by omega) (by omega)).swap free (by omega) (by omega)

theorem Memory.Within.invPermuteBlocks {n : Nat} {m : Memory} (h : Memory.Within n m) (free : Nat → Byte) (k : Nat)
    (hk : 16 * k ≤ n) : Memory.Within n (m.invPermuteBlocks free k) := by
  induction k with
  | zero => exact h
  | succ k ih => exact ((ih (by omega)).swap free (by omega) (by omega)).swap free (by omega) (by omega)

theorem Memory.Within.writeLane {n : Nat} {m : Memory} (h : Memory.Within n m) (off : Nat) (d : Word) (strb : BitVec 4)
    (j : Nat) (hj : off + j < n) : Memory.Within n (m.writeLane off d strb j) := by
  unfold Memory.writeLane
  split
  · exact h.write hj _
  · exact h

/-! ### What the longer operations leave at every address -/

/-- `writeBytes` leaves its bytes in its range and every other address as it was. -/
theorem Memory.read_writeBytes (m : Memory) (a : Nat) (bs : List Byte) (d : Nat) :
    (m.writeBytes a bs).read d = if a ≤ d ∧ d < a + bs.length then bs[d - a]? else m.read d := by
  induction bs generalizing m a with
  | nil => simp [Memory.writeBytes]
  | cons b bs ih =>
    rw [Memory.writeBytes, ih, Memory.read_write, List.length_cons]
    by_cases h1 : a + 1 ≤ d ∧ d < a + 1 + bs.length
    · have h2 : a ≤ d ∧ d < a + (bs.length + 1) := by omega
      obtain ⟨k, rfl⟩ : ∃ k, d = a + 1 + k := ⟨d - (a + 1), by omega⟩
      rw [if_pos h1, if_pos h2, show a + 1 + k - a = k + 1 by omega, show a + 1 + k - (a + 1) = k by omega]
      simp
    · by_cases h3 : d = a
      · subst h3; simp
      · have h2 : ¬ (a ≤ d ∧ d < a + (bs.length + 1)) := by omega
        rw [if_neg h1, if_neg h3, if_neg h2]

/-- A byte-wise layer maps every byte below `n` and leaves every other address as it was. -/
theorem Memory.read_mapBytes (m : Memory) (free : Nat → Byte) (f : Byte → Byte) (n d : Nat) :
    (m.mapBytes free f n).read d = if d < n then some (f (m.get free d)) else m.read d := by
  induction n generalizing d with
  | zero => simp [Memory.mapBytes]
  | succ n ih =>
    simp only [Memory.mapBytes, Memory.read_write]
    by_cases h : d = n
    · subst h
      have : (m.mapBytes free f d).get free d = m.get free d := Memory.get_congr free (by simp [ih])
      simp [this]
    · simp only [h, if_false, ih]
      by_cases h2 : d < n
      · simp [h2, Nat.lt_succ_of_lt h2]
      · have h3 : ¬ d < n + 1 := by omega
        simp [h2, h3]

/-- A swap exchanges two bytes and leaves every other address as it was. -/
theorem Memory.read_swap (m : Memory) (free : Nat → Byte) (i j d : Nat) :
    (m.swap free i j).read d =
      if d = j then some (m.get free i) else if d = i then some (m.get free j) else m.read d := by
  simp [Memory.swap, Memory.read_write]

theorem permuteMoves_iff (a : Nat) :
    permuteMoves a = true ↔ (a % 16 = 0 ∨ a % 16 = 1) ∨ a % 16 = 14 ∨ a % 16 = 15 := by
  simp [permuteMoves, or_assoc]

theorem Memory.read_permuteBlock (m : Memory) (free : Nat → Byte) (k d : Nat) :
    (m.permuteBlock free (16 * k)).read d =
      if d / 16 = k ∧ permuteMoves d = true then some (m.get free (permutePos d)) else m.read d := by
  have hr : d % 16 < 16 := Nat.mod_lt _ (by omega)
  have hd := Nat.div_add_mod d 16
  simp only [Memory.permuteBlock, Memory.read_swap, Memory.get, permuteMoves_iff, permutePos]
  by_cases hk : d / 16 = k
  · subst hk
    have e0 : ∀ j, j < 16 → (d = 16 * (d / 16) + j ↔ d % 16 = j) := by intro j hj; omega
    have e1 : d = 16 * (d / 16) ↔ d % 16 = 0 := by omega
    by_cases h0 : d % 16 = 0
    · simp [e0, e1, h0, Nat.mul_comm (d / 16) 16]
    by_cases h1 : d % 16 = 1
    · simp [e0, h1, Nat.mul_comm (d / 16) 16]
    by_cases h14 : d % 16 = 14
    · simp [e0, h14, Nat.mul_comm (d / 16) 16]
    by_cases h15 : d % 16 = 15
    · simp [e0, h15, Nat.mul_comm (d / 16) 16]
    simp [e0, e1, h0, h1, h14, h15]
  · have e : ∀ j, j < 16 → ¬ d = 16 * k + j := by intro j hj; omega
    have e1 : ¬ d = 16 * k := by omega
    simp [hk, e, e1]

theorem Memory.read_invPermuteBlock (m : Memory) (free : Nat → Byte) (k d : Nat) :
    (m.invPermuteBlock free (16 * k)).read d =
      if d / 16 = k ∧ permuteMoves d = true then some (m.get free (permutePos d)) else m.read d := by
  have hr : d % 16 < 16 := Nat.mod_lt _ (by omega)
  have hd := Nat.div_add_mod d 16
  simp only [Memory.invPermuteBlock, Memory.read_swap, Memory.get, permuteMoves_iff, permutePos]
  by_cases hk : d / 16 = k
  · subst hk
    have e0 : ∀ j, j < 16 → (d = 16 * (d / 16) + j ↔ d % 16 = j) := by intro j hj; omega
    have e1 : d = 16 * (d / 16) ↔ d % 16 = 0 := by omega
    by_cases h0 : d % 16 = 0
    · simp [e0, e1, h0, Nat.mul_comm (d / 16) 16]
    by_cases h1 : d % 16 = 1
    · simp [e0, e1, h1, Nat.mul_comm (d / 16) 16]
    by_cases h14 : d % 16 = 14
    · simp [e0, e1, h14, Nat.mul_comm (d / 16) 16]
    by_cases h15 : d % 16 = 15
    · simp [e0, h15, Nat.mul_comm (d / 16) 16]
    simp [e0, e1, h0, h1, h14, h15]
  · have e : ∀ j, j < 16 → ¬ d = 16 * k + j := by intro j hj; omega
    have e1 : ¬ d = 16 * k := by omega
    simp [hk, e, e1]

theorem permutePos_block (a : Nat) : permutePos a / 16 = a / 16 := by
  unfold permutePos; omega

/-- `permute` on `k` blocks, at every address (R170). -/
theorem Memory.read_permuteBlocks (m : Memory) (free : Nat → Byte) (k d : Nat) :
    (m.permuteBlocks free k).read d =
      if d / 16 < k ∧ permuteMoves d = true then some (m.get free (permutePos d)) else m.read d := by
  induction k generalizing d with
  | zero => simp [Memory.permuteBlocks]
  | succ k ih =>
    have hp := permutePos_block d
    simp only [Memory.permuteBlocks, Memory.read_permuteBlock, Memory.get, ih]
    by_cases hk : d / 16 = k
    · have h1 : ¬ permutePos d / 16 < k := by omega
      simp [h1, hk]
    · have h2 : d / 16 < k + 1 ↔ d / 16 < k := by omega
      simp [hk, h2]

/-- `inverse_permute` on `k` blocks, at every address (R171). -/
theorem Memory.read_invPermuteBlocks (m : Memory) (free : Nat → Byte) (k d : Nat) :
    (m.invPermuteBlocks free k).read d =
      if d / 16 < k ∧ permuteMoves d = true then some (m.get free (permutePos d)) else m.read d := by
  induction k generalizing d with
  | zero => simp [Memory.invPermuteBlocks]
  | succ k ih =>
    have hp := permutePos_block d
    simp only [Memory.invPermuteBlocks, Memory.read_invPermuteBlock, Memory.get, ih]
    by_cases hk : d / 16 = k
    · have h1 : ¬ permutePos d / 16 < k := by omega
      simp [h1, hk]
    · have h2 : d / 16 < k + 1 ↔ d / 16 < k := by omega
      simp [hk, h2]

/-- One lane of a strobed write to the buffer window. -/
theorem Memory.read_writeLane (m : Memory) (off : Nat) (d : Word) (strb : BitVec 4) (j a : Nat) :
    (m.writeLane off d strb j).read a =
      if a = off + j ∧ strb.getLsbD j = true then some (lane d j) else m.read a := by
  unfold Memory.writeLane
  by_cases h : strb.getLsbD j = true <;> simp [h, Memory.read_write]

end Sys2Proof.Machine
end

