-- ==== Sys2Proof/Laws/Buffer.lean ====
section
/-! SUPPORT. What each layer and the padding codec leave at every byte of the buffer, in the state's own terms
(`peek`: what stands there; `bufByte`: what a read gives). -/

namespace Sys2Proof.Machine

/-- A byte that stands in the buffer is what a read gives. -/
theorem State.bufByte_of_peek {s : State} {a : Nat} {b : Byte} (h : s.peek a = some b) : s.bufByte a = b :=
  Memory.get_of_read _ h

/-- What a read gives, from what stands there. -/
theorem State.bufByte_eq (s : State) (a : Nat) : s.bufByte a = (s.peek a).getD (Config.freeByte s.epoch a) := rfl

/-- Two states with the same counter read the same byte where the same byte stands. -/
theorem State.bufByte_congr {s t : State} {a : Nat} (he : t.epoch = s.epoch) (h : t.peek a = s.peek a) :
    t.bufByte a = s.bufByte a := by rw [State.bufByte_eq, State.bufByte_eq, he, h]

/-- Equal buffers hold the same bytes. -/
theorem State.peek_of_buf {s t : State} (h : t.buf = s.buf) (a : Nat) : t.peek a = s.peek a := by
  rw [State.peek, State.peek, h]

@[simp] theorem State.peek_complete (s : State) (a : Nat) : s.complete.peek a = s.peek a := rfl
@[simp] theorem State.peek_raise (s : State) (e : Error) (a : Nat) : (s.raise e).peek a = s.peek a := rfl
@[simp] theorem State.peek_accept (s : State) (w : Word) (a : Nat) : (s.accept w).peek a = s.peek a := rfl
@[simp] theorem State.peek_drawNonce (s : State) (a : Nat) : s.drawNonce.peek a = s.peek a := rfl
@[simp] theorem State.bufByte_drawNonce (s : State) (a : Nat) : s.drawNonce.bufByte a = s.bufByte a := rfl
@[simp] theorem State.peek_deriveLatches (s : State) (a : Nat) : s.deriveLatches.peek a = s.peek a := rfl
@[simp] theorem State.bufByte_deriveLatches (s : State) (a : Nat) : s.deriveLatches.bufByte a = s.bufByte a := rfl

@[simp] theorem State.peek_finishRemovePadding (s : State) (m a : Nat) :
    (s.finishRemovePadding m).peek a = s.peek a := State.peek_of_buf (State.finishRemovePadding_buf s m) a

/-! ### The byte-wise layers -/

theorem State.peek_mapLayer (s : State) (f : Byte → Byte) (m a : Nat) :
    (s.mapLayer f m).peek a = if a < m then some (f (s.bufByte a)) else s.peek a :=
  Memory.read_mapBytes _ _ _ _ _

theorem State.bufByte_mapLayer (s : State) (f : Byte → Byte) (m a : Nat) :
    (s.mapLayer f m).bufByte a = if a < m then f (s.bufByte a) else s.bufByte a := by
  rw [State.bufByte_eq, State.peek_mapLayer]
  split <;> rfl

/-- `xor_with_key` (R180). -/
theorem State.peek_xorLayer (s : State) (k : Byte) (m a : Nat) :
    (s.xorLayer k m).peek a = if a < m then some (s.bufByte a ^^^ k) else s.peek a :=
  State.peek_mapLayer _ _ _ _

theorem State.bufByte_xorLayer (s : State) (k : Byte) (m a : Nat) :
    (s.xorLayer k m).bufByte a = if a < m then s.bufByte a ^^^ k else s.bufByte a :=
  State.bufByte_mapLayer _ _ _ _

/-- `substitute` (R152). -/
theorem State.peek_substLayer (s : State) (m a : Nat) :
    (s.substLayer m).peek a = if a < m then some (sboxAt s.params (s.bufByte a)) else s.peek a :=
  State.peek_mapLayer _ _ _ _

theorem State.bufByte_substLayer (s : State) (m a : Nat) :
    (s.substLayer m).bufByte a = if a < m then sboxAt s.params (s.bufByte a) else s.bufByte a :=
  State.bufByte_mapLayer _ _ _ _

/-- `inverse_substitute` (R153). -/
theorem State.peek_invSubstLayer (s : State) (m a : Nat) :
    (s.invSubstLayer m).peek a = if a < m then some (invSboxAt s.params (s.bufByte a)) else s.peek a :=
  State.peek_mapLayer _ _ _ _

theorem State.bufByte_invSubstLayer (s : State) (m a : Nat) :
    (s.invSubstLayer m).bufByte a = if a < m then invSboxAt s.params (s.bufByte a) else s.bufByte a :=
  State.bufByte_mapLayer _ _ _ _

/-! ### The permutation layers -/

/-- `permute` (R170). -/
theorem State.peek_permuteLayer (s : State) (m a : Nat) :
    (s.permuteLayer m).peek a =
      if a / 16 < m / 16 ∧ permuteMoves a = true then some (s.bufByte (permutePos a)) else s.peek a :=
  Memory.read_permuteBlocks _ _ _ _

/-- `inverse_permute` (R171). -/
theorem State.peek_invPermuteLayer (s : State) (m a : Nat) :
    (s.invPermuteLayer m).peek a =
      if a / 16 < m / 16 ∧ permuteMoves a = true then some (s.bufByte (permutePos a)) else s.peek a :=
  Memory.read_invPermuteBlocks _ _ _ _

/-- The byte that a read gives after `permute` on full blocks. -/
theorem State.bufByte_permuteLayer (s : State) (m a : Nat) :
    (s.permuteLayer m).bufByte a = if a / 16 < m / 16 then s.bufByte (specPermute a) else s.bufByte a := by
  rw [State.bufByte_eq, State.peek_permuteLayer]
  by_cases h : a / 16 < m / 16 <;> cases hm : permuteMoves a <;> simp [h, hm, specPermute, State.bufByte_eq]

/-- The byte that a read gives after `inverse_permute` on full blocks. -/
theorem State.bufByte_invPermuteLayer (s : State) (m a : Nat) :
    (s.invPermuteLayer m).bufByte a = if a / 16 < m / 16 then s.bufByte (specPermute a) else s.bufByte a := by
  rw [State.bufByte_eq, State.peek_invPermuteLayer]
  by_cases h : a / 16 < m / 16 <;> cases hm : permuteMoves a <;> simp [h, hm, specPermute, State.bufByte_eq]

/-- The permutation of a block is its own inverse (R174). -/
theorem specPermute_specPermute (a : Nat) : specPermute (specPermute a) = a := by
  unfold specPermute
  by_cases h : permuteMoves a = true
  · have h2 : permuteMoves (permutePos a) = true := by
      rw [permuteMoves_iff] at h ⊢
      unfold permutePos; omega
    rw [if_pos h, if_pos h2]
    unfold permutePos; omega
  · rw [if_neg h, if_neg h]

/-- The permutation stays in its block. -/
theorem specPermute_block (a : Nat) : specPermute a / 16 = a / 16 := by
  unfold specPermute
  split
  · exact permutePos_block a
  · rfl

/-! ### Padding -/

theorem paddedLen_mod (n : Nat) : paddedLen n % 16 = 0 := by unfold paddedLen fillerLen; omega

/-- The padded length of a payload that fits a buffer fits it too (R223). -/
theorem paddedLen_le {n c : Nat} (hc : c % 16 = 0) (h : 8 + n ≤ c) : paddedLen n ≤ c := by
  unfold paddedLen fillerLen; omega

theorem paddedLen_ge (n : Nat) : 8 + n ≤ paddedLen n := by unfold paddedLen; omega

theorem paddedLen_lt (n : Nat) : paddedLen n < 8 + n + 16 := by unfold paddedLen fillerLen; omega

/-- The padded length of a payload that fits a well-formed buffer is a 32-bit value. -/
theorem paddedLen_toNat {n c : Nat} (hc : c % 16 = 0) (hc2 : c ≤ 0xF000) (h : 8 + n ≤ c) :
    (BitVec.ofNat 32 (paddedLen n)).toNat = paddedLen n := by
  have := paddedLen_le hc h
  rw [BitVec.toNat_ofNat, Nat.mod_eq_of_lt (by omega)]

theorem prbgFrom_length (n : Nat) (s : DWord) : (prbgFrom n s).1.length = n := by
  induction n generalizing s with
  | zero => rfl
  | succ n ih => simp [prbgFrom, ih]

theorem prbgBytes_length (k : Byte) (n : Nat) : (prbgBytes k n).1.length = n := prbgFrom_length n _

theorem be64_length (n : Nat) : (be64 n).length = 8 := by simp [be64]

theorem be64_getElem? (n : Nat) {k : Nat} (hk : k < 8) : (be64 n)[k]? = some (be64Byte n k) := by
  simp [be64, hk]

/-- The padding codec's writes, at every byte (R130, R133). -/
theorem State.peek_padBuffer (s : State) (k2 : Byte) (n a : Nat) :
    (s.padBuffer k2 n).peek a =
      if a < 8 then some (be64Byte n a)
      else if 8 + n ≤ a ∧ a < paddedLen n then (prbgBytes k2 (fillerLen n)).1[a - (8 + n)]?
      else s.peek a := by
  rw [State.peek, State.padBuffer_buf, Memory.read_writeBytes, Memory.read_writeBytes, prbgBytes_length, be64_length]
  by_cases h8 : a < 8
  · rw [if_neg (by omega), if_pos ⟨by omega, by omega⟩, if_pos h8, Nat.sub_zero, be64_getElem? n h8]
  · rw [if_neg (show ¬ (0 ≤ a ∧ a < 0 + 8) by omega), if_neg h8]
    rfl

/-- The padded buffer stays inside a buffer that the payload fits. -/
theorem State.padBuffer_within {s : State} {c n : Nat} (k : Byte) (h : Memory.Within c s.buf) (hc : c % 16 = 0)
    (hn : 8 + n ≤ c) : Memory.Within c (s.padBuffer k n).buf := by
  have := paddedLen_le hc hn
  unfold paddedLen at this
  rw [State.padBuffer_buf]
  exact (h.writeBytes 0 _ (by rw [be64_length]; omega)).writeBytes _ _ (by rw [prbgBytes_length]; omega)

end Sys2Proof.Machine
end

