-- ==== Sys2Proof/Laws/Bus.lean ====
section
/-! SUPPORT. The laws of byte lanes, of the address map and of the well-formed configuration's size. -/

namespace Sys2Proof.Machine

/-! ### Lanes -/

/-- Two words whose four lanes agree are equal. -/
theorem eq_of_lanes {v w : Word} (h : ∀ j < 4, lane v j = lane w j) : v = w := by
  ext i hi
  have hj := h (i / 8) (by omega)
  have hb := congrArg (fun b : Byte => b.getLsbD (i % 8)) hj
  have h8 : i % 8 < 8 := Nat.mod_lt _ (by omega)
  have hi' : 8 * (i / 8) + i % 8 = i := Nat.div_add_mod i 8
  simpa [lane, h8, hi', BitVec.getLsbD_eq_getElem, hi] using hb

theorem lane_ofLanes (b0 b1 b2 b3 : Byte) :
    lane (ofLanes b0 b1 b2 b3) 0 = b0 ∧ lane (ofLanes b0 b1 b2 b3) 1 = b1 ∧
    lane (ofLanes b0 b1 b2 b3) 2 = b2 ∧ lane (ofLanes b0 b1 b2 b3) 3 = b3 := by
  have sub : ∀ i, 8 + i - 8 = i ∧ 16 + i - 16 = i ∧ 24 + i - 16 - 8 = i := fun i => by omega
  have out : ∀ i, ¬ 8 + i < 8 ∧ ¬ 16 + i < 16 ∧ ¬ 24 + i < 16 ∧ ¬ 24 + i - 16 < 8 := fun i => by omega
  unfold lane ofLanes
  refine ⟨?_, ?_, ?_, ?_⟩ <;>
  · ext i hi
    have h16 : i < 16 := by omega
    have h816 : 8 + i < 16 := by omega
    simp only [BitVec.getElem_extractLsb', BitVec.getLsbD_append]
    simp [hi, h16, h816, sub i, out i, BitVec.getLsbD_eq_getElem]

/-- A strobed write replaces the strobed lanes and keeps the others (R63). -/
theorem lane_mergeLanes (old data : Word) (strb : BitVec 4) {j : Nat} (hj : j < 4) :
    lane (mergeLanes old data strb) j = if strb.getLsbD j then lane data j else lane old j := by
  obtain ⟨h0, h1, h2, h3⟩ := lane_ofLanes (laneMerge old data strb 0) (laneMerge old data strb 1)
    (laneMerge old data strb 2) (laneMerge old data strb 3)
  have : j = 0 ∨ j = 1 ∨ j = 2 ∨ j = 3 := by omega
  rcases this with rfl | rfl | rfl | rfl
  · exact h0
  · exact h1
  · exact h2
  · exact h3

/-- A write of no lane keeps the old value. -/
theorem mergeLanes_zero (old data : Word) : mergeLanes old data 0 = old :=
  eq_of_lanes fun j hj => by rw [lane_mergeLanes old data 0 hj]; simp

/-! ### Addresses -/

/-- `addr & 0xFFFC` is the address rounded down to a multiple of 4 (R60). -/
theorem wordAddr_eq (a : Addr) : wordAddr a = a.toNat / 4 * 4 := by
  have h : ∀ n, n < 2 ^ 16 → n &&& 65532 = n / 4 * 4 := by
    intro n hn
    apply Nat.eq_of_testBit_eq
    intro i
    rw [Nat.testBit_and, show n / 4 * 4 = (n / 2 ^ 2) * 2 ^ 2 from rfl, Nat.testBit_mul_two_pow,
      Nat.testBit_div_two_pow]
    by_cases hi : i < 16
    · have h16 : i = 0 ∨ i = 1 ∨ i = 2 ∨ i = 3 ∨ i = 4 ∨ i = 5 ∨ i = 6 ∨ i = 7 ∨ i = 8 ∨ i = 9 ∨ i = 10 ∨ i = 11 ∨
          i = 12 ∨ i = 13 ∨ i = 14 ∨ i = 15 := by omega
      rcases h16 with h | h | h | h | h | h | h | h | h | h | h | h | h | h | h | h <;> subst h <;>
        simp [Nat.testBit, Nat.shiftRight_eq_div_pow]
    · have hz : n.testBit i = false := Nat.testBit_lt_two_pow (Nat.lt_of_lt_of_le hn (Nat.pow_le_pow_right (by omega) (by omega)))
      have : 2 ≤ i := by omega
      simp [hz, this]
  have := h a.toNat a.isLt
  simpa [wordAddr] using this

/-- The low bits of an address do not matter to what it selects (R64). -/
theorem targetOf_congr (n : Nat) {a b : Addr} (h : a.toNat / 4 = b.toNat / 4) : targetOf n a = targetOf n b := by
  simp [targetOf, wordAddr_eq, h]

/-- A well-formed configuration's buffer size (R6). -/
theorem Params.wf_bufBytes {p : Params} (h : p.wf = true) :
    p.bufBytes % 16 = 0 ∧ 16 ≤ p.bufBytes ∧ p.bufBytes ≤ 0xF000 := by
  simp [Params.wf, Params.bufBytesOk] at h
  omega

/-- An address of the buffer window selects the word of `BUF` it maps to (R68). -/
theorem targetOf_window {n : Nat} (hn : n % 16 = 0) {a : Addr} (h1 : 0x1000 ≤ a.toNat) (h2 : a.toNat < 0x1000 + n) :
    targetOf n a = .window (a.toNat / 4 * 4 - 0x1000) := by
  have : 0x1000 ≤ a.toNat / 4 * 4 ∧ a.toNat / 4 * 4 < 0x1000 + n := by omega
  simp [targetOf, wordAddr_eq, this]

/-- An address outside the buffer window selects what the register map gives its word offset (R66, R67). -/
theorem targetOf_map {n : Nat} (hn : n % 16 = 0) {a : Addr} (h : a.toNat < 0x1000 ∨ 0x1000 + n ≤ a.toNat) :
    targetOf n a = (regAt (a.toNat / 4 * 4)).elim .reserved .reg := by
  have : ¬ (0x1000 ≤ a.toNat / 4 * 4 ∧ a.toNat / 4 * 4 < 0x1000 + n) := by omega
  simp only [targetOf, wordAddr_eq, if_neg this]
  cases regAt (a.toNat / 4 * 4) <;> rfl

/-- Above the register block the register map is empty. -/
theorem regAt_none {off : Nat} (h : 0x40 ≤ off) : regAt off = none := by
  unfold regAt
  split <;> first | rfl | omega

/-! ### Registers -/

/-- A concatenation, as a number. -/
theorem toNat_append_eq {n m : Nat} (x : BitVec n) (y : BitVec m) :
    (x ++ y).toNat = x.toNat * 2 ^ m + y.toNat := by
  rw [BitVec.toNat_append, ← Nat.shiftLeft_add_eq_or_of_lt y.isLt, Nat.shiftLeft_eq]

/-- The word STATUS, as a number (R25). -/
theorem State.statusWord_toNat (s : State) :
    s.statusWord.toNat =
      s.busy.toNat + 2 * s.done.toNat + 4 * s.err.toNat + 2 ^ 8 * s.errcode.toNat + 2 ^ 16 * s.lastOp.toNat := by
  have h := toNat_append_eq (0#8 ++ s.lastOp)
    (s.errcode ++ (0#5 ++ (BitVec.ofBool s.err ++ (BitVec.ofBool s.done ++ BitVec.ofBool s.busy))))
  refine Eq.trans h ?_
  rw [toNat_append_eq, toNat_append_eq, toNat_append_eq, toNat_append_eq, toNat_append_eq]
  simp only [BitVec.toNat_ofBool, BitVec.toNat_ofNat]
  omega

/-- The word KEYS, as a number (R29). -/
theorem State.keysWord_toNat (s : State) : (s.readReg .keys).toNat = s.keyK1.toNat + 2 ^ 8 * s.keyK2.toNat := by
  have h := toNat_append_eq s.keyK2 s.keyK1
  have h1 := s.keyK1.isLt
  have h2 := s.keyK2.isLt
  show (BitVec.setWidth 32 (s.keyK2 ++ s.keyK1)).toNat = _
  rw [BitVec.toNat_setWidth, h]
  omega

/-- The fields of KEYS and NONCE_LEN, as lanes of the words they are read as (R28, R29). -/
theorem lane_readReg_fields (s : State) :
    lane (s.readReg .nonceLen) 0 = s.nonceLen ∧ lane (s.readReg .keys) 0 = s.keyK1 ∧
    lane (s.readReg .keys) 1 = s.keyK2 := by
  unfold lane State.readReg
  refine ⟨?_, ?_, ?_⟩
  · ext i hi
    simp only [BitVec.getElem_extractLsb', BitVec.getLsbD_setWidth]
    simp [hi, show i < 32 by omega, BitVec.getLsbD_eq_getElem]
  · ext i hi
    simp only [BitVec.getElem_extractLsb', BitVec.getLsbD_setWidth, BitVec.getLsbD_append]
    simp [hi, show i < 32 by omega, BitVec.getLsbD_eq_getElem]
  · ext i hi
    simp only [BitVec.getElem_extractLsb', BitVec.getLsbD_setWidth, BitVec.getLsbD_append]
    simp [hi, show 8 + i < 32 by omega, BitVec.getLsbD_eq_getElem]

/-- The two halves of a 64-bit register make it up (R30). -/
theorem dword_halves (x : DWord) : x.extractLsb' 32 32 ++ x.extractLsb' 0 32 = x := by
  ext i hi
  simp only [BitVec.getElem_append, BitVec.getElem_extractLsb']
  split
  · simp [BitVec.getLsbD_eq_getElem, hi]
  · simp [show 32 + (i - 32) = i by omega, BitVec.getLsbD_eq_getElem, hi]

/-- Byte `4*w + j` of the nonce bank after its word `w` was replaced (R35). -/
theorem State.setNonceWord_nonce (s : State) (w : Fin 4) (v : Word) (i : Nat) (hi : i < 16) :
    (s.setNonceWord w v).nonce[i] = if i / 4 = w.val then lane v (i % 4) else s.nonce[i] := by
  have hw := w.isLt
  simp only [State.setNonceWord, Vector.getElem_set]
  by_cases h : i / 4 = w.val
  · have : i = 4 * w.val ∨ i = 4 * w.val + 1 ∨ i = 4 * w.val + 2 ∨ i = 4 * w.val + 3 := by omega
    rcases this with rfl | rfl | rfl | rfl <;> simp [h]
  · have e : ∀ j < 4, ¬ 4 * w.val + j = i := by intro j hj; omega
    simp [h, e 1, e 2, e 3, show ¬ 4 * w.val = i by omega]

/-- Byte `j` of word `w` of the nonce bank (R35, R60). -/
theorem State.lane_nonceWord (s : State) (w : Fin 4) (j : Nat) (hj : j < 4) :
    lane (s.nonceWord w) j = s.nonce[4 * w.val + j]'(by omega) := by
  obtain ⟨h0, h1, h2, h3⟩ := lane_ofLanes (s.nonce[4 * w.val]) (s.nonce[4 * w.val + 1]) (s.nonce[4 * w.val + 2])
    (s.nonce[4 * w.val + 3])
  have : j = 0 ∨ j = 1 ∨ j = 2 ∨ j = 3 := by omega
  rcases this with rfl | rfl | rfl | rfl
  · exact h0
  · exact h1
  · exact h2
  · exact h3

/-- What a read of the buffer window shows of a byte that has been written (R60, R62). -/
theorem State.lane_readWindow (s : State) (off : Nat) {j : Nat} (hj : j < 4) :
    lane (s.readWindow off) j = s.bufByte (off + j) := by
  obtain ⟨h0, h1, h2, h3⟩ := lane_ofLanes (s.bufByte off) (s.bufByte (off + 1)) (s.bufByte (off + 2))
    (s.bufByte (off + 3))
  have : j = 0 ∨ j = 1 ∨ j = 2 ∨ j = 3 := by omega
  rcases this with rfl | rfl | rfl | rfl
  · exact h0
  · exact h1
  · exact h2
  · exact h3

/-- Writing back what a register reads as changes nothing. -/
theorem State.writeReg_readReg (s : State) (r : Reg) : s.writeReg r (s.readReg r) = s := by
  have hn : ∀ w : Fin 4, s.setNonceWord w (s.nonceWord w) = s := by
    intro w
    have : (s.setNonceWord w (s.nonceWord w)).nonce = s.nonce := by
      ext i hi
      rw [State.setNonceWord_nonce _ _ _ _ hi]
      split
      · rename_i h
        rw [State.lane_nonceWord _ _ _ (Nat.mod_lt _ (by omega))]
        congr 2
        omega
      · rfl
    calc s.setNonceWord w (s.nonceWord w) = { s with nonce := (s.setNonceWord w (s.nonceWord w)).nonce } := rfl
      _ = s := by rw [this]
  obtain ⟨h1, h2, h3⟩ := lane_readReg_fields s
  cases r with
  | nonceLen => simp only [State.writeReg, h1]
  | keys => simp only [State.writeReg, h2, h3]
  | prbgStateLo => simp only [State.writeReg, State.readReg, dword_halves]
  | prbgStateHi => simp only [State.writeReg, State.readReg, dword_halves]
  | nonce0 => exact hn 0
  | nonce1 => exact hn 1
  | nonce2 => exact hn 2
  | nonce3 => exact hn 3
  | _ => rfl

end Sys2Proof.Machine
end

