-- ==== Sys2Proof/Laws/Encoding.lean ====
section
/-! SUPPORT. The laws of decoding and encoding: the fields of an encoded command, a word from its fields, what selects a
row of R94. -/

namespace Sys2Proof

/-- The fields of the word of a command (R90, R100). -/
theorem encode_fields (i : Instr) :
    cmdRsvd (encode i) = 0 ∧ cmdImm8 (encode i) = i.imm8 ∧ cmdOpcode (encode i) = i.opcode := by
  unfold cmdRsvd cmdImm8 cmdOpcode encode
  refine ⟨?_, ?_, ?_⟩ <;>
  · ext j hj
    simp only [BitVec.getElem_extractLsb', BitVec.getLsbD_append]
    have : ∀ k, ¬ 8 + k < 8 := by omega
    have : ∀ k, ¬ 16 + k < 8 := by omega
    have : ∀ k, ¬ 16 + k - 8 < 8 := by omega
    simp [*, BitVec.getLsbD_eq_getElem]

/-- A word is its three fields (R90). -/
theorem word_of_fields (w : Word) : (cmdRsvd w ++ cmdImm8 w) ++ cmdOpcode w = w := by
  unfold cmdRsvd cmdImm8 cmdOpcode
  ext j hj
  simp only [BitVec.getElem_append, BitVec.getElem_extractLsb']
  split
  · simp [BitVec.getLsbD_eq_getElem, hj]
  · split
    · have : 8 + (j - 8) = j := by omega
      simp [this, BitVec.getLsbD_eq_getElem, hj]
    · have : 16 + (j - 8 - 8) = j := by omega
      simp [this, BitVec.getLsbD_eq_getElem, hj]

/-- A row is selected exactly by its opcode, and its `IMM8` is the word's (R94). -/
theorem decodeOpcode_eq_some (op imm : Byte) (i : Instr) :
    decodeOpcode op imm = some i ↔ op = i.opcode ∧ imm = i.imm8 := by
  constructor
  · intro h
    unfold decodeOpcode at h
    split at h <;> simp at h <;> subst h <;> simp [Instr.opcode, Instr.imm8]
  · rintro ⟨rfl, rfl⟩
    cases i <;> rfl

/-- The opcodes that select no row (R96). -/
theorem decodeOpcode_eq_none (op imm : Byte) :
    decodeOpcode op imm = none ↔
      (0x05 ≤ op.toNat ∧ op.toNat ≤ 0x0F) ∨ (0x18 ≤ op.toNat ∧ op.toNat ≤ 0x1F) ∨ 0x24 ≤ op.toNat := by
  simp only [decodeOpcode]
  have h : ∀ x : Fin 256,
      ((match BitVec.ofFin (w := 8) x with
        | 0x00#8 | 0x01#8 | 0x02#8 | 0x03#8 | 0x04#8 | 0x10#8 | 0x11#8 | 0x12#8 | 0x13#8 | 0x14#8 | 0x15#8 | 0x16#8
        | 0x17#8 | 0x20#8 | 0x21#8 | 0x22#8 | 0x23#8 => false
        | _ => true) = true ↔
        (0x05 ≤ x.val ∧ x.val ≤ 0x0F) ∨ (0x18 ≤ x.val ∧ x.val ≤ 0x1F) ∨ 0x24 ≤ x.val) := by
    decide +kernel
  have h' := h op.toFin
  have e : BitVec.ofFin op.toFin = op := rfl
  rw [e] at h'
  rw [show op.toNat = op.toFin.val from rfl, ← h']
  split <;> simp

/-- A word whose reserved bits are 0 and whose opcode selects a row decodes to it (R97). -/
theorem decode_of_fields {w : Word} {i : Instr} (hr : cmdRsvd w = 0) (ho : cmdOpcode w = i.opcode)
    (hi : cmdImm8 w = i.imm8) : decode w = .ok i := by
  have h := (decodeOpcode_eq_some (cmdOpcode w) (cmdImm8 w) i).mpr ⟨ho, hi⟩
  simp [decode, hr, h]

end Sys2Proof
end

