-- ==== Sys2Proof/Laws/Formulas.lean ====
section
/-! SUPPORT. The machine's computations equal the spec's formulas of Safety.lean: the generator, the key derivation, the
big-endian length, the inverse table. -/

namespace Sys2Proof.Machine

/-! ### lcg_prbg -/

/-- One update, as a number (R110). -/
theorem lcgStep_toNat (s : DWord) : (lcgStep s).toNat = specLcg s.toNat := by
  have h : ∀ x a c : DWord, (x * a + c).toNat = (x.toNat * a.toNat + c.toNat) % 2 ^ 64 := by
    intro x a c
    rw [BitVec.toNat_add, BitVec.toNat_mul, Nat.mod_add_mod]
  have ha : (1664525#64).toNat = 1664525 := by decide
  have hc : (1013904223#64).toNat = 1013904223 := by decide
  rw [lcgStep, h, ha, hc, specLcg]

/-- The output byte, as a number: bits 23 to 16 of the state (R111). -/
theorem lcgOut_eq (s : DWord) : lcgOut s = BitVec.ofNat 8 (s.toNat / 2 ^ 16) := by
  simp [lcgOut, BitVec.extractLsb', Nat.shiftRight_eq_div_pow]

theorem lcgStep_iterate_toNat (n : Nat) (s : DWord) : (lcgStep^[n] s).toNat = specLcg^[n] s.toNat := by
  induction n generalizing s with
  | zero => rfl
  | succ n ih => rw [Function.iterate_succ_apply, Function.iterate_succ_apply, ih, lcgStep_toNat]

theorem prbgFrom_succ (n : Nat) (s : DWord) :
    prbgFrom (n + 1) s =
      (lcgOut (lcgStep s) :: (prbgFrom n (lcgStep s)).1, (prbgFrom n (lcgStep s)).2) := rfl

/-- Output byte `k` of a generator in state `s` (R111, R114). -/
theorem prbgFrom_getElem? (n : Nat) (s : DWord) {k : Nat} (hk : k < n) :
    (prbgFrom n s).1[k]? = some (lcgOut (lcgStep^[k + 1] s)) := by
  induction n generalizing s k with
  | zero => omega
  | succ n ih =>
    rw [prbgFrom_succ, Function.iterate_succ_apply]
    cases k with
    | zero => rw [List.getElem?_cons_zero, Function.iterate_zero_apply]
    | succ k => rw [List.getElem?_cons_succ, ih (lcgStep s) (by omega)]

/-- Output byte `k` of `prbg_bytes(seed, n)` (R114). -/
theorem prbgBytes_getElem? (seed : Byte) (n : Nat) {k : Nat} (hk : k < n) :
    (prbgBytes seed n).1[k]? = some (specPrbgByte seed k) := by
  have h : (seed.setWidth 64).toNat = seed.toNat := by
    rw [BitVec.toNat_setWidth]
    exact Nat.mod_eq_of_lt (Nat.lt_trans seed.isLt (by decide))
  rw [prbgBytes, prbgFrom_getElem? n _ hk, lcgOut_eq, lcgStep_iterate_toNat, h, specPrbgByte]

/-! ### Big-endian lengths -/

/-- Byte `k` of `be64(n)` (R9). -/
theorem be64Byte_eq (n k : Nat) : be64Byte n k = BitVec.ofNat 8 (n / 256 ^ (7 - k)) := by
  rw [be64Byte, Nat.shiftRight_eq_div_pow, Nat.pow_mul]

/-- `from_be64` on 8 bytes, in any base. -/
theorem horner_eight (B : Nat) (b : Nat → Byte) :
    ((List.range 8).map b).foldl (fun acc x => acc * B + x.toNat) 0 =
      ((List.range 8).map fun k => (b k).toNat * B ^ (7 - k)).sum := by
  simp only [List.range_succ, List.range_zero, List.nil_append, List.cons_append, List.map_cons, List.map_nil,
    List.sum_cons, List.sum_nil, List.foldl_cons, List.foldl_nil]
  ring

/-- `from_be64` on 8 bytes (R9). -/
theorem fromBe64_range (b : Nat → Byte) : fromBe64 ((List.range 8).map b) = specFromBe64 b := horner_eight 256 b

/-- `specFromBe64` reads bytes 0 to 7 only. -/
theorem specFromBe64_congr {b c : Nat → Byte} (h : ∀ k < 8, b k = c k) : specFromBe64 b = specFromBe64 c := by
  unfold specFromBe64
  exact congrArg List.sum (List.map_congr_left fun k hk => by rw [h k (List.mem_range.mp hk)])

/-- `from_be64` of the length field that stands at the start of the buffer (R132). -/
theorem fromBe64_memRead (s : State) : fromBe64 (s.memRead 0 8) = specFromBe64 s.bufByte := by
  rw [State.memRead, fromBe64_range]
  exact specFromBe64_congr fun k _ => by rw [Nat.zero_add]

/-- The digits of a number in base `B`, summed again. -/
theorem digits_sum (B n m : Nat) :
    ((List.range m).map fun k => n / B ^ (m - 1 - k) % B * B ^ (m - 1 - k)).sum = n % B ^ m := by
  induction m with
  | zero => simp [Nat.mod_one]
  | succ m ih =>
    rw [List.range_succ_eq_map, List.map_cons, List.sum_cons, List.map_map, Nat.pow_succ, Nat.mod_mul, ← ih]
    have : m + 1 - 1 - 0 = m := by omega
    rw [this, Nat.add_comm, Nat.mul_comm]
    congr 2
    refine List.map_congr_left fun k _ => ?_
    have : m + 1 - 1 - (k + 1) = m - 1 - k := by omega
    simp only [Function.comp, this, Nat.succ_eq_add_one]

/-- `from_be64` is the inverse of `be64` (R9). -/
theorem specFromBe64_be64 {n : Nat} (hn : n < 256 ^ 8) {b : Nat → Byte} (h : ∀ k < 8, b k = be64Byte n k) :
    specFromBe64 b = n := by
  rw [specFromBe64_congr h]
  refine Eq.trans ?_ (Nat.mod_eq_of_lt hn)
  rw [← digits_sum 256 n 8]
  unfold specFromBe64
  refine congrArg List.sum (List.map_congr_left fun k _ => ?_)
  rw [be64Byte_eq, BitVec.toNat_ofNat]

/-- The padded buffer that `add_padding` leaves, byte by byte (R130). -/
theorem State.peek_padBuffer_spec (s : State) (k2 : Byte) {n a : Nat} (ha : a < paddedLen n) :
    (s.padBuffer k2 n).peek a = some (s.specPadded k2 n a) ∨
      (8 ≤ a ∧ a < 8 + n ∧ (s.padBuffer k2 n).peek a = s.peek a ∧ s.specPadded k2 n a = s.bufByte a) := by
  rw [State.peek_padBuffer]
  unfold State.specPadded
  by_cases h8 : a < 8
  · exact .inl (by rw [if_pos h8, if_pos h8, be64Byte_eq])
  · by_cases hn : a < 8 + n
    · rw [if_neg h8, if_neg (by omega), if_neg h8, if_pos hn]
      exact .inr ⟨by omega, hn, rfl, rfl⟩
    · rw [if_neg h8, if_pos ⟨by omega, ha⟩, if_neg h8, if_neg hn]
      exact .inl (prbgBytes_getElem? k2 _ (by unfold paddedLen at ha; omega))

/-- What a read gives of the padded buffer (R130). -/
theorem State.bufByte_padBuffer (s : State) (k2 : Byte) {n a : Nat} (ha : a < paddedLen n) :
    (s.padBuffer k2 n).bufByte a = s.specPadded k2 n a := by
  rcases s.peek_padBuffer_spec k2 ha with h | ⟨_, _, h, hs⟩
  · exact State.bufByte_of_peek h
  · rw [hs]
    exact State.bufByte_congr (State.padBuffer_epoch s k2 n) h

/-! ### Key derivation -/

theorem rotl64_eq (x : DWord) : rotl64 x 8 = x.rotateLeft 8 := by
  simp [rotl64, BitVec.rotateLeft_def]

/-- `derive_acc(PSS, NONCE[0..L])` for a nonce of at most 16 bytes (R120). -/
theorem State.derivedAcc_eq (s : State) {L : Nat} (hL : L ≤ 16) : s.derivedAcc L = s.specAcc L := by
  have hlen : (s.noncePrefix L).length = L := by simp [State.noncePrefix, hL]
  have hp : s.params.pss.toList.length = 32 := by simp
  rw [State.derivedAcc, deriveAcc, hlen, hp, Nat.max_eq_left (by omega), State.specAcc]
  refine List.foldl_ext _ _ _ fun acc i hi => ?_
  have hi : i < 32 := List.mem_range.mp hi
  rw [deriveRound, rotl64_eq, hp, Nat.mod_eq_of_lt hi, nonceByteAt, hlen]
  by_cases h0 : L = 0
  · simp [h0]
  · have h1 : i % L < L := Nat.mod_lt _ (by omega)
    simp only [h0, if_false]
    have : (s.noncePrefix L).getD (i % L) 0 = s.nonce.toList.getD (i % L) 0 := by
      rw [State.noncePrefix, List.getD_eq_getElem?_getD, List.getD_eq_getElem?_getD, List.getElem?_take, if_pos h1]
    rw [this]

/-! ### The byte lanes of the accumulator -/

/-- Byte lane `m` of a 64-bit value. -/
def laneAt (x : DWord) (m : Nat) : Byte := x.extractLsb' (8 * m) 8

/-- Rotating left by 8 moves every byte up one lane (R9). -/
theorem laneAt_rotateLeft (x : DWord) {m : Nat} (hm : m < 8) : laneAt (x.rotateLeft 8) m = laneAt x ((m + 7) % 8) := by
  unfold laneAt
  ext i hi
  rw [BitVec.getElem_extractLsb', BitVec.getElem_extractLsb', BitVec.getLsbD_rotateLeft]
  by_cases h0 : m = 0
  · subst h0
    rw [decide_eq_true (by omega), cond_true]
    congr 1
    omega
  · rw [decide_eq_false (by omega), cond_false, decide_eq_true (by omega), Bool.true_and]
    congr 1
    omega

theorem laneAt_setWidth (b : Byte) (m : Nat) : laneAt (b.setWidth 64) m = if m = 0 then b else 0 := by
  unfold laneAt
  ext i hi
  rw [BitVec.getElem_extractLsb', BitVec.getLsbD_setWidth]
  by_cases h0 : m = 0
  · subst h0
    simp [hi]
    intro
    omega
  · simp [h0]
    intro
    exact BitVec.getLsbD_of_ge _ _ (by omega)

theorem laneAt_xor (x y : DWord) (m : Nat) : laneAt (x ^^^ y) m = laneAt x m ^^^ laneAt y m := by
  unfold laneAt
  ext i hi
  simp

theorem laneAt_zero (m : Nat) : laneAt 0 m = 0 := by
  unfold laneAt
  ext i hi
  simp

/-- Byte lane `m` after `n` derivation steps that take in the bytes `f 0`, `f 1`, … -/
def laneAfter (f : Nat → Byte) : Nat → Nat → Byte
  | 0, _ => 0
  | n + 1, m => laneAfter f n ((m + 7) % 8) ^^^ if m = 0 then f n else 0

theorem laneAt_fold (f : Nat → Byte) (n : Nat) {m : Nat} (hm : m < 8) :
    laneAt ((List.range n).foldl (fun acc i => acc.rotateLeft 8 ^^^ (f i).setWidth 64) 0) m = laneAfter f n m := by
  induction n generalizing m with
  | zero => exact laneAt_zero m
  | succ n ih =>
    rw [List.range_succ, List.foldl_append, List.foldl_cons, List.foldl_nil, laneAt_xor, laneAt_rotateLeft _ hm,
      laneAt_setWidth, ih (Nat.mod_lt _ (by omega)), laneAfter]

/-- After 32 steps a lane holds the XOR of the four bytes taken in when it was lane 0. -/
theorem laneAfter_32 (f : Nat → Byte) {m : Nat} (hm : m < 8) :
    laneAfter f 32 m = f (7 - m) ^^^ f (15 - m) ^^^ f (23 - m) ^^^ f (31 - m) := by
  have hm : m = 0 ∨ m = 1 ∨ m = 2 ∨ m = 3 ∨ m = 4 ∨ m = 5 ∨ m = 6 ∨ m = 7 := by omega
  rcases hm with rfl | rfl | rfl | rfl | rfl | rfl | rfl | rfl <;> simp [laneAfter]

/-- Two 64-bit values with the same byte lanes are equal. -/
theorem eq_of_laneAt {x y : DWord} (h : ∀ m < 8, laneAt x m = laneAt y m) : x = y := by
  apply BitVec.eq_of_getLsbD_eq
  intro i hi
  have hb := congrArg (fun b : Byte => b.getLsbD (i % 8)) (h (i / 8) (by omega))
  have h8 : i % 8 < 8 := Nat.mod_lt _ (by omega)
  have hi' : 8 * (i / 8) + i % 8 = i := by omega
  simpa only [laneAt, BitVec.getLsbD_extractLsb', h8, hi', decide_true, Bool.true_and] using hb

theorem xor_pairs (a b c d x y : Byte) : (a ^^^ x) ^^^ (b ^^^ y) ^^^ (c ^^^ x) ^^^ (d ^^^ y) = d ^^^ c ^^^ b ^^^ a := by
  have h : (a ^^^ x) ^^^ (b ^^^ y) ^^^ (c ^^^ x) ^^^ (d ^^^ y) = (d ^^^ c ^^^ b ^^^ a) ^^^ (x ^^^ x) ^^^ (y ^^^ y) := by
    ac_rfl
  rw [h]
  simp

/-- For a nonce length that divides 16, or an empty nonce, the nonce cancels out of every lane (R124). -/
theorem State.laneAt_specAcc (s : State) {L m : Nat} (hL : 16 % L = 0 ∨ L = 0) (hm : m < 8) :
    laneAt (s.specAcc L) m =
      s.params.pss[31 - m] ^^^ s.params.pss[23 - m] ^^^ s.params.pss[15 - m] ^^^ s.params.pss[7 - m] := by
  have g : ∀ i (h : i < 32), s.params.pss.toList.getD i 0 = s.params.pss[i] := by
    intro i h
    rw [List.getD_eq_getElem?_getD, List.getElem?_eq_getElem (by simpa using h)]
    simp
  rw [State.specAcc, laneAt_fold _ _ hm, laneAfter_32 _ hm, g, g, g, g]
  by_cases h0 : L = 0
  · simp only [h0, if_true]
    exact xor_pairs _ _ _ _ _ _
  · have hmod : ∀ i, s.nonce.toList.getD ((i + 16) % L) 0 = s.nonce.toList.getD (i % L) 0 := by
      intro i
      have : 16 % L = 0 := hL.resolve_right h0
      rw [Nat.add_mod, this, Nat.add_zero, Nat.mod_mod]
    have e1 : 23 - m = 7 - m + 16 := by omega
    have e2 : 31 - m = 15 - m + 16 := by omega
    have f1 : s.nonce.toList.getD ((23 - m) % L) 0 = s.nonce.toList.getD ((7 - m) % L) 0 := by rw [e1, hmod]
    have f2 : s.nonce.toList.getD ((31 - m) % L) 0 = s.nonce.toList.getD ((15 - m) % L) 0 := by rw [e2, hmod]
    simp only [h0, if_false]
    rw [f1, f2]
    exact xor_pairs _ _ _ _ _ _

/-- With a 16-byte nonce the accumulator is a function of the parameters alone (R124). -/
theorem State.specAcc_congr {s t : State} (hp : t.params = s.params) : t.specAcc 16 = s.specAcc 16 :=
  eq_of_laneAt fun m hm => by
    rw [State.laneAt_specAcc t (.inl rfl) hm, State.laneAt_specAcc s (.inl rfl) hm]
    simp only [hp]

/-- The orchestrator's keys are functions of the parameters alone (R124). -/
theorem State.specKeys_congr {s t : State} (hp : t.params = s.params) :
    t.specK1 = s.specK1 ∧ t.specK2 = s.specK2 := by
  simp only [State.specK1, State.specK2, State.specAcc_congr hp, and_self]

/-- The declared length of a padded buffer is the payload's length (R135). -/
theorem State.specFromBe64_specPadded (s : State) (k2 : Byte) {n : Nat} (hn : n < 256 ^ 8) :
    specFromBe64 (s.specPadded k2 n) = n :=
  specFromBe64_be64 hn fun j hj => by rw [State.specPadded, if_pos hj, be64Byte_eq]

/-! ### The inverse table -/

/-- In a well-formed table every value occurs (R6, R150). -/
theorem Config.mem_of_valueSet (l : List Byte) (seen : BitVec 256) (v : Byte) :
    (l.foldl (fun seen b => seen ||| BitVec.twoPow 256 b.toNat) seen).getLsbD v.toNat = true ↔
      seen.getLsbD v.toNat = true ∨ v ∈ l := by
  induction l generalizing seen with
  | nil => simp
  | cons b l ih =>
    have hv := v.isLt
    have hb := b.isLt
    rw [List.foldl_cons, ih, List.mem_cons, BitVec.getLsbD_or, BitVec.getLsbD_twoPow, Bool.or_eq_true, or_assoc]
    refine or_congr_right (or_congr_left ?_)
    rw [BitVec.toNat_inj.symm]
    simp
    omega

/-- Every value occurs in the table exactly when the check passes (R150). -/
theorem Params.sboxOk_iff (p : Params) : p.sboxOk = true ↔ ∀ v : Byte, v ∈ p.sbox.toList := by
  have h : ∀ v : Byte, (Config.valueSet p.sbox.toList).getLsbD v.toNat = true ↔ v ∈ p.sbox.toList := by
    intro v
    refine (Config.mem_of_valueSet p.sbox.toList 0 v).trans (or_iff_right ?_)
    rw [show (0 : BitVec 256) = 0#256 from rfl, BitVec.getLsbD_zero]
    exact Bool.false_ne_true
  rw [Params.sboxOk, beq_iff_eq]
  constructor
  · intro he v
    refine (h v).mp ?_
    rw [he, BitVec.getLsbD_allOnes]
    exact decide_eq_true v.isLt
  · intro he
    apply BitVec.eq_of_getLsbD_eq
    intro i hi
    have := (h (BitVec.ofNat 8 i)).mpr (he _)
    rw [BitVec.toNat_ofNat, Nat.mod_eq_of_lt hi] at this
    rw [this, BitVec.getLsbD_allOnes, decide_eq_true hi]

/-- `SBOX[INV_SBOX[v]] = v` (R151). -/
theorem sboxAt_invSboxAt {p : Params} (h : p.sboxOk = true) (v : Byte) : sboxAt p (invSboxAt p v) = v := by
  have hm := (Params.sboxOk_iff p).mp h v
  have hlt := List.idxOf_lt_length_iff.mpr hm
  have h256 : p.sbox.toList.idxOf v < 256 := by simpa using hlt
  have ht : (BitVec.ofNat 8 (p.sbox.toList.idxOf v)).toNat = p.sbox.toList.idxOf v := by
    rw [BitVec.toNat_ofNat, Nat.mod_eq_of_lt h256]
  simp only [sboxAt, invSboxAt, ht]
  exact (Vector.getElem_toList (xs := p.sbox) (by simpa using hlt)).symm.trans (List.getElem_idxOf hlt)

/-- A table in which every value occurs is a permutation (R150). -/
theorem Params.isPermutation_iff (p : Params) : p.IsPermutation ↔ p.sboxOk = true := by
  have hb : p.IsPermutation ↔ Function.Surjective fun b : Byte => p.sbox[b.toNat]'b.isLt :=
    (Finite.surjective_iff_bijective (α := Byte)).symm
  rw [hb, Params.sboxOk_iff]
  constructor
  · intro hs v
    obtain ⟨b, hb⟩ := hs v
    have hb : p.sbox[b.toNat]'b.isLt = v := hb
    rw [← hb]
    simp
  · intro hs v
    exact ⟨invSboxAt p v, sboxAt_invSboxAt ((Params.sboxOk_iff p).mpr hs) v⟩

/-- `INV_SBOX[SBOX[b]] = b` (R151). -/
theorem invSboxAt_sboxAt {p : Params} (h : p.sboxOk = true) (b : Byte) : invSboxAt p (sboxAt p b) = b :=
  ((Params.isPermutation_iff p).mpr h).injective (sboxAt_invSboxAt h (sboxAt p b))

theorem Params.sboxOk_of_wf {p : Params} (h : p.wf = true) : p.sboxOk = true := by
  simp [Params.wf] at h
  exact h.1

/-- The check of a configuration, in the spec's terms (R6, R150). -/
theorem Params.wf_iff (p : Params) :
    p.wf = true ↔ p.IsPermutation ∧ p.bufBytes % 16 = 0 ∧ 16 ≤ p.bufBytes ∧ p.bufBytes ≤ 0xF000 := by
  rw [Params.isPermutation_iff]
  simp [Params.wf, Params.bufBytesOk, and_assoc]

end Sys2Proof.Machine
end

