-- ==== Sys2Proof/Laws/Step.lean ====
section
/-! SUPPORT. What a step is, by the event at the head of the inputs, and everything a step can do. -/

namespace Sys2Proof.Machine

variable {s t : State} {rest : List Event}

theorem step_of_wf (hwf : s.params.wf = true) : step s = s.turn := by simp [step, State.stepOnce, hwf]

theorem step_of_not_wf (hwf : s.params.wf = false) : step s = .refused .illFormedParams := by
  simp [step, State.stepOnce, hwf]

/-- A host write event. -/
theorem step_write {a : Addr} {d : Word} {strb : BitVec 4} (hwf : s.params.wf = true)
    (h : s.inputs = .write a d strb :: rest) :
    step s = .next (({ s with inputs := rest } : State).hostWrite a d strb) := by
  rw [step_of_wf hwf, State.turn, h]

/-- A host read event. -/
theorem step_read {a : Addr} (hwf : s.params.wf = true) (h : s.inputs = .read a :: rest) :
    step s = .next (({ s with inputs := rest } : State).hostRead a) := by
  rw [step_of_wf hwf, State.turn, h]

/-- A reset event. -/
theorem step_reset {k : Nat} (hwf : s.params.wf = true) (h : s.inputs = .reset k :: rest) :
    step s = .next (({ s with inputs := rest } : State).applyReset k) := by
  rw [step_of_wf hwf, State.turn, h]

/-- The engine's turn, given by an event. -/
theorem step_engine (hwf : s.params.wf = true) (h : s.inputs = .engine :: rest) :
    step s = ({ s with inputs := rest } : State).engineTurn := by
  rw [step_of_wf hwf, State.turn, h]

/-- The engine's turn, with no event before it. -/
theorem step_no_event (hwf : s.params.wf = true) (h : s.inputs = []) : step s = s.engineTurn := by
  rw [step_of_wf hwf, State.turn, h]

/-- The engine's turn with a command pending. -/
theorem State.engineTurn_of_decode {w : Word} {i : Instr} (hp : s.pending = some w) (hd : decode w = .ok i) :
    s.engineTurn = exec i s := by simp [State.engineTurn, hp, hd]

/-- The engine's turn with an ILLEGAL word pending. -/
theorem State.engineTurn_of_illegal {w : Word} {e : Illegal} (hp : s.pending = some w) (hd : decode w = .error e) :
    s.engineTurn = .next (s.raise .illegalCommand) := by simp [State.engineTurn, hp, hd]

/-- The engine's turn with nothing pending. -/
theorem State.engineTurn_of_idle (hp : s.pending = none) : s.engineTurn = .next s := by simp [State.engineTurn, hp]

/-- Everything the engine's turn can do. -/
theorem State.engineTurn_cases (h : s.engineTurn = .next t) :
    (s.pending = none ∧ t = s) ∨
    (∃ w e, s.pending = some w ∧ decode w = .error e ∧ t = s.raise .illegalCommand) ∨
    (∃ w i, s.pending = some w ∧ decode w = .ok i ∧ exec i s = .next t) := by
  unfold State.engineTurn at h
  split at h
  · rename_i hp
    exact .inl ⟨hp, by cases h; rfl⟩
  · rename_i w hp
    split at h
    · rename_i i hd
      exact .inr (.inr ⟨w, i, hp, hd, h⟩)
    · rename_i e hd
      exact .inr (.inl ⟨w, e, hp, hd, by cases h; rfl⟩)

/-- Everything a step that goes on can do. -/
theorem step_cases (h : step s = .next t) :
    s.params.wf = true ∧
    ((s.inputs = [] ∧ s.engineTurn = .next t) ∨
      (∃ rest, s.inputs = .engine :: rest ∧ ({ s with inputs := rest } : State).engineTurn = .next t) ∨
      (∃ a rest, s.inputs = .read a :: rest ∧ t = ({ s with inputs := rest } : State).hostRead a) ∨
      (∃ a d strb rest, s.inputs = .write a d strb :: rest ∧
        t = ({ s with inputs := rest } : State).hostWrite a d strb) ∨
      (∃ k rest, s.inputs = .reset k :: rest ∧ t = ({ s with inputs := rest } : State).applyReset k)) := by
  cases hwf : s.params.wf with
  | false => rw [step_of_not_wf hwf] at h; cases h
  | true =>
    refine ⟨rfl, ?_⟩
    match hin : s.inputs with
    | [] => exact .inl ⟨rfl, step_no_event hwf hin ▸ h⟩
    | .engine :: rest => exact .inr (.inl ⟨rest, rfl, step_engine hwf hin ▸ h⟩)
    | .read a :: rest =>
      rw [step_read hwf hin] at h
      exact .inr (.inr (.inl ⟨a, rest, rfl, by cases h; rfl⟩))
    | .write a d strb :: rest =>
      rw [step_write hwf hin] at h
      exact .inr (.inr (.inr (.inl ⟨a, d, strb, rest, rfl, by cases h; rfl⟩)))
    | .reset k :: rest =>
      rw [step_reset hwf hin] at h
      exact .inr (.inr (.inr (.inr ⟨k, rest, rfl, by cases h; rfl⟩)))

/-- A host write while busy, or without a strobe, does nothing (R63, R72). -/
theorem State.hostWrite_ignored {a : Addr} {d : Word} {strb : BitVec 4} (h : s.busy = true ∨ strb = 0) :
    s.hostWrite a d strb = s := by
  unfold State.hostWrite
  rcases h with h | h
  · rw [if_pos h]
  · rw [if_pos h, ite_self]

/-- A host write to `CMD` (R71). -/
theorem State.hostWrite_cmd {a : Addr} {d : Word} {strb : BitVec 4} (hb : s.busy = false) (hs : strb ≠ 0)
    (ht : targetOf s.params.bufBytes a = .reg .cmd) : s.hostWrite a d strb = s.accept (mergeLanes 0 d strb) := by
  unfold State.hostWrite
  rw [if_neg (by simp [hb]), if_neg hs, ht]

/-- A host write to any other register (R63); without a strobe it writes back what the register reads as. -/
theorem State.hostWrite_reg {a : Addr} {d : Word} {strb : BitVec 4} {r : Reg} (hb : s.busy = false) (hr : r ≠ .cmd)
    (ht : targetOf s.params.bufBytes a = .reg r) :
    s.hostWrite a d strb = s.writeReg r (mergeLanes (s.readReg r) d strb) := by
  by_cases hs : strb = 0
  · rw [hostWrite_ignored (.inr hs), hs, mergeLanes_zero, writeReg_readReg]
  · unfold State.hostWrite
    rw [if_neg (by simp [hb]), if_neg hs, ht]
    cases r <;> first | exact absurd rfl hr | rfl

/-- A host write to the buffer window (R63, R68). -/
theorem State.hostWrite_window {a : Addr} {d : Word} {strb : BitVec 4} {off : Nat} (hb : s.busy = false)
    (ht : targetOf s.params.bufBytes a = .window off) : s.hostWrite a d strb = s.writeWindow off d strb := by
  by_cases hs : strb = 0
  · rw [hostWrite_ignored (.inr hs), hs]
    simp [State.writeWindow, Memory.writeLane]
  · unfold State.hostWrite
    rw [if_neg (by simp [hb]), if_neg hs, ht]

/-- A host write to a reserved address does nothing (R67). -/
theorem State.hostWrite_reserved {a : Addr} {d : Word} {strb : BitVec 4}
    (ht : targetOf s.params.bufBytes a = .reserved) : s.hostWrite a d strb = s := by
  unfold State.hostWrite
  rw [ht]
  simp

/-- Everything a host write can do: nothing, accept a command, write a register, or store to the buffer window. -/
theorem State.hostWrite_cases (s : State) (a : Addr) (d : Word) (strb : BitVec 4) :
    s.hostWrite a d strb = s ∨
    (s.busy = false ∧ strb ≠ 0 ∧ targetOf s.params.bufBytes a = .reg .cmd ∧
      s.hostWrite a d strb = s.accept (mergeLanes 0 d strb)) ∨
    (∃ r, s.busy = false ∧ r ≠ .cmd ∧ targetOf s.params.bufBytes a = .reg r ∧
      s.hostWrite a d strb = s.writeReg r (mergeLanes (s.readReg r) d strb)) ∨
    (∃ off, s.busy = false ∧ targetOf s.params.bufBytes a = .window off ∧
      s.hostWrite a d strb = s.writeWindow off d strb) := by
  cases hb : s.busy with
  | true => exact .inl (State.hostWrite_ignored (.inl hb))
  | false =>
    by_cases hs : strb = 0
    · exact .inl (State.hostWrite_ignored (.inr hs))
    · cases ht : targetOf s.params.bufBytes a with
      | window off => exact .inr (.inr (.inr ⟨off, rfl, rfl, State.hostWrite_window hb ht⟩))
      | reserved => exact .inl (State.hostWrite_reserved ht)
      | reg r =>
        by_cases hr : r = .cmd
        · subst hr
          exact .inr (.inl ⟨rfl, hs, rfl, State.hostWrite_cmd hb hs ht⟩)
        · exact .inr (.inr (.inl ⟨r, rfl, hr, rfl, State.hostWrite_reg hb hr ht⟩))

/-- A write to the buffer window, at every address. -/
theorem State.peek_writeWindow (s : State) (off : Nat) (d : Word) (strb : BitVec 4) (a : Nat) :
    (s.writeWindow off d strb).peek a =
      if off ≤ a ∧ a < off + 4 ∧ strb.getLsbD (a - off) = true then some (lane d (a - off)) else s.peek a := by
  simp only [State.peek, State.writeWindow_buf, Memory.read_writeLane]
  by_cases h : off ≤ a ∧ a < off + 4
  · obtain ⟨j, rfl⟩ : ∃ j, a = off + j := ⟨a - off, by omega⟩
    have : j = 0 ∨ j = 1 ∨ j = 2 ∨ j = 3 := by omega
    rcases this with rfl | rfl | rfl | rfl <;> simp
  · have e : ∀ j < 4, a ≠ off + j := by intro j hj; omega
    have h' : ¬ (off ≤ a ∧ a < off + 4 ∧ strb.getLsbD (a - off) = true) := fun h2 => h ⟨h2.1, h2.2.1⟩
    rw [if_neg h']
    simp [e 1, e 2, e 3, show a ≠ off from by omega]

end Sys2Proof.Machine
end

