-- ==== Sys2Proof/Laws/Exec.lean ====
section
/-! SUPPORT. The engine step as a whole: a command always goes on, and everything it can do to the parts of the state that
the invariant speaks of. -/

namespace Sys2Proof.Machine

/-! ### The pipelines, at every byte -/

/-- The layers of encryption leave everything beyond their range as it was. -/
theorem State.peek_encryptLayers_ge (s : State) (k : Byte) {m a : Nat} (h : m ≤ a) :
    (s.encryptLayers k m).peek a = s.peek a := by
  rw [State.encryptLayers, State.peek_permuteLayer, if_neg (by omega), State.peek_substLayer, if_neg (by omega),
    State.peek_xorLayer, if_neg (by omega)]

/-- The layers of encryption over full blocks, where every read byte is `p a` (R192). -/
theorem State.peek_encryptLayers (s : State) (k : Byte) {m a : Nat} {p : Nat → Byte} (hm : m % 16 = 0)
    (hp : ∀ x < m, s.bufByte x = p x) (ha : a < m) :
    (s.encryptLayers k m).peek a = some (sboxAt s.params (p (specPermute a) ^^^ k)) := by
  have hb := specPermute_block a
  have hlt : specPermute a < m := by omega
  have key : ∀ x < m, ((s.xorLayer k m).substLayer m).peek x = some (sboxAt s.params (p x ^^^ k)) := by
    intro x hx
    rw [State.peek_substLayer, if_pos hx, State.bufByte_xorLayer, if_pos hx, hp x hx, State.xorLayer_params]
  rw [State.encryptLayers, State.peek_permuteLayer]
  by_cases hmv : permuteMoves a = true
  · have : permutePos a = specPermute a := by simp [specPermute, hmv]
    rw [if_pos ⟨by omega, hmv⟩, this, State.bufByte_of_peek (key _ hlt)]
  · have : specPermute a = a := by simp [specPermute, hmv]
    rw [if_neg (fun h => hmv h.2), key _ ha, this]

/-- The layers of decryption leave everything beyond their range as it was. -/
theorem State.peek_decryptLayers_ge (s : State) (k : Byte) {m a : Nat} (h : m ≤ a) :
    (s.decryptLayers k m).peek a = s.peek a := by
  rw [State.decryptLayers, State.peek_xorLayer, if_neg (by omega), State.peek_invSubstLayer, if_neg (by omega),
    State.peek_invPermuteLayer, if_neg (by omega)]

/-- The layers of decryption over full blocks (R195). -/
theorem State.peek_decryptLayers (s : State) (k : Byte) {m a : Nat} (hm : m % 16 = 0) (ha : a < m) :
    (s.decryptLayers k m).peek a = some (invSboxAt s.params (s.bufByte (specPermute a)) ^^^ k) := by
  rw [State.decryptLayers, State.peek_xorLayer, if_pos ha, State.bufByte_invSubstLayer, if_pos ha,
    State.bufByte_invPermuteLayer, if_pos (by omega), State.invPermuteLayer_params]

/-- k1 of the orchestrator (R122, R192). -/
theorem State.k1_eq (s : State) : k1OfAcc (s.derivedAcc 16) = s.specK1 := by
  rw [s.derivedAcc_eq (Nat.le_refl 16), k1OfAcc, State.specK1]

/-- k2 of the orchestrator (R122, R192). -/
theorem State.k2_eq (s : State) : k2OfAcc (s.derivedAcc 16) = s.specK2 := by
  rw [s.derivedAcc_eq (Nat.le_refl 16), k2OfAcc, State.specK2]

/-- `encrypt_pipeline` in the buffer, inside the padded length (R192). -/
theorem State.peek_encryptPipeline (s : State) {n a : Nat} (ha : a < paddedLen n) :
    (s.encryptPipeline n).peek a = some (sboxAt s.params (s.specPadded s.specK2 n (specPermute a) ^^^ s.specK1)) := by
  have hb : ∀ x < paddedLen n, (s.deriveLatches.padBuffer s.deriveLatches.tk2 n).bufByte x =
      s.specPadded s.specK2 n x := by
    intro x hx
    rw [State.bufByte_padBuffer _ _ hx, State.deriveLatches_tk2, State.k2_eq]
    rfl
  have h := State.peek_encryptLayers _ s.specK1 (paddedLen_mod n) hb ha
  rw [State.padBuffer_params, State.deriveLatches_params] at h
  rw [← h, State.peek, State.peek, State.encryptPipeline, State.deriveLatches_tk1, State.k1_eq]

/-- `encrypt_pipeline` in the buffer, beyond the padded length. -/
theorem State.peek_encryptPipeline_ge (s : State) {n a : Nat} (ha : paddedLen n ≤ a) :
    (s.encryptPipeline n).peek a = s.peek a := by
  have hg := paddedLen_ge n
  have h := (s.deriveLatches.padBuffer s.deriveLatches.tk2 n).peek_encryptLayers_ge s.deriveLatches.tk1 ha
  rw [State.peek_padBuffer, if_neg (by omega), if_neg (by omega), State.peek_deriveLatches] at h
  rw [← h, State.peek, State.peek, State.encryptPipeline]

/-- `decrypt_pipeline` in the buffer, inside the ciphertext (R195). -/
theorem State.peek_decryptPipeline (s : State) {m a : Nat} (hm : m % 16 = 0) (ha : a < m) :
    (s.decryptPipeline m).peek a = some (invSboxAt s.params (s.bufByte (specPermute a)) ^^^ s.specK1) := by
  have h := s.deriveLatches.peek_decryptLayers s.specK1 hm ha
  rw [State.bufByte_deriveLatches, State.deriveLatches_params] at h
  rw [← h, State.decryptPipeline, State.peek_finishRemovePadding, State.deriveLatches_tk1, State.k1_eq]

/-- `decrypt_pipeline` in the buffer, beyond the ciphertext. -/
theorem State.peek_decryptPipeline_ge (s : State) {m a : Nat} (ha : m ≤ a) :
    (s.decryptPipeline m).peek a = s.peek a := by
  rw [State.decryptPipeline, State.peek_finishRemovePadding, State.peek_decryptLayers_ge _ _ ha,
    State.peek_deriveLatches]

/-- `remove_padding`, by the declared length in the spec's terms (R132). -/
theorem State.removePadding_eq (s : State) (m : Nat) :
    s.removePadding m =
      if m < 8 then .error .malformedLength
      else if m % 16 ≠ 0 then .error .badBlockAlignment
      else if 8 + specFromBe64 s.bufByte > m then .error .lengthOverflow
      else .ok (specFromBe64 s.bufByte) := by
  rw [State.removePadding, fromBe64_memRead]

/-! ### Every command -/

/-- A command never stops the machine (R229). -/
theorem exec_next (i : Instr) (s : State) : ∃ t, exec i s = .next t := by
  cases i <;>
    simp only [exec, execNop, execEncrypt, execEncryptN, execDecrypt, execGenNonce, execDeriveKeys, execAddPadding,
      execRemovePadding, execXorBuf, execSubstitute, execInvSubstitute, execPermute, execInvPermute, execPrbgSeed,
      execPrbgNext, execSboxLookup, execInvSboxLookup] <;>
    repeat' split
  all_goals exact ⟨_, rfl⟩

/-- The engine's turn never stops the machine. -/
theorem State.engineTurn_next (s : State) : ∃ t, s.engineTurn = .next t := by
  unfold State.engineTurn
  split
  · exact ⟨_, rfl⟩
  · split
    · exact exec_next _ _
    · exact ⟨_, rfl⟩

/-- How a command ends at `s`, when its writes have led to `u`: it completes or raises an error there, having kept the
parameters, the schedule and LAST_OP, and the buffer inside its bounds. -/
structure EndsAt (s u t : State) : Prop where
  ends : t = u.complete ∨ ∃ e, t = u.raise e
  params : u.params = s.params
  inputs : u.inputs = s.inputs
  lastOp : u.lastOp = s.lastOp
  within : s.params.bufBytes % 16 = 0 → Memory.Within s.params.bufBytes s.buf → Memory.Within s.params.bufBytes u.buf

/-- A command either waits for the random source or ends. -/
def WaitsOrEnds (s t : State) : Prop := t = s ∨ ∃ u, EndsAt s u t

theorem WaitsOrEnds.raised (s : State) (e : Error) : WaitsOrEnds s (s.raise e) :=
  .inr ⟨s, .inr ⟨e, rfl⟩, rfl, rfl, rfl, fun _ h => h⟩

/-- The end by `remove_padding` raises or completes, and touches the buffer no more. -/
theorem State.finishRemovePadding_ends (s : State) (m : Nat) :
    ∃ u : State, (s.finishRemovePadding m = u.complete ∨ ∃ e, s.finishRemovePadding m = u.raise e) ∧
      u.params = s.params ∧ u.inputs = s.inputs ∧ u.lastOp = s.lastOp ∧ u.buf = s.buf := by
  unfold State.finishRemovePadding
  cases s.removePadding m with
  | error e => exact ⟨s, .inr ⟨e, rfl⟩, rfl, rfl, rfl, rfl⟩
  | ok ol => exact ⟨_, .inl rfl, rfl, rfl, rfl, rfl⟩

variable {s t : State}

/-- A meaning that only checks `CT_LEN` and runs a layer over the buffer. -/
theorem WaitsOrEnds.layer {u : State} (h : (if s.bufferTooLong then .next (s.raise .capacityExceeded) else
      .next u.complete : Result) = .next t) (hp : u.params = s.params) (hi : u.inputs = s.inputs)
    (hl : u.lastOp = s.lastOp)
    (hw : s.ctLen.toNat ≤ s.params.bufBytes → Memory.Within s.params.bufBytes s.buf →
      Memory.Within s.params.bufBytes u.buf) : WaitsOrEnds s t := by
  split at h
  · cases h
    exact .raised s _
  · rename_i hc
    cases h
    exact .inr ⟨u, .inl rfl, hp, hi, hl, fun _ hb => hw (by simpa [State.bufferTooLong] using hc) hb⟩

/-- `encrypt_pipeline` keeps the buffer inside its bounds. -/
theorem State.encryptPipeline_within {c n : Nat} (h : Memory.Within c s.buf) (hc : c % 16 = 0) (hn : 8 + n ≤ c) :
    Memory.Within c (s.encryptPipeline n).buf := by
  have hl := paddedLen_le hc hn
  simp only [State.encryptPipeline, State.encryptLayers, State.permuteLayer_buf, State.substLayer_buf,
    State.xorLayer_buf]
  exact (((State.padBuffer_within (s := s.deriveLatches) _ h hc hn).mapBytes _ _ _ hl).mapBytes _ _ _ hl).permuteBlocks
    _ _ (by omega)

theorem execEncrypt_ends (h : execEncrypt s = .next t) : WaitsOrEnds s t := by
  unfold execEncrypt at h
  split at h
  · cases h; exact .raised s _
  · rename_i hp
    simp [State.payloadTooLong] at hp
    split at h
    · cases h
      exact .inr ⟨_, .inl rfl, by simp, by simp, by simp, fun h16 hw =>
        State.encryptPipeline_within (s := s.drawNonce) (by simpa using hw) h16 hp⟩
    · cases h; exact .inl rfl

theorem execEncryptN_ends (h : execEncryptN s = .next t) : WaitsOrEnds s t := by
  unfold execEncryptN at h
  split at h
  · cases h; exact .raised s _
  · rename_i hp
    simp [State.payloadTooLong] at hp
    split at h
    · cases h; exact .raised s _
    · cases h
      exact .inr ⟨_, .inl rfl, by simp, by simp, by simp, fun h16 hw => State.encryptPipeline_within hw h16 hp⟩

theorem execDecrypt_ends (h : execDecrypt s = .next t) : WaitsOrEnds s t := by
  unfold execDecrypt at h
  split at h
  · cases h; exact .raised s _
  · rename_i hc
    simp [State.bufferTooLong] at hc
    split at h
    · cases h; exact .raised s _
    · split at h
      · cases h; exact .raised s _
      · cases h
        obtain ⟨u, he, hp, hi, hl, hb⟩ := State.finishRemovePadding_ends
          (s.deriveLatches.decryptLayers s.deriveLatches.tk1 s.ctLen.toNat) s.ctLen.toNat
        refine .inr ⟨u, he, by simpa using hp, by simpa using hi, by simpa using hl, fun h16 hw => hb ▸ ?_⟩
        simp only [State.decryptLayers, State.xorLayer_buf, State.invSubstLayer_buf, State.invPermuteLayer_buf]
        exact ((Memory.Within.invPermuteBlocks hw _ _ (by omega)).mapBytes _ _ _ hc).mapBytes _ _ _ hc

theorem execGenNonce_ends (h : execGenNonce s = .next t) : WaitsOrEnds s t := by
  unfold execGenNonce at h
  split at h
  · cases h; exact .inr ⟨s.drawNonce, .inl rfl, rfl, rfl, rfl, fun _ h => h⟩
  · cases h; exact .inl rfl

theorem execDeriveKeys_ends (h : execDeriveKeys s = .next t) : WaitsOrEnds s t := by
  unfold execDeriveKeys at h
  split at h
  · cases h; exact .raised s _
  · cases h; exact .inr ⟨_, .inl rfl, rfl, rfl, rfl, fun _ h => h⟩

theorem execAddPadding_ends (h : execAddPadding s = .next t) : WaitsOrEnds s t := by
  unfold execAddPadding at h
  split at h
  · cases h; exact .raised s _
  · rename_i hp
    simp [State.payloadTooLong] at hp
    cases h
    refine .inr ⟨_, .inl rfl, ?_, ?_, ?_, fun h16 hw => ?_⟩
    · simp only [State.padBuffer_params]
    · simp only [State.padBuffer_inputs]
    · simp only [State.padBuffer_lastOp]
    · have := State.padBuffer_within s.keyK2 hw h16 hp
      simpa only [State.padBuffer_buf] using this

theorem execRemovePadding_ends (h : execRemovePadding s = .next t) : WaitsOrEnds s t := by
  unfold execRemovePadding at h
  split at h
  · cases h; exact .raised s _
  · cases h
    obtain ⟨u, he, hp, hi, hl, hb⟩ := State.finishRemovePadding_ends s s.ctLen.toNat
    exact .inr ⟨u, he, hp, hi, hl, fun _ hw => hb ▸ hw⟩

/-- Everything a command can do to the parts of the state that the invariant speaks of. -/
theorem exec_ends {i : Instr} (h : exec i s = .next t) : WaitsOrEnds s t := by
  have done : ∀ u : State, t = u.complete → u.params = s.params → u.inputs = s.inputs → u.lastOp = s.lastOp →
      u.buf = s.buf → WaitsOrEnds s t := fun u he hp hi hl hb =>
    .inr ⟨u, .inl he, hp, hi, hl, fun _ hw => hb ▸ hw⟩
  cases i with
  | nop => cases h; exact done s rfl rfl rfl rfl rfl
  | encrypt => exact execEncrypt_ends h
  | encryptN => exact execEncryptN_ends h
  | decrypt => exact execDecrypt_ends h
  | genNonce => exact execGenNonce_ends h
  | deriveKeys => exact execDeriveKeys_ends h
  | addPadding => exact execAddPadding_ends h
  | removePadding => exact execRemovePadding_ends h
  | xorBuf => exact .layer h rfl rfl rfl fun hc hw => hw.mapBytes _ _ _ hc
  | substitute => exact .layer h rfl rfl rfl fun hc hw => hw.mapBytes _ _ _ hc
  | invSubstitute => exact .layer h rfl rfl rfl fun hc hw => hw.mapBytes _ _ _ hc
  | permute => exact .layer h rfl rfl rfl fun hc hw => hw.permuteBlocks _ _ (by omega)
  | invPermute => exact .layer h rfl rfl rfl fun hc hw => hw.invPermuteBlocks _ _ (by omega)
  | prbgSeed imm => cases h; exact done { s with prbgState := imm.setWidth 64 } rfl rfl rfl rfl rfl
  | prbgNext =>
    cases h
    exact done { s with prbgState := lcgStep s.prbgState, prbgOut := lcgOut (lcgStep s.prbgState) } rfl rfl rfl rfl rfl
  | sboxLookup imm => cases h; exact done { s with result := sboxAt s.params imm } rfl rfl rfl rfl rfl
  | invSboxLookup imm => cases h; exact done { s with result := invSboxAt s.params imm } rfl rfl rfl rfl rfl

end Sys2Proof.Machine
end

