-- ==== Sys2Proof/Laws/PerInstr.lean ====
section
/-! SUPPORT. Statements that are made command by command. -/

/-- A command is well-formed, and its word holds 0 in `RSVD`, its opcode in `OPCODE` and its immediate in `IMM8`
(R90, R92, R94). -/
def Sys2Proof.Laws.EncodeFields.Statement (i : Sys2Proof.Instr) : Prop :=
  i.wf = true ∧ Sys2Proof.cmdRsvd (Sys2Proof.encode i) = 0 ∧ Sys2Proof.cmdImm8 (Sys2Proof.encode i) = i.imm8 ∧
    Sys2Proof.cmdOpcode (Sys2Proof.encode i) = i.opcode

theorem Sys2Proof.Laws.EncodeFields.nop (imm : Sys2Proof.Byte) :
    Sys2Proof.Laws.EncodeFields.Statement (.nop imm) := ⟨rfl, Sys2Proof.encode_fields _⟩

theorem Sys2Proof.Laws.EncodeFields.encrypt (imm : Sys2Proof.Byte) :
    Sys2Proof.Laws.EncodeFields.Statement (.encrypt imm) := ⟨rfl, Sys2Proof.encode_fields _⟩

theorem Sys2Proof.Laws.EncodeFields.encryptN (imm : Sys2Proof.Byte) :
    Sys2Proof.Laws.EncodeFields.Statement (.encryptN imm) := ⟨rfl, Sys2Proof.encode_fields _⟩

theorem Sys2Proof.Laws.EncodeFields.decrypt (imm : Sys2Proof.Byte) :
    Sys2Proof.Laws.EncodeFields.Statement (.decrypt imm) := ⟨rfl, Sys2Proof.encode_fields _⟩

theorem Sys2Proof.Laws.EncodeFields.genNonce (imm : Sys2Proof.Byte) :
    Sys2Proof.Laws.EncodeFields.Statement (.genNonce imm) := ⟨rfl, Sys2Proof.encode_fields _⟩

theorem Sys2Proof.Laws.EncodeFields.deriveKeys (imm : Sys2Proof.Byte) :
    Sys2Proof.Laws.EncodeFields.Statement (.deriveKeys imm) := ⟨rfl, Sys2Proof.encode_fields _⟩

theorem Sys2Proof.Laws.EncodeFields.addPadding (imm : Sys2Proof.Byte) :
    Sys2Proof.Laws.EncodeFields.Statement (.addPadding imm) := ⟨rfl, Sys2Proof.encode_fields _⟩

theorem Sys2Proof.Laws.EncodeFields.removePadding (imm : Sys2Proof.Byte) :
    Sys2Proof.Laws.EncodeFields.Statement (.removePadding imm) := ⟨rfl, Sys2Proof.encode_fields _⟩

theorem Sys2Proof.Laws.EncodeFields.xorBuf (imm : Sys2Proof.Byte) :
    Sys2Proof.Laws.EncodeFields.Statement (.xorBuf imm) := ⟨rfl, Sys2Proof.encode_fields _⟩

theorem Sys2Proof.Laws.EncodeFields.substitute (imm : Sys2Proof.Byte) :
    Sys2Proof.Laws.EncodeFields.Statement (.substitute imm) := ⟨rfl, Sys2Proof.encode_fields _⟩

theorem Sys2Proof.Laws.EncodeFields.invSubstitute (imm : Sys2Proof.Byte) :
    Sys2Proof.Laws.EncodeFields.Statement (.invSubstitute imm) := ⟨rfl, Sys2Proof.encode_fields _⟩

theorem Sys2Proof.Laws.EncodeFields.permute (imm : Sys2Proof.Byte) :
    Sys2Proof.Laws.EncodeFields.Statement (.permute imm) := ⟨rfl, Sys2Proof.encode_fields _⟩

theorem Sys2Proof.Laws.EncodeFields.invPermute (imm : Sys2Proof.Byte) :
    Sys2Proof.Laws.EncodeFields.Statement (.invPermute imm) := ⟨rfl, Sys2Proof.encode_fields _⟩

theorem Sys2Proof.Laws.EncodeFields.prbgSeed (imm : Sys2Proof.Byte) :
    Sys2Proof.Laws.EncodeFields.Statement (.prbgSeed imm) := ⟨rfl, Sys2Proof.encode_fields _⟩

theorem Sys2Proof.Laws.EncodeFields.prbgNext (imm : Sys2Proof.Byte) :
    Sys2Proof.Laws.EncodeFields.Statement (.prbgNext imm) := ⟨rfl, Sys2Proof.encode_fields _⟩

theorem Sys2Proof.Laws.EncodeFields.sboxLookup (imm : Sys2Proof.Byte) :
    Sys2Proof.Laws.EncodeFields.Statement (.sboxLookup imm) := ⟨rfl, Sys2Proof.encode_fields _⟩

theorem Sys2Proof.Laws.EncodeFields.invSboxLookup (imm : Sys2Proof.Byte) :
    Sys2Proof.Laws.EncodeFields.Statement (.invSboxLookup imm) := ⟨rfl, Sys2Proof.encode_fields _⟩
end

