-- ==== Sys2Proof/Tests/Slice0.lean ====
section
/-! SUPPORT. The author's own tests. Expected values come from the rules and from spec/95_test_vectors.md, as each comment
says. Below them, for every statement with hypotheses, a concrete state and operands that meet them together. -/

namespace Sys2Proof.Tests

open Sys2Proof Sys2Proof.Machine

/-! ### Small states and one step -/

/-- `bs` at address `a`, and nothing else. -/
def bytes (a : Nat) (bs : List Byte) : Memory := Memory.writeBytes [] a bs

/-- The state after the command word `w` has been accepted and run at `s`. -/
def run (s : State) (w : Nat) : Option State :=
  match step (s.withFetchWord 32 w) with
  | .next t => some t
  | _ => none

/-- The state after one host transaction or reset at `s`. -/
def event (s : State) (e : Event) : Option State :=
  match step { s with inputs := [e] } with
  | .next t => some t
  | _ => none

/-- `BUF[8 .. 10]` = "AB", `PT_LEN` = 2 (95_test_vectors.md 1.7). -/
def ab : State := { State.reset with ptLen := 2, buf := bytes 8 [0x41, 0x42] }

/-- The padded buffer of "AB" (95_test_vectors.md 1.7). -/
def abPadded : Memory :=
  bytes 0 [0x00, 0x00, 0x00, 0x00, 0x00, 0x00, 0x00, 0x02, 0x41, 0x42, 0xC3, 0xA5, 0x24, 0x5A, 0xA0, 0x30]

/-- "AB" padded, XORed (95_test_vectors.md 1.7). -/
def abXored : Memory :=
  bytes 0 [0xB0, 0xB0, 0xB0, 0xB0, 0xB0, 0xB0, 0xB0, 0xB2, 0xF1, 0xF2, 0x73, 0x15, 0x94, 0xEA, 0x10, 0x80]

/-- "AB" padded, XORed, substituted (95_test_vectors.md 1.7). -/
def abSubstituted : Memory :=
  bytes 0 [0xDD, 0xDD, 0xDD, 0xDD, 0xDD, 0xDD, 0xDD, 0x2B, 0x44, 0xEB, 0x12, 0xC0, 0x99, 0xB3, 0x7D, 0x8D]

/-- The ciphertext of "AB" (95_test_vectors.md 1.7). -/
def abCiphertext : Memory :=
  bytes 0 [0x8D, 0x7D, 0xDD, 0xDD, 0xDD, 0xDD, 0xDD, 0x2B, 0x44, 0xEB, 0x12, 0xC0, 0x99, 0xB3, 0xDD, 0xDD]

/-- A buffer of 16 bytes in state `s`. -/
def withBuf (m : Memory) : State := { State.reset with ctLen := 16, keyK1 := 0xB0, keyK2 := 0xD7, buf := m }

/-- `State.reset` with a pending word and a schedule. -/
def pend (w : Word) (es : List Event) : State := { State.reset with pending := some w, inputs := es }

/-- `State.reset` with a schedule. -/
def sched (es : List Event) : State := { State.reset with inputs := es }

/-- The hypothesis of the statements about ILLEGAL words. -/
def illegalWord (w : Word) : Bool :=
  decide (w.toNat / 2 ^ 16 ≠ 0 ∨ (0x05 ≤ w.toNat % 256 ∧ w.toNat % 256 ≤ 0x0F) ∨
    (0x18 ≤ w.toNat % 256 ∧ w.toNat % 256 ≤ 0x1F) ∨ 0x24 ≤ w.toNat % 256)

/-- A pending command, and 15 random bytes. -/
def stalled (w : Word) : State := { ab with rng := ab.rng.drop 1, pending := some w }

/-- A padded buffer of 16 bytes that declares `n`. -/
def declares (n : Byte) : State := { State.reset with ctLen := 16, buf := bytes 0 [0, 0, 0, 0, 0, 0, 0, n] }

/-! ### WellFormed -/

/-- The reference configuration (95_test_vectors.md section 0) is well-formed. -/
theorem test_reference_params_wf : Params.reference.wf = true := by decide +kernel

/-- A table in which a value occurs twice is refused (R150). -/
theorem test_sbox_must_be_a_permutation :
    ({ Params.reference with sbox := Params.reference.sbox.set 1 0x0D } : Params).wf = false := by decide +kernel

/-- `BUF_BYTES` not a multiple of 16 is refused (R6). -/
theorem test_bufBytes_must_be_whole_blocks : ({ Params.reference with bufBytes := 4113 } : Params).wf = false := by
  decide +kernel

/-- `BUF_BYTES` below 16 is refused (R6). -/
theorem test_bufBytes_must_hold_a_block : ({ Params.reference with bufBytes := 0 } : Params).wf = false := by
  decide +kernel

/-- `BUF_BYTES` above 0xF000 is refused, and 0xF000 and 16 are accepted (R6). -/
theorem test_bufBytes_must_fit_the_address_map :
    ({ Params.reference with bufBytes := 0xF010 } : Params).wf = false ∧
    ({ Params.reference with bufBytes := 0xF000 } : Params).wf = true ∧
    ({ Params.reference with bufBytes := 16 } : Params).wf = true := by decide +kernel

/-- A step of an ill-formed configuration is refused (R150). -/
theorem test_ill_formed_step_is_refused :
    (match step (State.resetWith { Params.reference with bufBytes := 8 }) with
      | .refused .illFormedParams => true
      | _ => false) = true := by decide +kernel

/-- Every command is well-formed: `IMM8` takes any value (R92). -/
theorem test_every_command_is_well_formed (i : Instr) : i.wf = true := by cases i <;> rfl

/-! ### Decoding: words written out as `RSVD` `IMM8` `OPCODE` (R90, R94) -/

theorem test_decode_orchestrator :
    decode 0b0000000000000000_00000000_00000000#32 = .ok (.nop 0x00) ∧
    decode 0b0000000000000000_10100101_00000001#32 = .ok (.encrypt 0xA5) ∧
    decode 0b0000000000000000_00000001_00000010#32 = .ok (.encryptN 0x01) ∧
    decode 0b0000000000000000_11111111_00000011#32 = .ok (.decrypt 0xFF) ∧
    decode 0b0000000000000000_10000000_00000100#32 = .ok (.genNonce 0x80) := by decide

theorem test_decode_layers :
    decode 0b0000000000000000_00000000_00010000#32 = .ok (.deriveKeys 0x00) ∧
    decode 0b0000000000000000_00000011_00010001#32 = .ok (.addPadding 0x03) ∧
    decode 0b0000000000000000_00000000_00010010#32 = .ok (.removePadding 0x00) ∧
    decode 0b0000000000000000_01000000_00010011#32 = .ok (.xorBuf 0x40) ∧
    decode 0b0000000000000000_00000000_00010100#32 = .ok (.substitute 0x00) ∧
    decode 0b0000000000000000_00000000_00010101#32 = .ok (.invSubstitute 0x00) ∧
    decode 0b0000000000000000_00001000_00010110#32 = .ok (.permute 0x08) ∧
    decode 0b0000000000000000_00000000_00010111#32 = .ok (.invPermute 0x00) := by decide

theorem test_decode_prbg_and_lookups :
    decode 0b0000000000000000_11001101_00100000#32 = .ok (.prbgSeed 0xCD) ∧
    decode 0b0000000000000000_00000000_00100001#32 = .ok (.prbgNext 0x00) ∧
    decode 0b0000000000000000_01000001_00100010#32 = .ok (.sboxLookup 0x41) ∧
    decode 0b0000000000000000_01110100_00100011#32 = .ok (.invSboxLookup 0x74) := by decide

/-- The edges of the unassigned opcodes, and reserved bits (R95, R96). -/
theorem test_decode_illegal :
    [0x05#32, 0x0F#32, 0x18#32, 0x1F#32, 0x24#32, 0xFF#32].map decode = List.replicate 6 (.error .unassignedOpcode) ∧
    [0x00010003#32, 0x80000000#32, 0x00010005#32].map decode = List.replicate 3 (.error .reservedBitsSet) := by decide

/-- The words of R100. -/
theorem test_encode :
    encode (.prbgSeed 0xCD) = 0x0000CD20 ∧ encode (.encryptN 0x00) = 0x00000002 ∧
    encode (.decrypt 0x00) = 0x00000003 := by decide

/-! ### Commands (STATUS, then what else the vector gives) -/

/-- 95_test_vectors.md 2.8 and R190: NOP clears ERR and ERRCODE. -/
theorem test_NOP :
    (run { State.reset with err := true, errcode := 0x11, done := true } 0x00000000).map (·.statusWord) =
      some 0x00000002 := by decide +kernel

/-- 95_test_vectors.md 2.7 e. -/
theorem test_ENCRYPT :
    (run ab 0x00000001).map (fun t => (t.statusWord, t.nonceWord 0, t.nonceWord 3, t.buf)) =
      some (0x00010002, 0x04030201, 0x100F0E0D, abCiphertext) := by decide +kernel

/-- R241: with 15 random bytes the engine stays busy and takes none. -/
theorem test_ENCRYPT_waits :
    (run { ab with rng := ab.rng.drop 1 } 0x00000001).map (fun t => (t.statusWord, t.rng.length, t.buf)) =
      some (0x00010001, 15, ab.buf) := by decide +kernel

/-- 95_test_vectors.md 1.7 and P1. -/
theorem test_ENCRYPT_N :
    (run ab 0x00000002).map (fun t => (t.statusWord, t.ctLen, t.ptLen, t.buf)) =
      some (0x00020002, 16, 2, abCiphertext) := by decide +kernel

/-- 95_test_vectors.md 2.7 h: a nonce of length 15. -/
theorem test_ENCRYPT_N_nonce_length :
    (run { ab with nonceLen := 15 } 0x00000002).map (fun t => (t.statusWord, t.ctLen, t.buf)) =
      some (0x00020206, 0, ab.buf) := by decide +kernel

/-- 95_test_vectors.md 2.7 a. -/
theorem test_DECRYPT :
    (run (withBuf abCiphertext) 0x00000003).map (fun t => (t.statusWord, t.ptLen, t.buf)) =
      some (0x00030002, 2, abPadded) := by decide +kernel

/-- 95_test_vectors.md 2.7 g: sixteen zero bytes. -/
theorem test_DECRYPT_length_overflow :
    (run { withBuf (bytes 0 (List.replicate 16 0)) with ptLen := 7 } 0x00000003).map
        (fun t => (t.statusWord, t.ptLen, t.buf)) =
      some (0x00030506, 7, bytes 0 (List.replicate 16 0x65)) := by decide +kernel

/-- 95_test_vectors.md 2.7 f. -/
theorem test_GEN_NONCE :
    (run { State.reset with nonceLen := 3 } 0x00000004).map
        (fun t => (t.statusWord, t.nonceWord 1, t.nonceWord 2, t.nonceLen)) =
      some (0x00040002, 0x08070605, 0x0C0B0A09, 16) := by decide +kernel

/-- 95_test_vectors.md 2.2: the row of length 3. -/
theorem test_DERIVE_KEYS :
    (run { State.reset with nonceLen := 3, nonce := ((State.reset.nonce.set 0 1).set 1 2).set 2 3 } 0x00000010).map
        (fun t => (t.statusWord, t.acc, t.keyK1, t.keyK2)) =
      some (0x00100002, 0x0606095E08420B19, 0xB2, 0xD8) := by decide +kernel

/-- 95_test_vectors.md 2.2: the empty nonce. -/
theorem test_DERIVE_KEYS_empty_nonce :
    (run { State.reset with nonceLen := 0 } 0x00000010).map (fun t => (t.acc, t.keyK1, t.keyK2)) =
      some (0x07040A5F0A410A1B, 0xB0, 0xD7) := by decide +kernel

/-- 95_test_vectors.md 2.3: `n` = 2. -/
theorem test_ADD_PADDING :
    (run { ab with keyK2 := 0xD7 } 0x00000011).map (fun t => (t.statusWord, t.ctLen, t.buf)) =
      some (0x00110002, 16, abPadded) := by decide +kernel

/-- 95_test_vectors.md 2.3: `n` = 15, with the generator's last state of 2.1. -/
theorem test_ADD_PADDING_nine_filler_bytes :
    (run { State.reset with ptLen := 15, keyK2 := 0xD7 } 0x00000011).map
        (fun t => (t.ctLen, t.wprbg, t.peek 7, t.peek 23, t.peek 31)) =
      some (32, 0x034089E0E1AC1132, some 0x0F, some 0xC3, some 0xAC) := by decide +kernel

/-- 95_test_vectors.md 2.3: `CT_LEN` = 32, prefix 0x18. -/
theorem test_REMOVE_PADDING :
    (run { State.reset with ctLen := 32, ptLen := 0x77, buf := bytes 0 [0, 0, 0, 0, 0, 0, 0, 0x18] } 0x00000012).map
        (fun t => (t.statusWord, t.ptLen)) = some (0x00120002, 24) := by decide +kernel

/-- 95_test_vectors.md 2.3: a prefix of FF x 8 does not wrap. -/
theorem test_REMOVE_PADDING_no_wrap :
    (run { State.reset with ctLen := 16, ptLen := 0x77, buf := bytes 0 (List.replicate 8 0xFF) } 0x00000012).map
        (fun t => (t.statusWord, t.ptLen)) = some (0x00120506, 0x77) := by decide +kernel

/-- 95_test_vectors.md P5, statement 4. -/
theorem test_XOR_BUF :
    (run (withBuf abPadded) 0x00000013).map (fun t => (t.statusWord, t.buf)) = some (0x00130002, abXored) := by
  decide +kernel

/-- 95_test_vectors.md 2.6: CapacityExceeded. -/
theorem test_XOR_BUF_capacity :
    (run { withBuf abPadded with ctLen := 4128 } 0x00000013).map (fun t => (t.statusWord, t.buf)) =
      some (0x00131106, abPadded) := by decide +kernel

/-- 95_test_vectors.md P5, statement 5. -/
theorem test_SUBSTITUTE :
    (run (withBuf abXored) 0x00000014).map (fun t => (t.statusWord, t.buf)) = some (0x00140002, abSubstituted) := by
  decide +kernel

/-- 95_test_vectors.md P5, backwards. -/
theorem test_INV_SUBSTITUTE :
    (run (withBuf abSubstituted) 0x00000015).map (fun t => (t.statusWord, t.buf)) = some (0x00150002, abXored) := by
  decide +kernel

/-- 95_test_vectors.md 2.5: a ragged tail. -/
theorem test_PERMUTE :
    (run { withBuf (bytes 0 ((List.range 20).map (BitVec.ofNat 8))) with ctLen := 20 } 0x00000016).map
        (fun t => (t.statusWord, t.buf)) =
      some (0x00160002, bytes 0 [0x0F, 0x0E, 0x02, 0x03, 0x04, 0x05, 0x06, 0x07, 0x08, 0x09, 0x0A, 0x0B, 0x0C, 0x0D, 0x01,
        0x00, 0x10, 0x11, 0x12, 0x13]) := by decide +kernel

/-- 95_test_vectors.md 2.5, backwards: only the four moved positions need be written. -/
theorem test_INV_PERMUTE :
    (run (withBuf [(0, 0x0F), (1, 0x0E), (14, 0x01), (15, 0x00)]) 0x00000017).map (fun t => (t.statusWord, t.buf)) =
      some (0x00170002, [(0, 0x00), (1, 0x01), (14, 0x0E), (15, 0x0F)]) := by decide +kernel

/-- 95_test_vectors.md P3, statement 1. -/
theorem test_PRBG_SEED :
    (run { State.reset with prbgState := 0xFFFFFFFFFFFFFFFF, prbgOut := 9 } 0x0000CD20).map
        (fun t => (t.statusWord, t.prbgState, t.prbgOut)) = some (0x00200002, 0xCD, 9) := by decide +kernel

/-- 95_test_vectors.md 2.1: the product wraps. -/
theorem test_PRBG_NEXT :
    (run { State.reset with prbgState := 0xFFFFFFFFFFFFFFFF } 0x00000021).map
        (fun t => (t.statusWord, t.prbgState, t.prbgOut)) = some (0x00210002, 0x000000003C558D52, 0x55) := by
  decide +kernel

/-- 95_test_vectors.md 2.4. -/
theorem test_SBOX_LOOKUP :
    (run State.reset 0x0000FF22).map (fun t => (t.statusWord, t.result)) = some (0x00220002, 0x66) := by decide +kernel

/-- 95_test_vectors.md 2.4. -/
theorem test_INV_SBOX_LOOKUP :
    (run State.reset 0x00000023).map (fun t => (t.statusWord, t.result)) = some (0x00230002, 0xD5) := by decide +kernel

/-- 95_test_vectors.md 2.8: an ILLEGAL word. -/
theorem test_illegal_command :
    (run { withBuf abCiphertext with ptLen := 9 } 0x00010003).map (fun t => (t.statusWord, t.ptLen, t.buf)) =
      some (0x00031006, 9, abCiphertext) := by decide +kernel

/-! ### The bus (95_test_vectors.md 2.9) -/

theorem test_bus_window_write :
    (event State.reset (.write 0x100A 0x00004241 0x3)).map (·.buf) = some [(8, 0x41), (9, 0x42)] := by decide +kernel

theorem test_bus_window_read :
    (event (withBuf abCiphertext) (.read 0x100C)).map (·.rdata) = some 0xDDDDB399 := by decide +kernel

theorem test_bus_register_reads :
    (event State.reset (.read 0x0028)).map (·.rdata) = some 0x00001010 ∧
    (event { State.reset with rdata := 7 } (.read 0x002C)).map (·.rdata) = some 0 ∧
    (event { State.reset with keyK1 := 0xB0, keyK2 := 0xD7 } (.read 0x0014)).map (·.rdata) = some 0x0000D7B0 := by
  decide +kernel

/-- 95_test_vectors.md 2.8: lanes without a strobe count as 0x00. -/
theorem test_cmd_write_strobes :
    (event State.reset (.write 0x0000 0x12345603 0x1)).map (fun t => (t.pending, t.statusWord)) =
      some (some 0x00000003, 0x00030001) := by decide +kernel

/-- 95_test_vectors.md P6: a write while busy is lost. -/
theorem test_write_while_busy :
    (event { State.reset with pending := some 0 } (.write 0x0008 5 0xF)).map (·.ptLen) = some 0 ∧
    (event State.reset (.write 0x0008 5 0xF)).map (·.ptLen) = some 5 := by decide +kernel

/-- R251: a reset during GEN_NONCE loses the three bytes taken. -/
theorem test_reset_while_drawing :
    (event { State.reset with pending := some 4, ptLen := 3 } (.reset 3)).map
        (fun t => (t.statusWord, t.pending, t.ptLen, t.rng.length)) = some (0, none, 0, 13) := by decide +kernel

/-! ### Witnesses: states and operands that meet each statement's hypotheses together, at the edges of their ranges -/

/-- The reference configuration is well-formed, and so is every state built from `State.reset`. -/
theorem reset_wf : State.reset.params.wf = true := test_reference_params_wf

theorem witness_EngineTurnRunsPendingCommand :
    (pend 0x0000CD20 [.engine, .read 4]).params.wf = true ∧
    (pend 0x0000CD20 [.engine, .read 4]).pending = some 0x0000CD20 ∧
    decode 0x0000CD20 = .ok (.prbgSeed 0xCD) ∧
    (pend 0x0000CD20 [.engine, .read 4]).inputs = .engine :: [.read 4] ∧
    (pend 0x0000CD20 []).params.wf = true ∧ (pend 0x0000CD20 []).pending = some 0x0000CD20 ∧
    (pend 0x0000CD20 []).inputs = [] ∧ decodeTableWord 32 0x0000CD20 = some (.prbgSeed 0xCD) :=
  ⟨reset_wf, rfl, by decide, rfl, reset_wf, rfl, rfl, by decide⟩

/-- A state that meets the invariant with the opcode 0x05 pending, and the edges of the ILLEGAL words. -/
theorem witness_IllegalCommandEndsWithError :
    ({ pend 5 [.engine] with lastOp := 5 } : State).Inv ∧ (∃ t, step { pend 5 [.engine] with lastOp := 5 } = .next t) ∧
    (pend 0x00010000 [.engine]).params.wf = true ∧ (pend 0x00010000 [.engine]).pending = some 0x00010000 ∧
    (pend 0x00010000 [.engine]).inputs = .engine :: [] ∧
    [0x00010000#32, 0xFFFF0003#32, 0x05#32, 0x0F#32, 0x18#32, 0x1F#32, 0x24#32, 0xFF#32].all illegalWord = true :=
  ⟨⟨by decide, fun c hc => absurd hc List.not_mem_nil, by decide, by decide, by decide, by decide, fun w hw => (by cases hw; rfl)⟩,
    ⟨_, (step_engine (s := { pend 5 [.engine] with lastOp := 5 }) reset_wf rfl).trans rfl⟩, reset_wf, by decide⟩

theorem witness_WellFormedStepGoesOn : State.reset.params.wf = true := reset_wf

/-- The first and the last address of `CMD`, one lane and all lanes. -/
theorem witness_CmdWriteIsAccepted :
    (sched [.write 0x0000 0x12345603 0x1]).params.wf = true ∧ (sched [.write 0x0000 0x12345603 0x1]).pending = none ∧
    (sched [.write 0x0000 0x12345603 0x1]).inputs = .write 0x0000 0x12345603 0x1 :: [] ∧
    (0x0000#16).toNat / 4 * 4 = 0x0000 ∧ (0x0003#16).toNat / 4 * 4 = 0x0000 ∧ (0x1#4) ≠ 0 ∧ (0xF#4) ≠ 0 :=
  ⟨reset_wf, by decide⟩

/-- Each of the five reasons to ignore a write, at the edges of its addresses. -/
theorem witness_IgnoredHostWrites :
    (pend 0 [.write 0x0008 5 0xF]).params.wf = true ∧
    (pend 0 [.write 0x0008 5 0xF]).inputs = .write 0x0008 5 0xF :: [] ∧
    (pend 0 [.write 0x0008 5 0xF]).pending ≠ none ∧
    (0#4) = 0 ∧
    ([0x0004#16, 0x0007#16, 0x0020#16, 0x0023#16, 0x0024#16, 0x0027#16, 0x0028#16, 0x002B#16, 0x002C#16, 0x002F#16].all
      fun a => decide (a.toNat / 4 * 4 ∈ [0x0004, 0x0020, 0x0024, 0x0028, 0x002C])) = true ∧
    (0x0040 ≤ (0x0040#16).toNat ∧ (0x0040#16).toNat < 0x1000) ∧ (0x0040 ≤ (0x0FFF#16).toNat ∧ (0x0FFF#16).toNat < 0x1000) ∧
    0x1000 + State.reset.params.bufBytes ≤ (0x2010#16).toNat ∧
    0x1000 + State.reset.params.bufBytes ≤ (0xFFFF#16).toNat :=
  ⟨reset_wf, by decide⟩

/-- The first and the last byte of the window. -/
theorem witness_BufferWindowWrite :
    (sched [.write 0x1000 1 0xF]).params.wf = true ∧ (sched [.write 0x1000 1 0xF]).pending = none ∧
    (sched [.write 0x1000 1 0xF]).inputs = .write 0x1000 1 0xF :: [] ∧
    0x1000 ≤ (0x1000#16).toNat ∧ (0x1000#16).toNat < 0x1000 + State.reset.params.bufBytes ∧
    0x1000 ≤ (0x200F#16).toNat ∧ (0x200F#16).toNat < 0x1000 + State.reset.params.bufBytes :=
  ⟨reset_wf, by decide⟩

/-- The first and the last address of each register. -/
theorem witness_RegisterWrites :
    (sched [.write 0x0008 1 0xF]).params.wf = true ∧ (sched [.write 0x0008 1 0xF]).pending = none ∧
    (sched [.write 0x0008 1 0xF]).inputs = .write 0x0008 1 0xF :: [] ∧
    [0x0008#16, 0x000B#16, 0x000C#16, 0x000F#16, 0x0010#16, 0x0013#16, 0x0014#16, 0x0017#16, 0x0018#16, 0x001B#16,
      0x001C#16, 0x001F#16].map (fun a => a.toNat / 4 * 4) =
    [0x0008, 0x0008, 0x000C, 0x000C, 0x0010, 0x0010, 0x0014, 0x0014, 0x0018, 0x0018, 0x001C, 0x001C] :=
  ⟨reset_wf, by decide⟩

theorem witness_NonceBankWrite :
    (sched [.write 0x003F 1 0xF]).params.wf = true ∧ (sched [.write 0x003F 1 0xF]).pending = none ∧
    (sched [.write 0x003F 1 0xF]).inputs = .write 0x003F 1 0xF :: [] ∧
    0x0030 ≤ (0x0030#16).toNat ∧ (0x0030#16).toNat < 0x0040 ∧ 0x0030 ≤ (0x003F#16).toNat ∧ (0x003F#16).toNat < 0x0040 :=
  ⟨reset_wf, by decide⟩

/-- One address for each clause, and the edges of the ranges; in the window a byte that has been written. -/
theorem witness_HostReadsWhileIdle :
    (sched [.read 0x0000]).params.wf = true ∧ (sched [.read 0x0000]).pending = none ∧
    (sched [.read 0x0000]).inputs = .read 0x0000 :: [] ∧
    [0x0003#16, 0x0004#16, 0x000B#16, 0x000C#16, 0x0010#16, 0x0014#16, 0x0018#16, 0x001C#16, 0x0020#16, 0x0024#16, 0x0028#16,
      0x002F#16].map (fun a => a.toNat / 4 * 4) =
    [0x0000, 0x0004, 0x0008, 0x000C, 0x0010, 0x0014, 0x0018, 0x001C, 0x0020, 0x0024, 0x0028, 0x002C] ∧
    (0x0030#16).toNat / 4 * 4 = 0x0030 + 0 / 4 * 4 ∧ (0x003F#16).toNat / 4 * 4 = 0x0030 + 15 / 4 * 4 ∧
    (0x0040 ≤ (0x0040#16).toNat ∧ (0x0FFF#16).toNat < 0x1000) ∧
    (0x1000 ≤ (0x1000#16).toNat ∧ (0x1000#16).toNat < 0x1000 + ab.params.bufBytes) ∧
    ab.peek ((0x1008#16).toNat / 4 * 4 - 0x1000 + 1) = some 0x42 ∧
    0x1000 + State.reset.params.bufBytes ≤ (0x2010#16).toNat :=
  ⟨reset_wf, by decide⟩

theorem witness_HostReadsWhileBusy :
    (pend 0 [.read 0x0004]).params.wf = true ∧ (pend 0 [.read 0x0004]).pending ≠ none ∧
    (pend 0 [.read 0x0004]).inputs = .read 0x0004 :: [] ∧
    [0x0007#16, 0x0028#16, 0x002C#16].map (fun a => a.toNat / 4 * 4) = [0x0004, 0x0028, 0x002C] ∧
    (0x0040 ≤ (0x0040#16).toNat ∧ (0x0FFF#16).toNat < 0x1000) ∧
    0x1000 + State.reset.params.bufBytes ≤ (0x2010#16).toNat :=
  ⟨reset_wf, by decide⟩

theorem witness_AddressLowBitsAreIgnored :
    (0x1008#16).toNat = (0x100A#16).toNat / 4 * 4 ∧ (0xFFFC#16).toNat = (0xFFFF#16).toNat / 4 * 4 := by decide

theorem witness_FreeValuesAreDrawnAfresh :
    (sched [.read 0x1000]).params.wf = true ∧ (sched [.read 0x1000]).inputs = .read 0x1000 :: [] ∧
    exec (.nop 0) State.reset = .next State.reset.complete := ⟨reset_wf, rfl, rfl⟩

theorem witness_PtLenWriteAfterNopIsLostOrLands : State.reset.params.wf = true ∧ State.reset.pending = none :=
  ⟨reset_wf, rfl⟩

theorem witness_ResetLeavesTheTableOfResetValues :
    (pend 1 [.reset 3]).params.wf = true ∧ (pend 1 [.reset 3]).inputs = .reset 3 :: [] :=
  ⟨reset_wf, by decide⟩

/-- A drawing GEN_NONCE, a drawing ENCRYPT, an ENCRYPT that is too long to draw, a NOP, and no command at all. -/
theorem witness_ResetLosesTheRandomBytesTaken :
    (∀ w, (pend w [.reset 16]).params.wf = true) ∧ (∀ w, (pend w [.reset 16]).inputs = .reset 16 :: []) ∧
    (∀ w, (pend w [.reset 16]).pending = some w) ∧ 16 ≤ 16 ∧ 0 ≤ 16 ∧
    decode 4 = .ok (.genNonce 0) ∧
    (decode 1 = .ok (.encrypt 0) ∧ 8 + (pend 1 [.reset 16]).ptLen.toNat ≤ (pend 1 [.reset 16]).params.bufBytes) ∧
    (∀ imm, decode 1 ≠ .ok (.genNonce imm)) ∧
    8 + ({ pend 1 [.reset 16] with ptLen := 4105 } : State).ptLen.toNat > (pend 1 [.reset 16]).params.bufBytes ∧
    (∀ imm, decode 0 ≠ .ok (.genNonce imm) ∧ decode 0 ≠ .ok (.encrypt imm)) ∧
    (sched [.reset 0]).params.wf = true ∧ (sched [.reset 0]).inputs = .reset 0 :: [] ∧ (sched [.reset 0]).pending = none :=
  ⟨fun _ => reset_wf, fun _ => rfl, fun _ => rfl, by decide, by decide, by decide, by decide, fun _ h => (by cases h),
    by decide, fun _ => ⟨fun h => (by cases h), fun h => (by cases h)⟩, reset_wf, rfl, rfl⟩

/-- The state right after reset goes on, idle. -/
theorem reset_step : step State.reset = .next State.reset := by
  rw [step_of_wf reset_wf]
  rfl

/-- A state that meets the invariant with a command pending goes on. -/
theorem witness_EveryStepKeepsTheInvariant :
    (pend 0 []).Inv ∧ step (pend 0 []) = .next (pend 0 []).complete := by
  refine ⟨⟨by decide, fun c hc => absurd hc List.not_mem_nil, by decide, by decide, by decide, by decide, ?_⟩, ?_⟩
  · intro w hw
    cases hw
    rfl
  · rw [step_of_wf (show (pend 0 []).params.wf = true from reset_wf)]
    rfl

theorem witness_ParametersNeverChange : step State.reset = .next State.reset := reset_step

/-- Each of the four kinds of step: a read, a write elsewhere than `CMD`, and an idle turn of the engine. -/
theorem witness_StatusChangesOnlyByAcceptanceCompletionReset :
    step (sched [.read 0x0004]) = .next (State.reset.hostRead 0x0004) ∧
    (step (sched [.write 0x0008 5 0xF]) = .next (State.reset.hostWrite 0x0008 5 0xF) ∧ (0x0008#16).toNat / 4 * 4 ≠ 0) ∧
    (step (sched [.engine]) = .next State.reset ∧ (sched [.engine]).pending = none) ∧
    (step State.reset = .next State.reset ∧ State.reset.inputs = [] ∧ State.reset.pending = none) := by
  have wf : ∀ es, (sched es).params.wf = true := fun _ => reset_wf
  exact ⟨step_read (wf _) rfl, ⟨step_write (wf _) rfl, by decide⟩, ⟨(step_engine (wf _) rfl).trans rfl, rfl⟩, reset_step, rfl, rfl⟩

/-- A register that PRBG_NEXT does not list; the first byte beyond the range of PERMUTE over a ragged buffer; a payload byte
of ADD_PADDING. -/
theorem witness_CommandsWriteOnlyWhatTheTableLists :
    ((∃ t, exec (.prbgNext 0) State.reset = .next t) ∧ Column.result ∉ (Instr.prbgNext 0).writes) ∧
    ((∃ t, exec (.permute 0) { State.reset with ctLen := 20 } = .next t) ∧
      ¬ (Instr.permute 0).stores { State.reset with ctLen := 20 } 16) ∧
    (∃ t, exec (.addPadding 0) ab = .next t) ∧ ¬ (Instr.addPadding 0).stores ab 8 := by
  refine ⟨⟨⟨_, rfl⟩, by decide⟩, ⟨⟨_, rfl⟩, ?_⟩, ⟨_, rfl⟩, ?_⟩
  · show ¬ 16 < 20 / 16 * 16
    decide
  · show ¬ (8 < 8 ∨ (8 + 2 ≤ 8 ∧ 8 < paddedLen 2))
    decide

theorem witness_LatchesAreUnobservable :
    State.reset.SameButLatches { State.reset with wprbg := 1, acc := 2, tk1 := 3, tk2 := 4 } ∧
    step State.reset = .next State.reset := ⟨rfl, reset_step⟩

/-- One byte too many for each of the two checks. -/
theorem witness_CapacityExceededChangesOnlyStatus :
    (Instr.addPadding 0 ∈ [Instr.encrypt 0, .encryptN 0, .addPadding 0] ∧
      8 + ({ State.reset with ptLen := 4105 } : State).ptLen.toNat > State.reset.params.bufBytes) ∧
    (Instr.invPermute 0 ∈ [Instr.decrypt 0, .removePadding 0, .xorBuf 0, .substitute 0, .invSubstitute 0, .permute 0,
        .invPermute 0] ∧
      ({ State.reset with ctLen := 4113 } : State).ctLen.toNat > State.reset.params.bufBytes) := by decide

/-- REMOVE_PADDING of an empty buffer, which ends with MalformedLength. -/
theorem witness_ErrorsLeaveEverythingButStatus :
    ∃ t, exec (.removePadding 0) (pend 0x12 []) = .next t ∧ (pend 0x12 []).pending ≠ none ∧ t.pending = none ∧
      t.err = true ∧ ¬ ((∃ imm, Instr.removePadding 0 = .decrypt imm) ∧ t.errcode = 0x05) :=
  ⟨_, rfl, by decide, rfl, rfl, by rintro ⟨-, h⟩; exact absurd h (by decide)⟩

/-- Both ends of both ranges of the nonce length. -/
theorem witness_DeriveKeysWritesTheDerivedPair :
    State.reset.nonceLen.toNat ≤ 16 ∧ ({ State.reset with nonceLen := 0 } : State).nonceLen.toNat ≤ 16 ∧
    ({ State.reset with nonceLen := 17 } : State).nonceLen.toNat > 16 ∧
    ({ State.reset with nonceLen := 255 } : State).nonceLen.toNat > 16 := by decide

theorem witness_KeysDoNotDependOnTheNonce :
    ([0, 1, 2, 4, 8, 16].map fun n => ({ State.reset with nonceLen := n } : State).nonceLen.toNat) =
      [0, 1, 2, 4, 8, 16] := by decide

/-- The empty payload, no filler, the longest payload, and one byte more. -/
theorem witness_AddPaddingBuildsThePaddedBuffer :
    State.reset.params.wf = true ∧
    (0 = State.reset.ptLen.toNat ∧ 8 = (16 - (8 + 0) % 16) % 16 ∧ 8 + 0 ≤ State.reset.params.bufBytes) ∧
    (8 = ({ State.reset with ptLen := 8 } : State).ptLen.toNat ∧ 0 = (16 - (8 + 8) % 16) % 16 ∧
      8 + 8 ≤ State.reset.params.bufBytes) ∧
    (4104 = ({ State.reset with ptLen := 4104 } : State).ptLen.toNat ∧ 0 = (16 - (8 + 4104) % 16) % 16 ∧
      8 + 4104 ≤ State.reset.params.bufBytes) ∧
    (4105 = ({ State.reset with ptLen := 4105 } : State).ptLen.toNat ∧ 15 = (16 - (8 + 4105) % 16) % 16 ∧
      8 + 4105 > State.reset.params.bufBytes) :=
  ⟨reset_wf, by decide⟩

/-- Each check at its edge, then the shortest and the longest declared length. -/
theorem witness_RemovePaddingChecksAndRecoversTheLength :
    (4113 = ({ State.reset with ctLen := 4113 } : State).ctLen.toNat ∧ 4113 > State.reset.params.bufBytes) ∧
    (7 = ({ State.reset with ctLen := 7 } : State).ctLen.toNat ∧ 7 ≤ State.reset.params.bufBytes ∧ 7 < 8) ∧
    (8 = ({ State.reset with ctLen := 8 } : State).ctLen.toNat ∧ 8 ≤ State.reset.params.bufBytes ∧ 8 ≤ 8 ∧ 8 % 16 ≠ 0) ∧
    (16 = (declares 9).ctLen.toNat ∧ 9 = specFromBe64 (declares 9).bufByte ∧ 16 ≤ (declares 9).params.bufBytes ∧
      8 ≤ 16 ∧ 16 % 16 = 0 ∧ 8 + 9 > 16) ∧
    (16 = (declares 0).ctLen.toNat ∧ 0 = specFromBe64 (declares 0).bufByte ∧ 8 + 0 ≤ 16) ∧
    (16 = (declares 8).ctLen.toNat ∧ 8 = specFromBe64 (declares 8).bufByte ∧ 8 + 8 ≤ 16) := by decide +kernel

theorem witness_PaddingRoundTrip : ab.params.wf = true ∧ 8 + ab.ptLen.toNat ≤ ab.params.bufBytes :=
  ⟨reset_wf, by decide⟩

/-- The edges of the layers' ranges: nothing, the whole buffer, one byte more. -/
theorem layer_ranges :
    State.reset.ctLen.toNat ≤ State.reset.params.bufBytes ∧
    ({ State.reset with ctLen := 4112 } : State).ctLen.toNat ≤ State.reset.params.bufBytes ∧
    ({ State.reset with ctLen := 4113 } : State).ctLen.toNat > State.reset.params.bufBytes := by decide

theorem witness_XorBufXorsEveryByte :
    State.reset.ctLen.toNat ≤ State.reset.params.bufBytes ∧
    ({ State.reset with ctLen := 4112 } : State).ctLen.toNat ≤ State.reset.params.bufBytes ∧
    ({ State.reset with ctLen := 4113 } : State).ctLen.toNat > State.reset.params.bufBytes := layer_ranges

theorem witness_XorBufIsSelfInverse : (withBuf abPadded).ctLen.toNat ≤ (withBuf abPadded).params.bufBytes := by decide

theorem witness_SubstitutionMapsEveryByte :
    State.reset.params.wf = true ∧ State.reset.ctLen.toNat ≤ State.reset.params.bufBytes ∧
    ({ State.reset with ctLen := 4112 } : State).ctLen.toNat ≤ State.reset.params.bufBytes ∧
    ({ State.reset with ctLen := 4113 } : State).ctLen.toNat > State.reset.params.bufBytes := ⟨reset_wf, layer_ranges⟩

theorem witness_SubstitutionRoundTrip :
    (withBuf abXored).params.wf = true ∧ (withBuf abXored).ctLen.toNat ≤ (withBuf abXored).params.bufBytes ∧
    [Instr.invSubstitute 0, .substitute 1] ∈
      [[Instr.substitute 0, .invSubstitute 1], [.invSubstitute 0, .substitute 1]] :=
  ⟨reset_wf, by decide⟩

theorem witness_SboxLookups : State.reset.params.wf = true := reset_wf

/-- A ragged buffer with a moved byte, and a buffer that is too long. -/
theorem witness_PermutationSwapsInFullBlocks :
    Instr.invPermute 0 ∈ [Instr.permute 0, .invPermute 0] ∧
    ({ State.reset with ctLen := 20 } : State).ctLen.toNat ≤ State.reset.params.bufBytes ∧
    (15 < ({ State.reset with ctLen := 20 } : State).ctLen.toNat / 16 * 16 ∧ 15 % 16 ∈ [0, 1, 14, 15]) ∧
    ({ State.reset with ctLen := 4113 } : State).ctLen.toNat > State.reset.params.bufBytes := by decide

theorem witness_PermutationRoundTrip :
    ({ State.reset with ctLen := 20 } : State).ctLen.toNat ≤ State.reset.params.bufBytes ∧
    [Instr.permute 0, .permute 0] ∈
      [[Instr.permute 0, .invPermute 1], [.invPermute 0, .permute 1], [.permute 0, .permute 0]] := by decide

theorem witness_NopOnlyCompletes : decode 0x0000 = .ok (.nop 0) ∧ decode 0xFF00 = .ok (.nop 0xFF) := by decide

theorem witness_GenNonceDrawsSixteenBytes :
    16 ≤ State.reset.rng.length ∧ ({ State.reset with rng := List.replicate 15 7 } : State).rng.length < 16 := by decide

/-- GEN_NONCE and ENCRYPT with 15 random bytes, each at an engine's turn that goes on. -/
theorem witness_StalledRandomSourceHoldsTheEngine :
    (decode 4 = .ok (.genNonce 0) ∧ decode 1 = .ok (.encrypt 0)) ∧
    ∀ w ∈ [(1 : Word), 4], ∃ s t : State, s.pending = some w ∧ 8 + s.ptLen.toNat ≤ s.params.bufBytes ∧
      s.rng.length < 16 ∧ (∀ k rest, s.inputs ≠ .reset k :: rest) ∧ step s = .next t := by
  refine ⟨by decide, fun w _ => ?_⟩
  obtain ⟨t, ht⟩ := State.engineTurn_next (stalled w)
  exact ⟨stalled w, t, rfl, Nat.le_of_ble_eq_true rfl, Nat.le_of_ble_eq_true rfl, fun k rest h => (by cases h),
    (step_no_event (s := stalled w) reset_wf rfl).trans ht⟩

/-- A payload, the longest payload, one byte more, and a nonce of length 15. -/
theorem witness_EncryptNProducesTheCiphertext :
    ab.params.wf = true ∧
    (2 = ab.ptLen.toNat ∧ 6 = (16 - (8 + 2) % 16) % 16 ∧ 8 + 2 ≤ ab.params.bufBytes ∧ ab.nonceLen = 16) ∧
    (4104 = ({ ab with ptLen := 4104 } : State).ptLen.toNat ∧ 0 = (16 - (8 + 4104) % 16) % 16 ∧
      8 + 4104 ≤ ab.params.bufBytes) ∧
    (4105 = ({ ab with ptLen := 4105 } : State).ptLen.toNat ∧ 15 = (16 - (8 + 4105) % 16) % 16 ∧
      8 + 4105 > ab.params.bufBytes) ∧
    ({ ab with nonceLen := 15 } : State).nonceLen ≠ 16 :=
  ⟨reset_wf, by decide⟩

theorem witness_EncryptDrawsANonceAndEncrypts :
    ab.params.wf = true ∧
    (2 = ab.ptLen.toNat ∧ 6 = (16 - (8 + 2) % 16) % 16 ∧ 8 + 2 ≤ ab.params.bufBytes ∧ 16 ≤ ab.rng.length) ∧
    (4105 = ({ ab with ptLen := 4105 } : State).ptLen.toNat ∧ 15 = (16 - (8 + 4105) % 16) % 16 ∧
      8 + 4105 > ab.params.bufBytes) :=
  ⟨reset_wf, by decide⟩

/-- Each check at its edge; then, for each of the two ends, a buffer after the layers: by 95_test_vectors.md 2.7 the
ciphertext of "AB" decrypts to a declared length of 2, and sixteen zero bytes to one that passes the buffer. -/
theorem witness_DecryptChecksAndInvertsTheLayers :
    (withBuf abCiphertext).params.wf = true ∧
    (4113 = ({ State.reset with ctLen := 4113 } : State).ctLen.toNat ∧ 4113 > State.reset.params.bufBytes) ∧
    (17 = ({ State.reset with ctLen := 17 } : State).ctLen.toNat ∧ 17 ≤ State.reset.params.bufBytes ∧ 17 % 16 ≠ 0) ∧
    (16 = ({ State.reset with ctLen := 16, nonceLen := 8 } : State).ctLen.toNat ∧ 16 % 16 = 0 ∧
      ({ State.reset with ctLen := 16, nonceLen := 8 } : State).nonceLen ≠ 16) ∧
    (0 = State.reset.ctLen.toNat ∧ State.reset.nonceLen = 16) ∧
    (16 = (withBuf abCiphertext).ctLen.toNat ∧ 16 ≤ (withBuf abCiphertext).params.bufBytes ∧
      (withBuf abCiphertext).nonceLen = 16 ∧
      8 + specFromBe64 (withBuf abPadded).bufByte ≤ 16 ∧
      8 + specFromBe64 (withBuf (bytes 0 (List.replicate 16 0x65))).bufByte > 16) :=
  ⟨reset_wf, by decide⟩

theorem witness_DecryptNeverRaisesBadBlockAlignment :
    ∃ t, exec (.decrypt 0) State.reset = .next t ∧ t.errcode = 0x03 ∧ State.reset.ctLen = 0 := ⟨_, rfl, rfl, rfl⟩

theorem witness_EncryptThenDecryptRecoversThePayload :
    ab.params.wf = true ∧ 8 + ab.ptLen.toNat ≤ ab.params.bufBytes ∧ ab.nonceLen = 16 ∧ 16 ≤ ab.rng.length :=
  ⟨reset_wf, by decide⟩

theorem witness_CiphertextDoesNotDependOnTheNonce :
    8 + ab.ptLen.toNat ≤ ab.params.bufBytes ∧ ab.nonceLen = 16 ∧ 16 ≤ (List.replicate 16 (0x5A : Byte)).length := by decide

theorem witness_LayersByHandEncryptAlike :
    ab.params.wf = true ∧ 8 + ab.ptLen.toNat ≤ ab.params.bufBytes ∧ ab.nonceLen = 16 ∧
    (∀ i < ab.ptLen.toNat, ab.peek (8 + i) ≠ none) :=
  ⟨reset_wf, by decide⟩

theorem witness_LayersByHandDecryptAlike :
    (withBuf abCiphertext).ctLen.toNat ≤ (withBuf abCiphertext).params.bufBytes ∧
    (withBuf abCiphertext).ctLen.toNat % 16 = 0 ∧ (withBuf abCiphertext).nonceLen = 16 ∧
    (∀ a < (withBuf abCiphertext).ctLen.toNat, (withBuf abCiphertext).peek a ≠ none) := by decide +kernel

end Sys2Proof.Tests
end

section
/-! SUPPORT. The bus: changes of the state that it does not look at, the nonce bank, and what each step leaves
unchanged. -/

namespace Sys2Proof.Machine

/-! ### Host writes under a change of the state -/

/-- A host write commutes with every change of the state that keeps what the write looks at (whether the engine is busy,
the size of the buffer, the values of the registers) and that commutes with the write's own updates (R63, R71). -/
theorem State.hostWrite_comm {f : State → State} (s : State) (a : Addr) (d : Word) (strb : BitVec 4)
    (hbusy : (f s).busy = s.busy) (hsize : (f s).params.bufBytes = s.params.bufBytes)
    (hread : ∀ r, (f s).readReg r = s.readReg r) (haccept : ∀ v, (f s).accept v = f (s.accept v))
    (hreg : ∀ r v, (f s).writeReg r v = f (s.writeReg r v))
    (hwin : ∀ off, (f s).writeWindow off d strb = f (s.writeWindow off d strb)) :
    (f s).hostWrite a d strb = f (s.hostWrite a d strb) := by
  by_cases hign : s.busy = true ∨ strb = 0
  · rw [State.hostWrite_ignored hign, State.hostWrite_ignored (hbusy ▸ hign)]
  · obtain ⟨hb, hs⟩ : s.busy = false ∧ strb ≠ 0 := by simpa using hign
    cases ht : targetOf s.params.bufBytes a with
    | reserved => rw [State.hostWrite_reserved ht, State.hostWrite_reserved (hsize ▸ ht)]
    | window off => rw [State.hostWrite_window hb ht, State.hostWrite_window (hbusy ▸ hb) (hsize ▸ ht), hwin]
    | reg r =>
      by_cases hr : r = .cmd
      · subst hr
        rw [State.hostWrite_cmd hb hs ht, State.hostWrite_cmd (hbusy ▸ hb) hs (hsize ▸ ht), haccept]
      · rw [State.hostWrite_reg hb hr ht, State.hostWrite_reg (hbusy ▸ hb) hr (hsize ▸ ht), hread, hreg]

/-! ### The registers behind an address -/

/-- `CMD` stands at word offset 0 only (R24). -/
theorem offset_of_regAt_cmd {off : Nat} (h : regAt off = some .cmd) : off = 0 := by
  unfold regAt at h
  split at h <;> simp_all

/-- Only the addresses of word 0 select `CMD` (R24, R66). -/
theorem wordAddr_of_targetOf_cmd {n : Nat} {a : Addr} (h : targetOf n a = .reg .cmd) : wordAddr a = 0 := by
  unfold targetOf at h
  split at h
  · cases h
  · split at h
    · rename_i r hr
      obtain rfl : r = .cmd := by simpa using h
      exact offset_of_regAt_cmd hr
    · cases h

/-- The register that holds word `w` of the nonce bank (R35). -/
def nonceReg : Fin 4 → Reg
  | 0 => .nonce0
  | 1 => .nonce1
  | 2 => .nonce2
  | 3 => .nonce3

theorem nonceReg_ne_cmd (w : Fin 4) : nonceReg w ≠ .cmd := by revert w; decide

@[simp] theorem State.readReg_nonceReg (s : State) (w : Fin 4) : s.readReg (nonceReg w) = s.nonceWord w := by
  match w with
  | 0 | 1 | 2 | 3 => rfl

@[simp] theorem State.writeReg_nonceReg (s : State) (w : Fin 4) (v : Word) :
    s.writeReg (nonceReg w) v = s.setNonceWord w v := by
  match w with
  | 0 | 1 | 2 | 3 => rfl

theorem regAt_nonceReg (w : Fin 4) : regAt (0x30 + 4 * w.val) = some (nonceReg w) := by
  revert w; decide

/-- An address of the nonce bank selects the register of its word (R35, R66). -/
theorem targetOf_nonceReg {n : Nat} (hn : n % 16 = 0) {a : Addr} (w : Fin 4) (hw : a.toNat / 4 * 4 = 0x30 + 4 * w.val) :
    targetOf n a = .reg (nonceReg w) := by
  rw [targetOf_map hn (.inl (by omega)), hw, regAt_nonceReg]
  rfl

/-- A host write to a word of the nonce bank merges the strobed lanes into its bytes (R35, R63). -/
theorem State.nonce_setNonceWord_mergeLanes (s : State) (w : Fin 4) (d : Word) (strb : BitVec 4) (i : Fin 16) :
    (s.setNonceWord w (mergeLanes (s.nonceWord w) d strb)).nonce[i] =
      if i.val / 4 = w.val ∧ strb.getLsbD (i.val % 4) = true then lane d (i.val % 4) else s.nonce[i] := by
  have hj : i.val % 4 < 4 := Nat.mod_lt _ (by omega)
  refine (s.setNonceWord_nonce w _ i.val i.isLt).trans ?_
  by_cases hw : i.val / 4 = w.val
  · have hi : 4 * w.val + i.val % 4 = i.val := by omega
    rw [if_pos hw, lane_mergeLanes _ _ _ hj, s.lane_nonceWord w _ hj]
    simp [hw, hi]
  · rw [if_neg hw, if_neg fun h => hw h.1]
    rfl

/-! ### What the steps leave unchanged -/

@[simp] theorem State.writeReg_params (s : State) (r : Reg) (v : Word) : (s.writeReg r v).params = s.params := by
  cases r <;> rfl

@[simp] theorem State.writeReg_pending (s : State) (r : Reg) (v : Word) : (s.writeReg r v).pending = s.pending := by
  cases r <;> rfl

@[simp] theorem State.writeReg_statusWord (s : State) (r : Reg) (v : Word) :
    (s.writeReg r v).statusWord = s.statusWord := by
  cases r <;> rfl

@[simp] theorem State.hostWrite_params (s : State) (a : Addr) (d : Word) (strb : BitVec 4) :
    (s.hostWrite a d strb).params = s.params := by
  rcases s.hostWrite_cases a d strb with h | ⟨-, -, -, h⟩ | ⟨r, -, -, -, h⟩ | ⟨off, -, -, h⟩
  · rw [h]
  · rw [h, State.accept_params]
  · rw [h, State.writeReg_params]
  · rw [h, State.writeWindow_params]

/-- A host write elsewhere than `CMD` leaves STATUS and PENDING as they were (R25). -/
theorem State.hostWrite_status (s : State) {a : Addr} (d : Word) (strb : BitVec 4) (ha : a.toNat / 4 * 4 ≠ 0) :
    (s.hostWrite a d strb).statusWord = s.statusWord ∧ (s.hostWrite a d strb).pending = s.pending := by
  rcases s.hostWrite_cases a d strb with h | ⟨-, -, ht, -⟩ | ⟨r, -, -, -, h⟩ | ⟨off, -, -, h⟩
  · rw [h]
    exact ⟨rfl, rfl⟩
  · exact absurd (wordAddr_eq a ▸ wordAddr_of_targetOf_cmd ht) ha
  · rw [h]
    exact ⟨s.writeReg_statusWord r _, s.writeReg_pending r _⟩
  · rw [h]
    exact ⟨rfl, rfl⟩

theorem exec_params {i : Instr} {s t : State} (h : exec i s = .next t) : t.params = s.params := by
  rcases exec_ends h with rfl | ⟨u, hu⟩
  · rfl
  · rcases hu.ends with rfl | ⟨e, rfl⟩
    · exact hu.params
    · exact hu.params

theorem State.engineTurn_params {s t : State} (h : s.engineTurn = .next t) : t.params = s.params := by
  rcases State.engineTurn_cases h with ⟨-, rfl⟩ | ⟨-, -, -, -, rfl⟩ | ⟨-, i, -, -, h⟩
  · rfl
  · rfl
  · exact exec_params h

/-! ### The secret -/

/-- The change of a state that puts other bytes in the secret ROM. -/
def State.withPss (pss : Vector Byte 32) (s : State) : State := { s with params := { s.params with pss := pss } }

/-- The register map holds no byte of the secret (R38). -/
theorem State.readReg_withPss (s : State) (pss : Vector Byte 32) (r : Reg) :
    (s.withPss pss).readReg r = s.readReg r := by
  cases r <;> rfl

theorem State.writeReg_withPss (s : State) (pss : Vector Byte 32) (r : Reg) (v : Word) :
    (s.withPss pss).writeReg r v = (s.writeReg r v).withPss pss := by
  cases r <;> rfl

/-- What a host read returns, busy or idle, is the same whatever the secret is (R38). -/
theorem State.hostReadData_withPss (s : State) (pss : Vector Byte 32) (a : Addr) :
    (s.withPss pss).hostReadData a = s.hostReadData a := by
  have hsize : (s.withPss pss).params.bufBytes = s.params.bufBytes := rfl
  have hbusy : (s.withPss pss).readBusy a = s.readBusy a := by
    unfold State.readBusy
    rw [hsize]
    rfl
  have hidle : (s.withPss pss).readIdle a = s.readIdle a := by
    unfold State.readIdle
    rw [hsize]
    cases targetOf s.params.bufBytes a with
    | reg r => exact s.readReg_withPss pss r
    | window off => rfl
    | reserved => rfl
  unfold State.hostReadData
  rw [hbusy, hidle]
  rfl

end Sys2Proof.Machine
end

section
/-! SUPPORT. WPRBG, ACC, TK1 and TK2 are unobservable (R33, R39, R41): whatever reads them has written them before in the
same command, so every operation does the same whatever they hold, but for these four themselves. -/

namespace Sys2Proof.Machine

/-- The change of a state that puts other values in the unobservable latches. -/
def State.withLatches (wprbg acc : DWord) (tk1 tk2 : Byte) (s : State) : State :=
  { s with wprbg := wprbg, acc := acc, tk1 := tk1, tk2 := tk2 }

theorem State.SameButLatches.exists_withLatches {s t : State} (h : s.SameButLatches t) :
    ∃ w x k1 k2, t = s.withLatches w x k1 k2 := ⟨_, _, _, _, h⟩

/-- Two outcomes that both go on, to states that differ in the unobservable latches at most. -/
inductive NextButLatches : Result → Result → Prop
  | next {s t : State} (h : s.SameButLatches t) : NextButLatches (.next s) (.next t)

theorem NextButLatches.exists_next {s : State} {r : Result} (h : NextButLatches (.next s) r) :
    ∃ t, r = .next t ∧ s.SameButLatches t := by
  cases h with
  | next h => exact ⟨_, rfl, h⟩

/-- Two meanings that make the same check go on alike when both their branches do. -/
theorem NextButLatches.ite {c : Prop} [Decidable c] {r₁ r₂ q₁ q₂ : Result} (h₁ : NextButLatches r₁ q₁)
    (h₂ : NextButLatches r₂ q₂) : NextButLatches (if c then r₁ else r₂) (if c then q₁ else q₂) := by
  split
  · exact h₁
  · exact h₂

variable {s t : State} (h : s.SameButLatches t)
include h

/-- The derivation gives ACC, TK1 and TK2 from the secret and the nonce bank alone (R120, R122). -/
theorem State.SameButLatches.deriveLatches : t.deriveLatches = { s.deriveLatches with wprbg := t.wprbg } := by
  obtain ⟨w, x, k1, k2, rfl⟩ := h.exists_withLatches
  rfl

/-- `encrypt_pipeline` gives a value to each latch before it reads it, so nothing of what they held is left (R192). -/
theorem State.SameButLatches.encryptPipeline (n : Nat) : t.encryptPipeline n = s.encryptPipeline n := by
  unfold State.encryptPipeline
  rw [h.deriveLatches]
  rfl

/-- The end by `remove_padding` reads `BUF` only (R132). -/
theorem State.SameButLatches.finishRemovePadding (m : Nat) :
    (s.finishRemovePadding m).SameButLatches (t.finishRemovePadding m) := by
  obtain ⟨w, x, k1, k2, rfl⟩ := h.exists_withLatches
  have hr : (s.withLatches w x k1 k2).removePadding m = s.removePadding m := rfl
  unfold State.finishRemovePadding
  rw [hr]
  cases s.removePadding m with
  | error e => rfl
  | ok ol => rfl

/-- `decrypt_pipeline` derives TK1 before it reads it, and does not read WPRBG (R195). -/
theorem State.SameButLatches.decryptPipeline (m : Nat) :
    (s.decryptPipeline m).SameButLatches (t.decryptPipeline m) := by
  have hlayers : (s.deriveLatches.decryptLayers s.deriveLatches.tk1 m).SameButLatches
      (t.deriveLatches.decryptLayers t.deriveLatches.tk1 m) := by
    rw [h.deriveLatches]
    rfl
  exact hlayers.finishRemovePadding m

/-- No check of a command looks at a latch, so both runs take the same branch. What a branch writes outside the latches
does not depend on them, for the two pipelines by the lemmas above, elsewhere by the meaning itself. -/
theorem State.SameButLatches.exec (i : Instr) : NextButLatches (exec i s) (exec i t) := by
  have hdraw : s.drawNonce.SameButLatches t.drawNonce := by
    obtain ⟨w, x, k1, k2, rfl⟩ := h.exists_withLatches
    rfl
  have hencDrawn := hdraw.encryptPipeline
  have henc := h.encryptPipeline
  have hdec := h.decryptPipeline
  have hpad := h.finishRemovePadding
  obtain ⟨w, x, k1, k2, rfl⟩ := h.exists_withLatches
  cases i with
  | nop | prbgSeed | prbgNext | sboxLookup | invSboxLookup => exact .next rfl
  | genNonce | deriveKeys | addPadding => exact .ite (.next rfl) (.next rfl)
  | xorBuf | substitute | invSubstitute | permute | invPermute => exact .ite (.next rfl) (.next rfl)
  | encrypt => exact .ite (.next rfl) (.ite (.next (congrArg State.complete (hencDrawn _))) (.next rfl))
  | encryptN => exact .ite (.next rfl) (.ite (.next rfl) (.next (congrArg State.complete (henc _))))
  | removePadding => exact .ite (.next rfl) (.next (hpad _))
  | decrypt => exact .ite (.next rfl) (.ite (.next rfl) (.ite (.next rfl) (.next (hdec _))))

theorem State.SameButLatches.engineTurn : NextButLatches s.engineTurn t.engineTurn := by
  have hpend : t.pending = s.pending := by rw [h]
  cases hp : s.pending with
  | none =>
    rw [State.engineTurn_of_idle hp, State.engineTurn_of_idle (hpend.trans hp)]
    exact .next h
  | some v =>
    cases hd : decode v with
    | ok i =>
      rw [State.engineTurn_of_decode hp hd, State.engineTurn_of_decode (hpend.trans hp) hd]
      exact h.exec i
    | error e =>
      obtain ⟨w, x, k1, k2, rfl⟩ := h.exists_withLatches
      rw [State.engineTurn_of_illegal hp hd, State.engineTurn_of_illegal (hpend.trans hp) hd]
      exact .next rfl

theorem State.SameButLatches.hostWrite (a : Addr) (d : Word) (strb : BitVec 4) :
    (s.hostWrite a d strb).SameButLatches (t.hostWrite a d strb) := by
  obtain ⟨w, x, k1, k2, rfl⟩ := h.exists_withLatches
  rw [s.hostWrite_comm a d strb rfl rfl (fun r => by cases r <;> rfl) (fun _ => rfl) (fun r _ => by cases r <;> rfl)
    (fun _ => rfl)]
  rfl

/-- A step does the same whatever the latches hold, but for these. -/
theorem State.SameButLatches.step (hwf : s.params.wf = true) : NextButLatches (step s) (step t) := by
  obtain ⟨w, x, k1, k2, rfl⟩ := h.exists_withLatches
  have hwf' : (s.withLatches w x k1 k2).params.wf = true := hwf
  have hrest (rest : List Event) :
      ({ s with inputs := rest } : State).SameButLatches { s.withLatches w x k1 k2 with inputs := rest } := rfl
  match hin : s.inputs with
  | [] =>
    rw [step_no_event hwf hin, step_no_event hwf' hin]
    exact h.engineTurn
  | .engine :: rest =>
    rw [step_engine hwf hin, step_engine hwf' hin]
    exact (hrest rest).engineTurn
  | .read a :: rest =>
    rw [step_read hwf hin, step_read hwf' hin]
    exact .next rfl
  | .write a d strb :: rest =>
    rw [step_write hwf hin, step_write hwf' hin]
    exact .next ((hrest rest).hostWrite a d strb)
  | .reset k :: rest =>
    rw [step_reset hwf hin, step_reset hwf' hin]
    exact .next rfl

end Sys2Proof.Machine
end

section
/-! SUPPORT. What each command may write (R44): the columns that every shared operation leaves unchanged, and the row of
each command. -/

namespace Sys2Proof.Machine

/-! ### Columns of the table of R44 -/

theorem Column.same_refl (s : State) (c : Column) : c.same s s := by
  cases c <;> simp [Column.same]

theorem Column.same_trans {s u t : State} {c : Column} (h₁ : c.same s u) (h₂ : c.same u t) : c.same s t := by
  cases c <;> simp_all [Column.same]

/-- The end of a command writes STATUS and PENDING, which have no column. -/
theorem Column.same_finish (s : State) (err : Bool) (code : Byte) (c : Column) : c.same s (s.finish err code) := by
  cases c <;> simp [Column.same, State.finish]

theorem Column.same_withBuf (s : State) (m : Memory) (c : Column) : c.same s { s with buf := m } := by
  cases c <;> simp [Column.same]

theorem Column.same_withCtLen (s : State) (v : Word) {c : Column} (h : c ∉ [Column.ctLen]) :
    c.same s { s with ctLen := v } := by
  cases c <;> simp_all [Column.same]

theorem Column.same_withKeys (s : State) (x : DWord) (k1 k2 : Byte) {c : Column} (h : c ∉ [Column.keys]) :
    c.same s { s with acc := x, keyK1 := k1, keyK2 := k2 } := by
  cases c <;> simp_all [Column.same]

theorem Column.same_withPrbgState (s : State) (v : DWord) {c : Column} (h : c ∉ [Column.prbgState]) :
    c.same s { s with prbgState := v } := by
  cases c <;> simp_all [Column.same]

theorem Column.same_withPrbg (s : State) (v : DWord) (o : Byte) {c : Column} (h : c ∉ [Column.prbgState, .prbgOut]) :
    c.same s { s with prbgState := v, prbgOut := o } := by
  cases c <;> simp_all [Column.same]

theorem Column.same_withResult (s : State) (b : Byte) {c : Column} (h : c ∉ [Column.result]) :
    c.same s { s with result := b } := by
  cases c <;> simp_all [Column.same]

theorem Column.same_padBuffer (s : State) (k2 : Byte) (n : Nat) (c : Column) : c.same s (s.padBuffer k2 n) := by
  cases c <;> simp [Column.same]

theorem Column.same_drawNonce (s : State) {c : Column} (h : c ∉ [Column.nonceLen, .nonce]) : c.same s s.drawNonce := by
  cases c <;> simp_all [Column.same]

theorem Column.same_encryptPipeline (s : State) (n : Nat) {c : Column} (h : c ∉ [Column.ctLen]) :
    c.same s (s.encryptPipeline n) := by
  cases c <;> simp_all [Column.same]

theorem Column.same_finishRemovePadding (s : State) (m : Nat) {c : Column} (h : c ∉ [Column.ptLen]) :
    c.same s (s.finishRemovePadding m) := by
  cases c <;> simp_all [Column.same]

theorem Column.same_decryptPipeline (s : State) (m : Nat) {c : Column} (h : c ∉ [Column.ptLen]) :
    c.same s (s.decryptPipeline m) := by
  cases c <;> simp_all [Column.same]

/-! ### Rows of the table of R44 -/

/-- From `s` to `t`, no register changes that the row of `i` does not list, nor a byte of `BUF` outside its range. -/
structure RowKept (i : Instr) (s t : State) : Prop where
  columns : ∀ c ∉ i.writes, c.same s t
  bytes : ∀ a, ¬ i.stores s a → t.peek a = s.peek a

/-- An outcome that, if it goes on, keeps to the row of `i`. -/
def KeepsRow (i : Instr) (s : State) (r : Result) : Prop := ∀ t, r = .next t → RowKept i s t

variable {i : Instr} {s u : State}

theorem RowKept.refl : RowKept i s s := ⟨fun c _ => c.same_refl s, fun _ _ => rfl⟩

/-- A change that leaves `BUF` as it is. -/
theorem RowKept.of_buf (hb : u.buf = s.buf) (hc : ∀ c ∉ i.writes, c.same s u) : RowKept i s u :=
  ⟨hc, fun a _ => State.peek_of_buf hb a⟩

theorem KeepsRow.next (h : RowKept i s u) : KeepsRow i s (.next u) := by
  rintro t ⟨⟩
  exact h

theorem KeepsRow.completes (h : RowKept i s u) : KeepsRow i s (.next u.complete) :=
  KeepsRow.next ⟨fun c hc => Column.same_trans (h.columns c hc) (c.same_finish _ _ _), h.bytes⟩

theorem KeepsRow.waits : KeepsRow i s (.next s) := .next .refl

theorem KeepsRow.raises (e : Error) : KeepsRow i s (.next (s.raise e)) :=
  KeepsRow.next ⟨fun c _ => c.same_finish _ _ _, fun _ _ => rfl⟩

theorem KeepsRow.ite {c : Prop} [Decidable c] {r q : Result} (hr : KeepsRow i s r) (hq : KeepsRow i s q) :
    KeepsRow i s (if c then r else q) := by
  split
  · exact hr
  · exact hq

/-- A meaning that checks `CT_LEN` and runs a layer, which writes nothing but `BUF`. -/
theorem KeepsRow.layer {m : Memory} (h : ∀ a, ¬ i.stores s a → m.read a = s.buf.read a) :
    KeepsRow i s (if s.bufferTooLong then .next (s.raise .capacityExceeded)
      else .next ({ s with buf := m } : State).complete) :=
  .ite (.raises _) (.completes ⟨fun c _ => c.same_withBuf s m, h⟩)

/-- Every command keeps to its row of the table of R44. -/
theorem exec_keepsRow (i : Instr) (s : State) : KeepsRow i s (exec i s) := by
  cases i with
  | nop => exact .completes .refl
  | encrypt =>
    refine .ite (.raises _) (.ite (.completes ⟨fun c hc => ?_, fun a ha => ?_⟩) .waits)
    · obtain ⟨hct, hn⟩ : c ∉ [Column.ctLen] ∧ c ∉ [Column.nonceLen, .nonce] := by simpa [Instr.writes] using hc
      exact Column.same_trans (Column.same_drawNonce s hn) (Column.same_encryptPipeline _ _ hct)
    · exact State.peek_encryptPipeline_ge s.drawNonce (not_lt.mp ha)
  | encryptN =>
    exact .ite (.raises _) (.ite (.raises _) (.completes
      ⟨fun _ => Column.same_encryptPipeline s _, fun _ ha => s.peek_encryptPipeline_ge (not_lt.mp ha)⟩))
  | decrypt =>
    exact .ite (.raises _) (.ite (.raises _) (.ite (.raises _) (.next
      ⟨fun _ => Column.same_decryptPipeline s _, fun _ ha => s.peek_decryptPipeline_ge (not_lt.mp ha)⟩)))
  | genNonce => exact .ite (.completes (.of_buf rfl fun _ => Column.same_drawNonce s)) .waits
  | deriveKeys => exact .ite (.raises _) (.completes (.of_buf rfl fun _ => Column.same_withKeys s _ _ _))
  | addPadding =>
    refine .ite (.raises _) (.completes ⟨fun c hc => ?_, fun a ha => ?_⟩)
    · exact Column.same_trans (Column.same_padBuffer s _ _ c) (Column.same_withCtLen _ _ hc)
    · obtain ⟨hlen, hfill⟩ := not_or.mp ha
      exact (s.peek_padBuffer s.keyK2 s.ptLen.toNat a).trans (by rw [if_neg hlen, if_neg hfill])
  | removePadding =>
    exact .ite (.raises _) (.next (.of_buf (s.finishRemovePadding_buf _) fun _ => Column.same_finishRemovePadding s _))
  | xorBuf => exact .layer fun a ha => (s.peek_xorLayer _ _ a).trans (if_neg ha)
  | substitute => exact .layer fun a ha => (s.peek_substLayer _ a).trans (if_neg ha)
  | invSubstitute => exact .layer fun a ha => (s.peek_invSubstLayer _ a).trans (if_neg ha)
  | permute =>
    exact .layer fun a ha => (s.peek_permuteLayer _ a).trans
      (if_neg fun h => ha (Nat.lt_mul_of_div_lt h.1 (by omega)))
  | invPermute =>
    exact .layer fun a ha => (s.peek_invPermuteLayer _ a).trans
      (if_neg fun h => ha (Nat.lt_mul_of_div_lt h.1 (by omega)))
  | prbgSeed => exact .completes (.of_buf rfl fun _ => Column.same_withPrbgState s _)
  | prbgNext => exact .completes (.of_buf rfl fun _ => Column.same_withPrbg s _ _)
  | sboxLookup | invSboxLookup => exact .completes (.of_buf rfl fun _ => Column.same_withResult s _)

end Sys2Proof.Machine
end

section
/-! Statements of the family 10_state: the unobservable latches, the nonce bank, the parameters, STATUS, the table of R44,
the secret, reset. -/

open Sys2Proof Sys2Proof.Machine

/-- Settles O26, event by event: no operation reads a latch that it has not written before. -/
theorem latchesAreUnobservable : Obligations.LatchesAreUnobservable := by
  intro s t s' hst hs
  obtain ⟨hwf, -⟩ := step_cases hs
  have h := hst.step hwf
  rw [hs] at h
  exact h.exists_next

/-- Settles O12: the address selects the register of one nonce word, and a write to it merges the strobed lanes. -/
theorem nonceBankWrite : Obligations.NonceBankWrite := by
  intro s a d strb rest hwf hp hin hlo hhi
  obtain ⟨w, hw⟩ : ∃ w : Fin 4, (a.toNat - 0x30) / 4 = w.val := ⟨⟨(a.toNat - 0x30) / 4, by omega⟩, rfl⟩
  have ht := targetOf_nonceReg (Params.wf_bufBytes hwf).1 w (a := a) (by omega)
  have hb : ({ s with inputs := rest } : State).busy = false := by simp [State.busy, hp]
  refine ⟨_, step_write hwf hin, ?_, fun i => ?_⟩
  · rw [State.hostWrite_reg hb (nonceReg_ne_cmd w) ht, State.writeReg_nonceReg]
    rfl
  · rw [State.hostWrite_reg hb (nonceReg_ne_cmd w) ht, State.writeReg_nonceReg, State.readReg_nonceReg, hw]
    exact State.nonce_setNonceWord_mergeLanes _ w d strb i

/-- Settles O23, along everything a step can do. -/
theorem parametersNeverChange : Obligations.ParametersNeverChange := by
  intro s t hs
  obtain ⟨-, ⟨-, h⟩ | ⟨rest, -, h⟩ | ⟨a, rest, -, rfl⟩ | ⟨a, d, strb, rest, -, rfl⟩ | ⟨k, rest, -, rfl⟩⟩ :=
    step_cases hs
  · exact State.engineTurn_params h
  · exact State.engineTurn_params (s := { s with inputs := rest }) h
  · rfl
  · exact State.hostWrite_params _ a d strb
  · rfl

/-- Settles O24, event by event: a write outside word 0 does not reach `CMD`. -/
theorem statusChangesOnlyByAcceptanceCompletionReset :
    Obligations.StatusChangesOnlyByAcceptanceCompletionReset := by
  intro s t rest hs hev
  obtain ⟨hwf, -⟩ := step_cases hs
  rcases hev with ⟨a, hin⟩ | ⟨a, d, strb, hin, ha⟩ | ⟨hin, hp⟩ | ⟨hin, hp⟩
  · rw [step_read hwf hin] at hs
    cases hs
    exact ⟨rfl, rfl⟩
  · rw [step_write hwf hin] at hs
    cases hs
    exact State.hostWrite_status { s with inputs := rest } d strb ha
  · rw [step_engine hwf hin, State.engineTurn_of_idle (s := { s with inputs := rest }) hp] at hs
    cases hs
    exact ⟨rfl, rfl⟩
  · rw [step_no_event hwf hin, State.engineTurn_of_idle hp] at hs
    cases hs
    exact ⟨rfl, rfl⟩

/-- Settles O25, command by command along the checks of its meaning (`exec_keepsRow`). -/
theorem commandsWriteOnlyWhatTheTableLists : Obligations.CommandsWriteOnlyWhatTheTableLists :=
  fun i s t h => ⟨(exec_keepsRow i s t h).columns, (exec_keepsRow i s t h).bytes⟩

/-- Settles O16: another secret changes no register, no read and no update that a write makes. -/
theorem busNeverReachesThePss : Obligations.BusNeverReachesThePss := by
  intro s pss a d strb
  refine ⟨(s.hostReadData_withPss pss a).symm, ?_⟩
  exact s.hostWrite_comm (f := State.withPss pss) a d strb rfl rfl (s.readReg_withPss pss) (fun _ => rfl)
    (s.writeReg_withPss pss) (fun _ => rfl)

/-- Settles O19: reset builds its state from `State.resetWith`, adding only the model's own fields. -/
theorem resetLeavesTheTableOfResetValues : Obligations.ResetLeavesTheTableOfResetValues := by
  unfold Obligations.ResetLeavesTheTableOfResetValues
  intro table
  have hreset (p : Params) : table (State.resetWith p) :=
    ⟨rfl, rfl, rfl, rfl, rfl, rfl, rfl, rfl, rfl, rfl, rfl, rfl, rfl, fun i => Vector.getElem_replicate _, fun _ => rfl⟩
  exact ⟨fun s k rest hwf hin => ⟨_, step_reset hwf hin, hreset s.params, rfl, rfl⟩, fun p => ⟨hreset p, rfl⟩⟩

/-- Settles O21: after reset the buffer is empty, the engine idle and every field of STATUS 0. -/
theorem invariantHoldsAtReset : Obligations.InvariantHoldsAtReset := by
  intro p
  exact {
    bufWf := .nil
    bufBound := fun c hc => absurd hc List.not_mem_nil
    busyNotDone := fun _ => rfl
    errNeedsDone := fun _ => rfl
    errcodeZero := ⟨fun _ => rfl, fun _ => rfl⟩
    errcodeLegal := List.mem_cons_self
    lastOpPending := fun w hw => nomatch hw }

end

section
/-! SUPPORT. Host transactions by address: what an address selects, what a read of it returns, what a write to it does. -/

namespace Sys2Proof.Machine

variable {s : State} {rest : List Event}

/-! ### What a step goes by -/

/-- Two states of one configuration step alike when the next turn is the same at both. -/
theorem step_congr {t : State} (hp : s.params = t.params) (h : s.turn = t.turn) : step s = step t := by
  rw [step, step, State.stepOnce, State.stepOnce, hp, h]

theorem decode_of_toOption {w : Word} {i : Instr} (h : (decode w).toOption = some i) : decode w = .ok i := by
  cases hd : decode w with
  | error e => rw [hd] at h; cases h
  | ok j => rw [hd] at h; cases h; rfl

/-! ### What an address selects -/

/-- An address whose word offset has a register selects it (R66). -/
theorem targetOf_reg {n off : Nat} {a : Addr} {r : Reg} (hn : n % 16 = 0) (hoff : off < 0x1000)
    (hr : regAt off = some r) (ha : a.toNat / 4 * 4 = off) : targetOf n a = .reg r := by
  rw [targetOf_map hn (.inl (by omega)), ha, hr]
  rfl

/-- Word 0x002C, 0x0040 to 0x0FFF and everything above the buffer window are reserved (R66, R67). -/
theorem targetOf_reserved {n : Nat} {a : Addr} (hn : n % 16 = 0)
    (ha : a.toNat / 4 * 4 = 0x2C ∨ (0x40 ≤ a.toNat ∧ a.toNat < 0x1000) ∨ 0x1000 + n ≤ a.toNat) :
    targetOf n a = .reserved := by
  have hnone : regAt (a.toNat / 4 * 4) = none := by
    rcases ha with ha | ha
    · rw [ha]
      rfl
    · exact regAt_none (by omega)
  rw [targetOf_map hn (by omega), hnone]
  rfl

/-- A window that an address selects lies inside the buffer, all four bytes of it (R68). -/
theorem window_le_of_targetOf {n off : Nat} {a : Addr} (hn : n % 16 = 0) (h : targetOf n a = .window off) :
    off + 4 ≤ n := by
  unfold targetOf at h
  rw [wordAddr_eq] at h
  split at h
  · have hoff := Target.window.inj h
    omega
  · split at h <;> cases h

/-- Addresses of one word have the same `addr & 0xFFFC` (R64). -/
theorem and_FFFC_congr {a b : Addr} (h : a.toNat / 4 = b.toNat / 4) : a &&& 0xFFFC#16 = b &&& 0xFFFC#16 :=
  BitVec.eq_of_toNat_eq (((wordAddr_eq a).trans (congrArg (· * 4) h)).trans (wordAddr_eq b).symm)

/-! ### Reads -/

theorem State.busy_of_none (hp : s.pending = none) : s.busy = false := by simp [State.busy, hp]

theorem State.busy_of_ne_none (hp : s.pending ≠ none) : s.busy = true := Option.isSome_iff_ne_none.mpr hp

/-- A host read is a step that puts `hostReadData` on the bus and changes no state of the spec (R62). -/
theorem step_read_eq {a : Addr} (hwf : s.params.wf = true) (h : s.inputs = .read a :: rest) :
    step s = .next { s with inputs := rest, rdata := s.hostReadData a, epoch := s.epoch + 1 } := step_read hwf h

theorem State.hostReadData_reg {a : Addr} {r : Reg} (hp : s.pending = none)
    (ht : targetOf s.params.bufBytes a = .reg r) : s.hostReadData a = s.readReg r := by
  simp [State.hostReadData, State.busy_of_none hp, State.readIdle, ht]

theorem State.hostReadData_window {a : Addr} {off : Nat} (hp : s.pending = none)
    (ht : targetOf s.params.bufBytes a = .window off) : s.hostReadData a = s.readWindow off := by
  simp [State.hostReadData, State.busy_of_none hp, State.readIdle, ht]

/-- Reserved addresses read 0, busy or idle (R67, R72). -/
theorem State.hostReadData_reserved {a : Addr} (ht : targetOf s.params.bufBytes a = .reserved) :
    s.hostReadData a = 0 := by
  simp [State.hostReadData, State.readBusy, State.readIdle, ht]

/-- STATUS and CAPACITY read their value, busy or idle (R34, R72). -/
theorem State.hostReadData_exact {a : Addr} {r : Reg} (hr : r = .status ∨ r = .capacity)
    (ht : targetOf s.params.bufBytes a = .reg r) : s.hostReadData a = s.readReg r := by
  rcases hr with rfl | rfl <;> simp [State.hostReadData, State.readBusy, State.readIdle, ht, State.readReg]

/-- The word CAPACITY, as a number (R34). -/
theorem State.capacityWord_toNat (hwf : s.params.wf = true) : (s.readReg .capacity).toNat = s.params.bufBytes := by
  obtain ⟨-, -, hle⟩ := Params.wf_bufBytes hwf
  exact (BitVec.toNat_ofNat ..).trans (Nat.mod_eq_of_lt (by omega))

/-- A register of one byte, as a number: its reserved bits read as 0 (R62). -/
theorem byteWord_toNat (b : Byte) : (b.setWidth 32).toNat = b.toNat := BitVec.toNat_setWidth_of_le (by omega)

/-- A host read at another address of the same word is the same (R64). -/
theorem State.hostReadData_congr {a b : Addr} (h : a.toNat / 4 = b.toNat / 4) :
    s.hostReadData a = s.hostReadData b := by
  unfold State.hostReadData State.readBusy State.readIdle
  rw [targetOf_congr _ h, and_FFFC_congr h]

theorem State.hostRead_congr {a b : Addr} (h : a.toNat / 4 = b.toNat / 4) : s.hostRead a = s.hostRead b := by
  rw [State.hostRead, State.hostReadData_congr h, State.hostRead]

/-! ### Writes -/

/-- A write to `CMD` is a step that accepts the word of the strobed lanes (R71). -/
theorem step_write_cmd {a : Addr} {d : Word} {strb : BitVec 4} (hwf : s.params.wf = true) (hp : s.pending = none)
    (hin : s.inputs = .write a d strb :: rest) (ha : a.toNat / 4 * 4 = 0) (hs : strb ≠ 0) :
    step s = .next (({ s with inputs := rest } : State).accept (mergeLanes 0 d strb)) := by
  have ht := targetOf_reg (Params.wf_bufBytes hwf).1 (by decide) (rfl : regAt 0 = some .cmd) ha
  exact (step_write hwf hin).trans (congrArg Host.Outcome.next
    (State.hostWrite_cmd (s := { s with inputs := rest }) (State.busy_of_none hp) hs ht))

/-- A write to another register is a step that merges the strobed lanes into it (R63). -/
theorem step_write_reg {a : Addr} {d : Word} {strb : BitVec 4} {off : Nat} {r : Reg} (hwf : s.params.wf = true)
    (hp : s.pending = none) (hin : s.inputs = .write a d strb :: rest) (hoff : off < 0x1000)
    (hr : regAt off = some r) (hcmd : r ≠ .cmd) (ha : a.toNat / 4 * 4 = off) :
    step s = .next (({ s with inputs := rest } : State).writeReg r
      (mergeLanes (({ s with inputs := rest } : State).readReg r) d strb)) := by
  have ht := targetOf_reg (Params.wf_bufBytes hwf).1 hoff hr ha
  exact (step_write hwf hin).trans (congrArg Host.Outcome.next
    (State.hostWrite_reg (s := { s with inputs := rest }) (State.busy_of_none hp) hcmd ht))

/-- A write to a register that takes no value does nothing (R63, R67). -/
theorem State.hostWrite_readOnly {a : Addr} {d : Word} {strb : BitVec 4} {r : Reg} (hcmd : r ≠ .cmd)
    (hr : ∀ v, s.writeReg r v = s) (ht : targetOf s.params.bufBytes a = .reg r) : s.hostWrite a d strb = s := by
  cases hb : s.busy with
  | true => exact State.hostWrite_ignored (.inl hb)
  | false => rw [State.hostWrite_reg hb hcmd ht, hr]

/-- A host write at another address of the same word is the same (R64). -/
theorem State.hostWrite_congr {a b : Addr} (d : Word) (strb : BitVec 4) (h : a.toNat / 4 = b.toNat / 4) :
    s.hostWrite a d strb = s.hostWrite b d strb := by
  unfold State.hostWrite
  rw [targetOf_congr _ h]

/-- A write with every strobe set replaces the whole word (R63). -/
theorem mergeLanes_all (old data : Word) : mergeLanes old data 0xF = data :=
  eq_of_lanes fun j hj => by
    rw [lane_mergeLanes old data 0xF hj]
    interval_cases j <;> rfl

end Sys2Proof.Machine
end

section
/-! SUPPORT. The invariant: it speaks of STATUS, PENDING and the buffer only, and each of the things a step can do keeps
it. -/

namespace Sys2Proof.Machine

variable {s t : State}

theorem State.Inv.within (h : s.Inv) : Memory.Within s.params.bufBytes s.buf := ⟨h.bufWf, h.bufBound⟩

theorem State.Inv.withInputs (h : s.Inv) (rest : List Event) : ({ s with inputs := rest } : State).Inv := { h with }

theorem State.Inv.hostRead (h : s.Inv) (a : Addr) : (s.hostRead a).Inv := { h with }

/-- Acceptance sets STATUS as it stands while busy (R71). -/
theorem State.Inv.accept (h : s.Inv) (w : Word) : (s.accept w).Inv where
  bufWf := h.bufWf
  bufBound := h.bufBound
  busyNotDone _ := rfl
  errNeedsDone _ := rfl
  errcodeZero := ⟨fun _ => rfl, fun _ => rfl⟩
  errcodeLegal := List.mem_cons_self
  lastOpPending _ hw := congrArg cmdOpcode (Option.some.inj hw)

theorem State.Inv.writeReg (h : s.Inv) (r : Reg) (v : Word) : (s.writeReg r v).Inv := by
  cases r <;> exact { h with }

/-- A write to the buffer window stays inside `BUF[0 .. BUF_BYTES]` (R69). -/
theorem State.Inv.writeWindow (h : s.Inv) {off : Nat} (hoff : off + 4 ≤ s.params.bufBytes) (d : Word)
    (strb : BitVec 4) : (s.writeWindow off d strb).Inv :=
  have hw := (((h.within.writeLane off d strb 0 (by omega)).writeLane off d strb 1 (by omega)).writeLane off d strb 2
    (by omega)).writeLane off d strb 3 (by omega)
  { h with bufWf := hw.wf, bufBound := hw.bound }

theorem State.Inv.hostWrite (h : s.Inv) (hn : s.params.bufBytes % 16 = 0) (a : Addr) (d : Word) (strb : BitVec 4) :
    (s.hostWrite a d strb).Inv := by
  rcases s.hostWrite_cases a d strb with he | ⟨-, -, -, he⟩ | ⟨r, -, -, -, he⟩ | ⟨off, -, ht, he⟩
  · rwa [he]
  · rw [he]
    exact h.accept _
  · rw [he]
    exact h.writeReg r _
  · rw [he]
    exact h.writeWindow (window_le_of_targetOf hn ht) d strb

/-- An end of a command leaves the engine idle and DONE set, so ERR and ERRCODE need only agree (R227, R228). -/
theorem State.inv_finish {err : Bool} {code : Byte} (hw : Memory.Within s.params.bufBytes s.buf)
    (hzero : err = false ↔ code = 0) (hlegal : code ∈ legalErrcodes) : (s.finish err code).Inv where
  bufWf := hw.wf
  bufBound := hw.bound
  busyNotDone hb := nomatch hb
  errNeedsDone hd := nomatch hd
  errcodeZero := hzero
  errcodeLegal := hlegal
  lastOpPending _ hp := nomatch hp

theorem State.inv_complete (hw : Memory.Within s.params.bufBytes s.buf) : s.complete.Inv :=
  State.inv_finish hw ⟨fun _ => rfl, fun _ => rfl⟩ List.mem_cons_self

/-- Every error has a code of R220 other than 0x00. -/
theorem errorCode_legal (e : Error) : errorCode e ≠ 0 ∧ errorCode e ∈ legalErrcodes := by
  cases e <;> decide

theorem State.inv_raise (hw : Memory.Within s.params.bufBytes s.buf) (e : Error) : (s.raise e).Inv :=
  State.inv_finish hw ⟨(nomatch ·), fun h => absurd h (errorCode_legal e).1⟩ (errorCode_legal e).2

/-- A command waits with nothing changed, or ends with the buffer still inside its bounds. -/
theorem State.Inv.exec (h : s.Inv) (hn : s.params.bufBytes % 16 = 0) {i : Instr} (he : exec i s = .next t) :
    t.Inv := by
  rcases exec_ends he with rfl | ⟨u, hu⟩
  · exact h
  · have hw : Memory.Within u.params.bufBytes u.buf := hu.params ▸ hu.within hn h.within
    rcases hu.ends with rfl | ⟨e, rfl⟩
    · exact State.inv_complete hw
    · exact State.inv_raise hw e

theorem State.Inv.engineTurn (h : s.Inv) (hn : s.params.bufBytes % 16 = 0) (he : s.engineTurn = .next t) : t.Inv := by
  rcases State.engineTurn_cases he with ⟨-, rfl⟩ | ⟨-, -, -, -, rfl⟩ | ⟨-, i, -, -, hi⟩
  · exact h
  · exact State.inv_raise h.within _
  · exact h.exec hn hi

/-- Reset leaves the reset values in every field that the invariant speaks of. -/
theorem State.inv_applyReset (s : State) (k : Nat) : (s.applyReset k).Inv := { invariantHoldsAtReset s.params with }

end Sys2Proof.Machine
end

section
/-! Statements of the family 20_memory: the invariant, host writes and reads by address, the engine's turn, the two orders
of a write and the engine's step. -/

open Sys2Proof Sys2Proof.Machine

/-- Settles O22, along everything a step can do: each agent's turn keeps the invariant. -/
theorem everyStepKeepsTheInvariant : Obligations.EveryStepKeepsTheInvariant := by
  intro s t h hs
  obtain ⟨hwf, hcases⟩ := step_cases hs
  have hn := (Params.wf_bufBytes hwf).1
  rcases hcases with ⟨-, he⟩ | ⟨rest, -, he⟩ | ⟨a, rest, -, rfl⟩ | ⟨a, d, strb, rest, -, rfl⟩ | ⟨k, rest, -, rfl⟩
  · exact h.engineTurn hn he
  · exact (h.withInputs rest).engineTurn hn he
  · exact (h.withInputs rest).hostRead a
  · exact (h.withInputs rest).hostWrite hn a d strb
  · exact State.inv_applyReset _ k

/-- Settles O8: the word accepted is the data merged into 0. -/
theorem cmdWriteIsAccepted : Obligations.CmdWriteIsAccepted := by
  intro s a d strb rest hwf hp hin ha hs
  refine ⟨mergeLanes 0 d strb, fun j hj => ?_, step_write_cmd hwf hp hin ha hs⟩
  have hzero : lane 0 j = 0#8 := BitVec.extractLsb'_zero
  exact (lane_mergeLanes 0 d strb hj).trans (by rw [hzero]; rfl)

/-- Settles O9: a write while busy or without a strobe is ignored wherever it goes, and the addresses listed select a
read-only register or nothing. -/
theorem ignoredHostWrites : Obligations.IgnoredHostWrites := by
  intro s a d strb rest hwf hin hign
  have hn := (Params.wf_bufBytes hwf).1
  have hreg {off : Nat} (r : Reg) (hcmd : r ≠ .cmd)
      (hkeep : ∀ v, ({ s with inputs := rest } : State).writeReg r v = { s with inputs := rest }) (hoff : off < 0x1000)
      (hr : regAt off = some r) (ha : a.toNat / 4 * 4 = off) :=
    State.hostWrite_readOnly (d := d) (strb := strb) hcmd hkeep (targetOf_reg hn hoff hr ha)
  rw [step_write hwf hin]
  refine congrArg Host.Outcome.next ?_
  rcases hign with hp | hs | hro | hres
  · exact State.hostWrite_ignored (.inl (State.busy_of_ne_none hp))
  · exact State.hostWrite_ignored (.inr hs)
  · simp only [List.mem_cons, List.not_mem_nil, or_false] at hro
    rcases hro with ha | ha | ha | ha | ha
    · exact hreg .status (by decide) (fun _ => rfl) (by decide) rfl ha
    · exact hreg .prbgOut (by decide) (fun _ => rfl) (by decide) rfl ha
    · exact hreg .result (by decide) (fun _ => rfl) (by decide) rfl ha
    · exact hreg .capacity (by decide) (fun _ => rfl) (by decide) rfl ha
    · exact State.hostWrite_reserved (targetOf_reserved hn (.inl ha))
  · exact State.hostWrite_reserved (targetOf_reserved hn (.inr hres))

/-- Settles O10: the address selects its word of the window, and `peek_writeWindow` says what a write leaves at every byte
of the buffer. -/
theorem bufferWindowWrite : Obligations.BufferWindowWrite := by
  intro s a d strb rest hwf hp hin hlo hhi
  have ht := targetOf_window (Params.wf_bufBytes hwf).1 hlo hhi
  have hwin := State.hostWrite_window (s := { s with inputs := rest }) (d := d) (strb := strb)
    (State.busy_of_none hp) ht
  refine ⟨_, (step_write hwf hin).trans (congrArg Host.Outcome.next hwin), rfl, fun j hj => ?_, fun b hb => ?_⟩
  · rw [State.peek_writeWindow, Nat.add_sub_cancel_left]
    simp only [Nat.le_add_right, Nat.add_lt_add_iff_left, hj, true_and]
    rfl
  · rw [State.peek_writeWindow, if_neg (by omega)]
    rfl

/-- Settles O11: each address selects its register, which takes the merged word, reserved bits dropped. -/
theorem registerWrites : Obligations.RegisterWrites := by
  intro s a d strb rest hwf hp hin merged
  have hmerged (old : Word) : merged old (mergeLanes old d strb) := fun j hj => lane_mergeLanes old d strb hj
  have hwrite {off : Nat} (r : Reg) := step_write_reg (off := off) (r := r) hwf hp hin
  obtain ⟨hlen, hk1, hk2⟩ := lane_readReg_fields s
  refine ⟨fun ha => ⟨_, hmerged _, hwrite .ptLen (by decide) rfl (by decide) ha⟩,
    fun ha => ⟨_, hmerged _, hwrite .ctLen (by decide) rfl (by decide) ha⟩, fun ha => ?_, fun ha => ?_,
    fun ha => ⟨_, hmerged _, hwrite .prbgStateLo (by decide) rfl (by decide) ha⟩,
    fun ha => ⟨_, hmerged _, hwrite .prbgStateHi (by decide) rfl (by decide) ha⟩⟩
  · have h0 := lane_mergeLanes (s.readReg .nonceLen) d strb (j := 0) (by omega)
    rw [hlen] at h0
    exact h0 ▸ hwrite .nonceLen (by decide) rfl (by decide) ha
  · have h0 := lane_mergeLanes (s.readReg .keys) d strb (j := 0) (by omega)
    have h1 := lane_mergeLanes (s.readReg .keys) d strb (j := 1) (by omega)
    rw [hk1] at h0
    rw [hk2] at h1
    exact h0 ▸ h1 ▸ hwrite .keys (by decide) rfl (by decide) ha

/-- Settles O13: the address selects a register, a word of the window, or nothing, and the read returns its value. -/
theorem hostReadsWhileIdle : Obligations.HostReadsWhileIdle := by
  intro s a rest hwf hp hin
  have hn := (Params.wf_bufBytes hwf).1
  have hreg {off : Nat} (r : Reg) (hoff : off < 0x1000) (hr : regAt off = some r) (ha : a.toNat / 4 * 4 = off) :
      s.hostReadData a = s.readReg r := State.hostReadData_reg hp (targetOf_reg hn hoff hr ha)
  have hres := fun h => State.hostReadData_reserved (s := s) (a := a) (targetOf_reserved hn h)
  refine ⟨_, _, step_read_eq hwf hin, hreg .cmd (by decide) rfl, fun ha => ?_, hreg .ptLen (by decide) rfl,
    hreg .ctLen (by decide) rfl, fun ha => ?_, fun ha => ?_, hreg .prbgStateLo (by decide) rfl,
    hreg .prbgStateHi (by decide) rfl, fun ha => ?_, fun ha => ?_, fun ha => ?_, fun ha => hres (.inl ha),
    fun i ha => ?_, fun ha => hres (.inr (.inl ha)), fun ha j hj b hb => ?_, fun ha => hres (.inr (.inr ha))⟩
  · rw [hreg .status (by decide) rfl ha]
    refine s.statusWord_toNat.trans ?_
    rw [State.busy_of_none hp, Bool.toNat_false, Nat.zero_add]
  · rw [hreg .nonceLen (by decide) rfl ha]
    exact byteWord_toNat s.nonceLen
  · rw [hreg .keys (by decide) rfl ha]
    exact s.keysWord_toNat
  · rw [hreg .prbgOut (by decide) rfl ha]
    exact byteWord_toNat s.prbgOut
  · rw [hreg .result (by decide) rfl ha]
    exact byteWord_toNat s.result
  · rw [hreg .capacity (by decide) rfl ha]
    exact State.capacityWord_toNat hwf
  · obtain ⟨w, hw⟩ : ∃ w : Fin 4, i.val / 4 = w.val := ⟨⟨i.val / 4, by omega⟩, rfl⟩
    rw [State.hostReadData_reg hp (targetOf_nonceReg hn w (by omega)), State.readReg_nonceReg]
    refine (s.lane_nonceWord w (i.val % 4) (by omega)).trans ?_
    congr 1
    omega
  · rw [State.hostReadData_window hp (targetOf_window hn ha.1 ha.2)]
    exact (s.lane_readWindow _ hj).trans (State.bufByte_of_peek hb)

/-- Settles O14: the reads that are exact do not depend on what the engine does. -/
theorem hostReadsWhileBusy : Obligations.HostReadsWhileBusy := by
  intro s a rest hwf hp hin
  have hn := (Params.wf_bufBytes hwf).1
  have hres := fun h => State.hostReadData_reserved (s := s) (a := a) (targetOf_reserved hn h)
  refine ⟨_, _, step_read_eq hwf hin, fun ha => ?_, fun ha => ?_, fun ha => hres (.inl ha),
    fun ha => hres (.inr (.inl ha)), fun ha => hres (.inr (.inr ha))⟩
  · rw [State.hostReadData_exact (.inl rfl) (targetOf_reg hn (by decide) rfl ha)]
    refine s.statusWord_toNat.trans ?_
    rw [State.busy_of_ne_none hp, Bool.toNat_true]
  · rw [State.hostReadData_exact (.inr rfl) (targetOf_reg hn (by decide) rfl ha)]
    exact State.capacityWord_toNat hwf

/-- Settles O15: both transactions look at the word address only; an ill-formed configuration refuses both alike. -/
theorem addressLowBitsAreIgnored : Obligations.AddressLowBitsAreIgnored := by
  intro s a b d strb rest hb
  have h : a.toNat / 4 = b.toNat / 4 := by omega
  exact ⟨step_congr rfl (congrArg Host.Outcome.next (State.hostWrite_congr d strb h)),
    step_congr rfl (congrArg Host.Outcome.next (State.hostRead_congr h))⟩

/-- Settles O4: a turn of the engine decodes the pending word, and `withFetchWord` puts that turn first. -/
theorem engineTurnRunsPendingCommand : Obligations.EngineTurnRunsPendingCommand := by
  refine ⟨fun s w i rest hwf hp hd hin => ?_, fun s w i hwf hp hd hin => ?_, fun s w i hwf hd => ?_⟩
  · rw [step_engine hwf hin, State.engineTurn_of_decode (s := { s with inputs := rest }) hp hd]
  · rw [step_no_event hwf hin, State.engineTurn_of_decode hp hd]
  · have hword : BitVec.ofNat 32 (w % 2 ^ 32) = BitVec.ofNat 32 w := BitVec.eq_of_toNat_eq (by simp)
    rw [decodeTableWord, hword] at hd
    have hturn := State.engineTurn_of_decode (s := s.accept (BitVec.ofNat 32 w)) rfl (decode_of_toOption hd)
    rw [State.withFetchWord, hword]
    exact (step_engine (s := s.withCommand (BitVec.ofNat 32 w)) hwf rfl).trans hturn

/-- Settles O7, event by event: the engine's turn always goes on, and so does every transaction. -/
theorem wellFormedStepGoesOn : Obligations.WellFormedStepGoesOn := by
  intro s hwf
  match hin : s.inputs with
  | [] => exact step_no_event hwf hin ▸ s.engineTurn_next
  | .engine :: rest => exact step_engine hwf hin ▸ State.engineTurn_next _
  | .read a :: rest => exact ⟨_, step_read hwf hin⟩
  | .write a d strb :: rest => exact ⟨_, step_write hwf hin⟩
  | .reset k :: rest => exact ⟨_, step_reset hwf hin⟩

/-- Settles O18: a NOP is accepted; the write to PT_LEN that comes next is ignored, the one that comes after the engine's
turn finds the engine idle. -/
theorem ptLenWriteAfterNopIsLostOrLands : Obligations.PtLenWriteAfterNopIsLostOrLands := by
  intro s v hwf hp
  have haccept (rest : List Event) : step { s with inputs := .write 0x0000 0 0xF :: rest } =
      .next (({ s with inputs := rest } : State).accept 0) := by
    have h := step_write_cmd (s := { s with inputs := .write 0x0000 0 0xF :: rest }) hwf hp rfl rfl (by decide)
    rwa [mergeLanes_all] at h
  obtain ⟨hturn, -, -⟩ := engineTurnRunsPendingCommand
  constructor
  · exact ⟨_, _, haccept _, ignoredHostWrites _ 0x0008 v 0xF [] hwf rfl (.inl (Option.some_ne_none 0)), rfl, rfl⟩
  · have hnop := hturn (({ s with inputs := [.engine, .write 0x0008 v 0xF] } : State).accept 0) 0 (.nop 0)
      [.write 0x0008 v 0xF] hwf rfl (by decide) rfl
    have hland := step_write_reg (r := .ptLen)
      (s := (({ s with inputs := [.write 0x0008 v 0xF] } : State).accept 0).complete)
      hwf rfl rfl (by decide) rfl (by decide) rfl
    exact ⟨_, _, _, haccept _, hnop, hland, mergeLanes_all _ v, rfl, rfl⟩

end

section
/-! SUPPORT. Decoding and encoding go by the three fields of a word: what they are as numbers, which fields a decoded
command has, which fields make a word ILLEGAL. -/

namespace Sys2Proof

/-! ### The fields as numbers -/

@[simp] theorem cmdOpcode_toNat (w : Word) : (cmdOpcode w).toNat = w.toNat % 256 := by
  simp [cmdOpcode, BitVec.extractLsb'_toNat]

@[simp] theorem cmdRsvd_toNat (w : Word) : (cmdRsvd w).toNat = w.toNat / 2 ^ 16 := by
  have hw := w.isLt
  rw [cmdRsvd, BitVec.extractLsb'_toNat, Nat.shiftRight_eq_div_pow]
  omega

/-! ### Words by their fields -/

/-- The fields determine the word (R90). -/
theorem word_eq_of_fields {w v : Word} (hr : cmdRsvd w = cmdRsvd v) (hi : cmdImm8 w = cmdImm8 v)
    (ho : cmdOpcode w = cmdOpcode v) : w = v := by
  rw [← word_of_fields w, ← word_of_fields v, hr, hi, ho]

theorem eq_encode_iff_fields (w : Word) (i : Instr) :
    w = encode i ↔ cmdRsvd w = 0 ∧ cmdImm8 w = i.imm8 ∧ cmdOpcode w = i.opcode := by
  constructor
  · rintro rfl
    exact encode_fields i
  · rintro ⟨hr, hi, ho⟩
    obtain ⟨hr', hi', ho'⟩ := encode_fields i
    exact word_eq_of_fields (hr.trans hr'.symm) (hi.trans hi'.symm) (ho.trans ho'.symm)

/-! ### What the decoder answers -/

/-- The reserved bits are looked at first (R95). -/
theorem decode_of_rsvd_ne_zero {w : Word} (hr : cmdRsvd w ≠ 0) : decode w = .error .reservedBitsSet := if_pos hr

theorem decode_of_opcode_none {w : Word} (hr : cmdRsvd w = 0) (ho : decodeOpcode (cmdOpcode w) (cmdImm8 w) = none) :
    decode w = .error .unassignedOpcode := by
  simp [decode, hr, ho]

/-- Every word is of one of three kinds (R97): reserved bits set, no row for its opcode, or the fields of a command. -/
theorem decode_cases (w : Word) :
    (cmdRsvd w ≠ 0 ∧ decode w = .error .reservedBitsSet) ∨
    (cmdRsvd w = 0 ∧ decodeOpcode (cmdOpcode w) (cmdImm8 w) = none ∧ decode w = .error .unassignedOpcode) ∨
    (∃ i : Instr, cmdRsvd w = 0 ∧ cmdImm8 w = i.imm8 ∧ cmdOpcode w = i.opcode ∧ decode w = .ok i) := by
  by_cases hr : cmdRsvd w = 0
  · cases ho : decodeOpcode (cmdOpcode w) (cmdImm8 w) with
    | none => exact .inr (.inl ⟨hr, rfl, decode_of_opcode_none hr ho⟩)
    | some i =>
      obtain ⟨hop, himm⟩ := (decodeOpcode_eq_some _ _ i).mp ho
      exact .inr (.inr ⟨i, hr, himm, hop, decode_of_fields hr hop himm⟩)
  · exact .inl ⟨hr, decode_of_rsvd_ne_zero hr⟩

theorem decode_eq_ok_iff_fields (w : Word) (i : Instr) :
    decode w = .ok i ↔ cmdRsvd w = 0 ∧ cmdImm8 w = i.imm8 ∧ cmdOpcode w = i.opcode := by
  constructor
  · intro h
    obtain ⟨-, hd⟩ | ⟨-, -, hd⟩ | ⟨j, hr, hi, ho, hd⟩ := decode_cases w
    · cases hd.symm.trans h
    · cases hd.symm.trans h
    · cases hd.symm.trans h
      exact ⟨hr, hi, ho⟩
  · rintro ⟨hr, hi, ho⟩
    exact decode_of_fields hr ho hi

theorem decode_eq_error_iff_fields (w : Word) :
    (∃ e, decode w = .error e) ↔ cmdRsvd w ≠ 0 ∨ decodeOpcode (cmdOpcode w) (cmdImm8 w) = none := by
  constructor
  · rintro ⟨e, h⟩
    obtain ⟨hr, -⟩ | ⟨-, ho, -⟩ | ⟨i, -, -, -, hd⟩ := decode_cases w
    · exact .inl hr
    · exact .inr ho
    · cases hd.symm.trans h
  · intro h
    by_cases hr : cmdRsvd w = 0
    · exact ⟨_, decode_of_opcode_none hr (h.resolve_left (not_not_intro hr))⟩
    · exact ⟨_, decode_of_rsvd_ne_zero hr⟩

end Sys2Proof
end

section
/-! Statements of the family 30_encoding: sample words, decode against encode, the ILLEGAL words. -/

open Sys2Proof

/-- Settles O2: both sides say what the three fields of the word are. -/
theorem decodeAndEncodeAgree : Obligations.DecodeAndEncodeAgree := fun w i =>
  (decode_eq_ok_iff_fields w i).trans (eq_encode_iff_fields w i).symm

/-- Settles O3: a word is ILLEGAL by its reserved bits or by its opcode, and both are given as numbers. -/
theorem illegalWordsAreExactly : Obligations.IllegalWordsAreExactly := by
  intro w
  have hr : cmdRsvd w ≠ 0 ↔ w.toNat / 2 ^ 16 ≠ 0 := by
    rw [← cmdRsvd_toNat, Ne, ← BitVec.toNat_inj]
    rfl
  rw [decode_eq_error_iff_fields, decodeOpcode_eq_none, cmdOpcode_toNat, hr]

/-- Settles O1: twelve closed words, each run through the decoder. -/
theorem sampleWordsDecode : Obligations.SampleWordsDecode := by
  unfold Obligations.SampleWordsDecode
  decide

end

section
/-! SUPPORT. The generator's two commands as functions of the state (R112, R113), and a command run `n` times. -/

namespace Sys2Proof.Machine

/-! ### The generator's values, as numbers -/

/-- PRBG_STATE after PRBG_SEED: IMM8 zero-extended (R112). -/
theorem seedWord_toNat (seed : Byte) : (seed.setWidth 64).toNat = seed.toNat := BitVec.toNat_setWidth_of_le (by omega)

theorem lcgOut_toNat (s : DWord) : (lcgOut s).toNat = s.toNat / 2 ^ 16 % 256 := by
  rw [lcgOut_eq, BitVec.toNat_ofNat]

/-- Output byte `k` of the generator `new(seed)`, from the machine's own state after `k + 1` updates (R114). -/
theorem lcgOut_iterate_seed (seed : Byte) (k : Nat) :
    lcgOut (lcgStep^[k + 1] (seed.setWidth 64)) = specPrbgByte seed k := by
  rw [lcgOut_eq, lcgStep_iterate_toNat, seedWord_toNat, specPrbgByte]

/-! ### The commands -/

/-- The state that PRBG_SEED ends in (R112). -/
def State.afterPrbgSeed (imm : Byte) (s : State) : State := ({ s with prbgState := imm.setWidth 64 } : State).complete

/-- The state that PRBG_NEXT ends in (R113). -/
def State.afterPrbgNext (s : State) : State :=
  ({ s with prbgState := lcgStep s.prbgState, prbgOut := lcgOut (lcgStep s.prbgState) } : State).complete

theorem exec_prbgSeed (imm : Byte) (s : State) : exec (.prbgSeed imm) s = .next (s.afterPrbgSeed imm) := rfl

theorem exec_prbgNext (imm : Byte) (s : State) : exec (.prbgNext imm) s = .next s.afterPrbgNext := rfl

@[simp] theorem State.afterPrbgSeed_prbgState (imm : Byte) (s : State) :
    (s.afterPrbgSeed imm).prbgState = imm.setWidth 64 := rfl

@[simp] theorem State.afterPrbgNext_prbgState (s : State) : s.afterPrbgNext.prbgState = lcgStep s.prbgState := rfl

@[simp] theorem State.afterPrbgNext_prbgOut (s : State) : s.afterPrbgNext.prbgOut = lcgOut (lcgStep s.prbgState) := rfl

/-! ### Runs -/

theorem runCommands_cons {i : Instr} {s t : State} (h : exec i s = .next t) (is : List Instr) :
    runCommands (i :: is) s = runCommands is t := by
  rw [runCommands, h]

/-- A command that always ends in `f` of its state, run `n` times, ends in the `n`-th iterate of `f`. -/
theorem runCommands_replicate {i : Instr} {f : State → State} (h : ∀ s, exec i s = .next (f s)) (n : Nat) (s : State) :
    runCommands (List.replicate n i) s = .next (f^[n] s) := by
  induction n generalizing s with
  | zero => rfl
  | succ n ih => rw [List.replicate_succ, runCommands_cons (h s), ih, Function.iterate_succ_apply]

/-- `n` PRBG_NEXT update PRBG_STATE `n` times (R113). -/
theorem State.iterate_afterPrbgNext_prbgState (n : Nat) (s : State) :
    (State.afterPrbgNext^[n] s).prbgState = lcgStep^[n] s.prbgState :=
  Function.Semiconj.iterate_right State.afterPrbgNext_prbgState n s

/-- The last of `k + 1` PRBG_NEXT leaves the output byte of the state it leaves (R113). -/
theorem State.iterate_afterPrbgNext_prbgOut (k : Nat) (s : State) :
    (State.afterPrbgNext^[k + 1] s).prbgOut = lcgOut (lcgStep^[k + 1] s.prbgState) := by
  rw [Function.iterate_succ_apply', State.afterPrbgNext_prbgOut, State.iterate_afterPrbgNext_prbgState,
    Function.iterate_succ_apply']

end Sys2Proof.Machine
end

section
/-! Statements of the family 41_lcg_prbg: PRBG_SEED and PRBG_NEXT, and a seed followed by `n` updates. -/

open Sys2Proof Sys2Proof.Machine

/-- Settles O29: the states both commands end in, with the update and the output byte as numbers. -/
theorem prbgSeedAndNext : Obligations.PrbgSeedAndNext := fun imm s =>
  ⟨⟨_, _, seedWord_toNat imm, exec_prbgSeed imm s⟩,
    ⟨_, _, _, lcgStep_toNat s.prbgState, lcgOut_toNat _, exec_prbgNext imm s⟩⟩

/-- Settles O30: the run ends in an iterate of PRBG_NEXT, whose PRBG_STATE is an iterate of the update. -/
theorem prbgSequenceFollowsTheGenerator : Obligations.PrbgSequenceFollowsTheGenerator := by
  intro seed imm n s
  refine ⟨State.afterPrbgNext^[n] (s.afterPrbgSeed seed), ?_, ?_, ?_⟩
  · rw [runCommands_cons (exec_prbgSeed seed s), runCommands_replicate (exec_prbgNext imm)]
  · rw [State.iterate_afterPrbgNext_prbgState, lcgStep_iterate_toNat, State.afterPrbgSeed_prbgState, seedWord_toNat]
  · rintro k rfl
    rw [State.iterate_afterPrbgNext_prbgOut, State.afterPrbgSeed_prbgState, lcgOut_iterate_seed]

end

section
/-! SUPPORT. DERIVE_KEYS as a function of the state (R123), the keys of a nonce that cancels out (R124), and what the two
encrypting commands leave in `BUF` and `CT_LEN` (R192, R193, R194). -/

namespace Sys2Proof.Machine

variable {s t : State}

/-! ### DERIVE_KEYS -/

/-- The state in which DERIVE_KEYS ends for a nonce of at most 16 bytes, from the spec's own fold (R120, R122). -/
def State.afterDeriveKeys (s : State) : State :=
  ({ s with
    acc := s.specAcc s.nonceLen.toNat
    keyK1 := k1OfAcc (s.specAcc s.nonceLen.toNat)
    keyK2 := k2OfAcc (s.specAcc s.nonceLen.toNat) } : State).complete

@[simp] theorem State.afterDeriveKeys_acc (s : State) : s.afterDeriveKeys.acc = s.specAcc s.nonceLen.toNat := rfl
@[simp] theorem State.afterDeriveKeys_keyK1 (s : State) :
    s.afterDeriveKeys.keyK1 = k1OfAcc (s.specAcc s.nonceLen.toNat) := rfl
@[simp] theorem State.afterDeriveKeys_keyK2 (s : State) :
    s.afterDeriveKeys.keyK2 = k2OfAcc (s.specAcc s.nonceLen.toNat) := rfl

theorem exec_deriveKeys (imm : Byte) (h : s.nonceLen.toNat ≤ 16) :
    exec (.deriveKeys imm) s = .next s.afterDeriveKeys := by
  rw [exec, execDeriveKeys, if_neg (not_lt.mpr h), s.derivedAcc_eq h, State.afterDeriveKeys]

theorem exec_deriveKeys_tooLong (imm : Byte) (h : s.nonceLen.toNat > 16) :
    exec (.deriveKeys imm) s = .next (s.raise .invalidNonceLength) := if_pos h

/-! ### The keys, from the byte lanes of the accumulator -/

/-- The order in which a lane took its four bytes in does not matter (R124). -/
theorem xor_reverse (a b c d : Byte) : a ^^^ b ^^^ c ^^^ d = d ^^^ c ^^^ b ^^^ a := by ac_rfl

theorem State.k1OfAcc_specAcc (s : State) {L : Nat} (hL : 16 % L = 0 ∨ L = 0) :
    k1OfAcc (s.specAcc L) =
      s.params.pss[7] ^^^ s.params.pss[15] ^^^ s.params.pss[23] ^^^ s.params.pss[31] ^^^ 0xAB#8 :=
  congrArg (· ^^^ 0xAB#8) ((s.laneAt_specAcc hL (m := 0) (by omega)).trans (xor_reverse _ _ _ _))

theorem State.k2OfAcc_specAcc (s : State) {L : Nat} (hL : 16 % L = 0 ∨ L = 0) :
    k2OfAcc (s.specAcc L) =
      (s.params.pss[6] ^^^ s.params.pss[14] ^^^ s.params.pss[22] ^^^ s.params.pss[30]) + 0xCD#8 :=
  congrArg (· + 0xCD#8) ((s.laneAt_specAcc hL (m := 1) (by omega)).trans (xor_reverse _ _ _ _))

/-! ### The encrypting commands, for a payload that fits -/

theorem State.payloadTooLong_of_fits (h : 8 + s.ptLen.toNat ≤ s.params.bufBytes) : s.payloadTooLong = false :=
  decide_eq_false (not_lt.mpr h)

theorem exec_encryptN_of_fits (imm : Byte) (hfit : 8 + s.ptLen.toNat ≤ s.params.bufBytes) (hlen : s.nonceLen = 16) :
    exec (.encryptN imm) s = .next (s.encryptPipeline s.ptLen.toNat).complete := by
  rw [exec, execEncryptN, State.payloadTooLong_of_fits hfit, if_neg Bool.false_ne_true, if_neg (not_not_intro hlen)]

theorem exec_encrypt_of_fits (imm : Byte) (hfit : 8 + s.ptLen.toNat ≤ s.params.bufBytes) (hrng : 16 ≤ s.rng.length) :
    exec (.encrypt imm) s = .next (s.drawNonce.encryptPipeline s.ptLen.toNat).complete := by
  rw [exec, execEncrypt, State.payloadTooLong_of_fits hfit, if_neg Bool.false_ne_true]
  exact if_pos (decide_eq_true hrng)

/-- `encrypt_pipeline` reads the parameters, the buffer and the free values only: the nonce bank cancels out of the keys
(R124, R192). -/
theorem State.encryptPipeline_buf_congr (n : Nat) (hp : t.params = s.params) (hb : t.buf = s.buf)
    (he : t.epoch = s.epoch) : (t.encryptPipeline n).buf = (s.encryptPipeline n).buf := by
  obtain ⟨hk1, hk2⟩ := State.specKeys_congr hp
  simp only [State.encryptPipeline, State.encryptLayers, State.permuteLayer_buf, State.substLayer_buf,
    State.xorLayer_buf, State.padBuffer_buf, State.substLayer_epoch, State.xorLayer_epoch, State.xorLayer_params,
    State.padBuffer_epoch, State.padBuffer_params, State.deriveLatches_buf, State.deriveLatches_epoch,
    State.deriveLatches_params, State.deriveLatches_tk1, State.deriveLatches_tk2, State.k1_eq, State.k2_eq, hk1, hk2, hp,
    hb, he]

end Sys2Proof.Machine
end

section
/-! Statements of the family 42_key_derivation: DERIVE_KEYS, its constant keys, and the ciphertext under any nonce. -/

open Sys2Proof Sys2Proof.Machine

/-- Settles O31: the two ends of DERIVE_KEYS, by the check of NONCE_LEN. -/
theorem deriveKeysWritesTheDerivedPair : Obligations.DeriveKeysWritesTheDerivedPair := fun imm _ =>
  ⟨fun h => ⟨_, exec_deriveKeys imm h⟩, fun h => ⟨_, exec_deriveKeys_tooLong imm h⟩⟩

/-- Settles O32: each of the six lengths is 0 or divides 16, so the nonce cancels out of every lane of the accumulator. -/
theorem keysDoNotDependOnTheNonce : Obligations.KeysDoNotDependOnTheNonce := by
  intro imm s hmem
  have hlen : ∀ L ∈ [0, 1, 2, 4, 8, 16], L ≤ 16 ∧ (16 % L = 0 ∨ L = 0) := by decide
  obtain ⟨hle, hL⟩ := hlen _ hmem
  refine ⟨_, exec_deriveKeys imm hle, ?_⟩
  simp only [State.afterDeriveKeys_acc, State.afterDeriveKeys_keyK1, State.afterDeriveKeys_keyK2]
  exact ⟨fun m => s.laneAt_specAcc hL m.isLt, s.k1OfAcc_specAcc hL, s.k2OfAcc_specAcc hL⟩

/-- Settles O51: all three runs end in `encrypt_pipeline`, whose buffer and length are the same under every nonce. -/
theorem ciphertextDoesNotDependOnTheNonce : Obligations.CiphertextDoesNotDependOnTheNonce := by
  intro imm imm' nonce rng s hfit hlen hrng
  refine ⟨_, _, _, exec_encryptN_of_fits imm hfit hlen,
    exec_encryptN_of_fits (s := { s with nonce := nonce }) imm hfit hlen,
    exec_encrypt_of_fits (s := { s with rng := rng }) imm' hfit hrng, ?_⟩
  simp only [State.complete_buf, State.complete_ctLen, State.encryptPipeline_ctLen, and_true, true_and]
  exact ⟨State.encryptPipeline_buf_congr _ rfl rfl rfl, State.encryptPipeline_buf_congr _ rfl rfl rfl⟩

end

section
/-! SUPPORT. ADD_PADDING and REMOVE_PADDING as functions of the state (R133, R134), and the buffer that ADD_PADDING
leaves, part by part (R130, R131). -/

namespace Sys2Proof.Machine

variable {s : State}

/-! ### The state of the filler generator -/

/-- A generator that has given `n` bytes has taken `n` updates (R114). -/
theorem prbgFrom_state (n : Nat) (x : DWord) : (prbgFrom n x).2 = lcgStep^[n] x := by
  induction n generalizing x with
  | zero => rfl
  | succ n ih => rw [prbgFrom_succ, ih, Function.iterate_succ_apply]

/-- WPRBG after a filler of `n` bytes, as a number (R131). -/
theorem prbgBytes_state_toNat (seed : Byte) (n : Nat) : (prbgBytes seed n).2.toNat = specLcg^[n] seed.toNat := by
  rw [prbgBytes, prbgFrom_state, lcgStep_iterate_toNat, seedWord_toNat]

/-! ### The parts of the padded buffer -/

theorem State.peek_padBuffer_lengthField (s : State) (k2 : Byte) (n : Nat) {k : Nat} (hk : k < 8) :
    (s.padBuffer k2 n).peek k = some (BitVec.ofNat 8 (n / 256 ^ (7 - k))) := by
  rw [State.peek_padBuffer, if_pos hk, be64Byte_eq]

theorem State.peek_padBuffer_filler (s : State) (k2 : Byte) (n : Nat) {k : Nat} (hk : k < fillerLen n) :
    (s.padBuffer k2 n).peek (8 + n + k) = some (specPrbgByte k2 k) := by
  have hin : 8 + n ≤ 8 + n + k ∧ 8 + n + k < paddedLen n := ⟨Nat.le_add_right .., Nat.add_lt_add_left hk _⟩
  rw [State.peek_padBuffer, if_neg (by omega), if_pos hin, Nat.add_sub_cancel_left, prbgBytes_getElem? k2 _ hk]

/-- The payload and the bytes after the padded buffer are not written (R133). -/
theorem State.peek_padBuffer_unwritten (s : State) (k2 : Byte) {n a : Nat} (h8 : 8 ≤ a)
    (h : a < 8 + n ∨ paddedLen n ≤ a) : (s.padBuffer k2 n).peek a = s.peek a := by
  rw [State.peek_padBuffer, if_neg (by omega), if_neg (by omega)]

/-- The codec's writes reach BUF and WPRBG only (R131, R133). -/
theorem State.padBuffer_frame (s : State) (k2 : Byte) (n : Nat) :
    s.padBuffer k2 n = { s with buf := (s.padBuffer k2 n).buf, wprbg := (s.padBuffer k2 n).wprbg } := by
  simp only [State.padBuffer, State.memWrite]

/-! ### ADD_PADDING -/

/-- The state in which ADD_PADDING ends for a payload that fits (R133). -/
def State.afterAddPadding (s : State) : State :=
  ({ s.padBuffer s.keyK2 s.ptLen.toNat with ctLen := BitVec.ofNat 32 (paddedLen s.ptLen.toNat) } : State).complete

@[simp] theorem State.afterAddPadding_params (s : State) : s.afterAddPadding.params = s.params := by
  rw [State.afterAddPadding, State.complete_params, State.padBuffer_params]

@[simp] theorem State.afterAddPadding_wprbg (s : State) :
    s.afterAddPadding.wprbg = (prbgBytes s.keyK2 (fillerLen s.ptLen.toNat)).2 := by
  rw [State.afterAddPadding, State.complete_wprbg, State.padBuffer_wprbg]

@[simp] theorem State.peek_afterAddPadding (s : State) (a : Nat) :
    s.afterAddPadding.peek a = (s.padBuffer s.keyK2 s.ptLen.toNat).peek a := by
  rw [State.afterAddPadding, State.peek_complete, State.peek, State.peek]

/-- What ADD_PADDING may change for a payload that fits (R133). -/
theorem State.afterAddPadding_frame (s : State) :
    s.afterAddPadding = { s with
      pending := none, done := true, err := false, errcode := 0, epoch := s.afterAddPadding.epoch
      buf := s.afterAddPadding.buf, ctLen := s.afterAddPadding.ctLen, wprbg := s.afterAddPadding.wprbg } := by
  rw [State.afterAddPadding, State.padBuffer_frame, State.complete, State.finish]

theorem exec_addPadding (imm : Byte) (hfit : 8 + s.ptLen.toNat ≤ s.params.bufBytes) :
    exec (.addPadding imm) s = .next s.afterAddPadding := by
  rw [exec, execAddPadding, State.payloadTooLong_of_fits hfit, if_neg Bool.false_ne_true, State.afterAddPadding]

theorem exec_addPadding_tooLong (imm : Byte) (h : 8 + s.ptLen.toNat > s.params.bufBytes) :
    exec (.addPadding imm) s = .next (s.raise .capacityExceeded) := if_pos (decide_eq_true h)

theorem State.afterAddPadding_ctLen_toNat (hwf : s.params.wf = true) (hfit : 8 + s.ptLen.toNat ≤ s.params.bufBytes) :
    s.afterAddPadding.ctLen.toNat = paddedLen s.ptLen.toNat := by
  obtain ⟨h16, -, hmax⟩ := Params.wf_bufBytes hwf
  exact paddedLen_toNat h16 hmax hfit

/-- The length field that ADD_PADDING leaves declares the payload's length (R135). -/
theorem State.specFromBe64_afterAddPadding (s : State) : specFromBe64 s.afterAddPadding.bufByte = s.ptLen.toNat := by
  have hn : s.ptLen.toNat < 256 ^ 8 := Nat.lt_trans s.ptLen.isLt (by decide)
  refine specFromBe64_be64 hn fun k hk => ?_
  rw [be64Byte_eq]
  exact State.bufByte_of_peek ((s.peek_afterAddPadding k).trans (s.peek_padBuffer_lengthField _ _ hk))

/-! ### REMOVE_PADDING -/

theorem exec_removePadding_tooLong (imm : Byte) (h : s.ctLen.toNat > s.params.bufBytes) :
    exec (.removePadding imm) s = .next (s.raise .capacityExceeded) := if_pos (decide_eq_true h)

/-- A buffer that fits is left to `remove_padding` (R134). -/
theorem exec_removePadding (imm : Byte) (hfit : s.ctLen.toNat ≤ s.params.bufBytes) :
    exec (.removePadding imm) s = .next (s.finishRemovePadding s.ctLen.toNat) :=
  if_neg (mt of_decide_eq_true (not_lt.mpr hfit))

theorem exec_removePadding_error (imm : Byte) {e : Error} (hfit : s.ctLen.toNat ≤ s.params.bufBytes)
    (h : s.removePadding s.ctLen.toNat = .error e) : exec (.removePadding imm) s = .next (s.raise e) := by
  rw [exec_removePadding imm hfit, State.finishRemovePadding, h]

/-- The end without an error: the declared length goes to PT_LEN (R134). -/
theorem exec_removePadding_ok (imm : Byte) (hfit : s.ctLen.toNat ≤ s.params.bufBytes) (h8 : 8 ≤ s.ctLen.toNat)
    (h16 : s.ctLen.toNat % 16 = 0) (hol : 8 + specFromBe64 s.bufByte ≤ s.ctLen.toNat) :
    exec (.removePadding imm) s =
      .next ({ s with ptLen := BitVec.ofNat 32 (specFromBe64 s.bufByte) } : State).complete := by
  rw [exec_removePadding imm hfit, State.finishRemovePadding, State.removePadding_eq, if_neg (not_lt.mpr h8),
    if_neg (not_not_intro h16), if_neg (not_lt.mpr hol)]

end Sys2Proof.Machine
end

section
/-! Statements of the family 43_padding: ADD_PADDING, REMOVE_PADDING and their round trip. -/

open Sys2Proof Sys2Proof.Machine

/-- Settles O33: the two ends of ADD_PADDING by its capacity check, and the padded buffer part by part. -/
theorem addPaddingBuildsThePaddedBuffer : Obligations.AddPaddingBuildsThePaddedBuffer := by
  rintro imm s _ _ hwf rfl rfl
  refine ⟨fun hfit => ?_, fun hlong => ⟨_, exec_addPadding_tooLong imm hlong⟩⟩
  refine ⟨s.afterAddPadding, exec_addPadding imm hfit, s.afterAddPadding_frame,
    State.afterAddPadding_ctLen_toNat hwf hfit, ?_⟩
  simp only [State.afterAddPadding_wprbg, State.peek_afterAddPadding]
  exact ⟨prbgBytes_state_toNat _ _, fun _ => s.peek_padBuffer_lengthField _ _, fun _ => s.peek_padBuffer_filler _ _,
    fun _ => s.peek_padBuffer_unwritten _⟩

/-- Settles O34: each clause is one outcome of the checks of R134, taken in their order. -/
theorem removePaddingChecksAndRecoversTheLength : Obligations.RemovePaddingChecksAndRecoversTheLength := by
  rintro imm s _ _ rfl rfl
  refine ⟨fun hlong => ⟨_, exec_removePadding_tooLong imm hlong⟩, fun hfit h8 => ?_, fun hfit h8 h16 => ?_,
    fun hfit h8 h16 hol => ?_, fun hfit h8 h16 hol => ?_⟩
  · refine ⟨_, exec_removePadding_error (e := .malformedLength) imm hfit ?_⟩
    rw [State.removePadding_eq, if_pos h8]
  · refine ⟨_, exec_removePadding_error (e := .badBlockAlignment) imm hfit ?_⟩
    rw [State.removePadding_eq, if_neg (not_lt.mpr h8), if_pos h16]
  · refine ⟨_, exec_removePadding_error (e := .lengthOverflow) imm hfit ?_⟩
    rw [State.removePadding_eq, if_neg (not_lt.mpr h8), if_neg (not_not_intro h16), if_pos hol]
  · have hword : specFromBe64 s.bufByte < 2 ^ 32 := by have := s.ctLen.isLt; omega
    exact ⟨_, _, (BitVec.toNat_ofNat ..).trans (Nat.mod_eq_of_lt hword), exec_removePadding_ok imm hfit h8 h16 hol⟩

/-- Settles O35: the buffer that ADD_PADDING leaves passes every check of REMOVE_PADDING and declares PT_LEN, and
neither command writes to the payload. -/
theorem paddingRoundTrip : Obligations.PaddingRoundTrip := by
  intro imm imm' s hwf hfit
  have hlen := State.afterAddPadding_ctLen_toNat hwf hfit
  have hol := s.specFromBe64_afterAddPadding
  have hge := paddedLen_ge s.ptLen.toNat
  have hmod := paddedLen_mod s.ptLen.toNat
  have hpadded : s.afterAddPadding.ctLen.toNat ≤ s.afterAddPadding.params.bufBytes := by
    rw [hlen, State.afterAddPadding_params]
    exact paddedLen_le (Params.wf_bufBytes hwf).1 hfit
  have hremove := exec_removePadding_ok imm' hpadded (by omega) (by omega) (by omega)
  refine ⟨_, _, exec_addPadding imm hfit, hremove, ?_⟩
  rw [hlen, hol]
  refine ⟨hmod, hge, paddedLen_lt _, State.complete_err _, ?_, fun i hi => ?_⟩
  · rw [State.complete_ptLen, BitVec.ofNat_toNat, BitVec.setWidth_eq]
  · have hpayload := s.peek_padBuffer_unwritten s.keyK2 (Nat.le_add_right 8 i) (.inl (Nat.add_lt_add_left hi 8))
    exact (State.peek_complete _ _).trans ((s.peek_afterAddPadding _).trans hpayload)

end

section
/-! SUPPORT. A refused step, and the substitution commands as functions of the state: a byte-wise layer over
`BUF[0 .. CT_LEN]` and its end (R152, R153), what it leaves at every byte, and two such layers that cancel (R151). -/

namespace Sys2Proof.Machine

variable {s : State} {f g : Byte → Byte} {a : Nat}

/-- Nothing but the check of the configuration refuses a step (R150). -/
theorem step_refused_iff : step s = .refused .illFormedParams ↔ s.params.wf = false := by
  refine ⟨fun href => Bool.eq_false_iff.mpr fun hwf => ?_, step_of_not_wf⟩
  obtain ⟨t, hnext⟩ := wellFormedStepGoesOn s hwf
  exact nomatch href.symm.trans hnext

/-! ### A byte-wise layer over the whole buffer -/

/-- The state in which a command ends that maps every byte below CT_LEN by `f`. -/
def State.afterMapBuffer (s : State) (f : Byte → Byte) : State := (s.mapLayer f s.ctLen.toNat).complete

/-- The layer changes BUF and STATUS only. -/
theorem State.afterMapBuffer_frame (s : State) (f : Byte → Byte) :
    s.afterMapBuffer f = { s with
      pending := none, done := true, err := false, errcode := 0, epoch := (s.afterMapBuffer f).epoch
      buf := (s.afterMapBuffer f).buf } := rfl

theorem State.peek_afterMapBuffer (f : Byte → Byte) (ha : a < s.ctLen.toNat) :
    (s.afterMapBuffer f).peek a = some (f (s.bufByte a)) := by
  rw [State.afterMapBuffer, State.peek_complete, State.peek_mapLayer, if_pos ha]

theorem State.peek_afterMapBuffer_above (f : Byte → Byte) (ha : a ≥ s.ctLen.toNat) :
    (s.afterMapBuffer f).peek a = s.peek a := by
  rw [State.afterMapBuffer, State.peek_complete, State.peek_mapLayer, if_neg (not_lt.mpr ha)]

/-- A layer whose map undoes `f`, run after the layer of `f`, restores every byte. -/
theorem State.peek_afterMapBuffer_cancel (hgf : ∀ b, g (f b) = b) (ha : a < s.ctLen.toNat) :
    ((s.afterMapBuffer f).afterMapBuffer g).peek a = some (s.bufByte a) := by
  rw [State.peek_afterMapBuffer (s := s.afterMapBuffer f) g ha,
    State.bufByte_of_peek (State.peek_afterMapBuffer f ha), hgf]

/-- Two commands that are layers over the buffer, the second undoing the first, restore it. -/
theorem runCommands_restores_of_cancel {i j : Instr} (hi : exec i s = .next (s.afterMapBuffer f))
    (hj : exec j (s.afterMapBuffer f) = .next ((s.afterMapBuffer f).afterMapBuffer g)) (hgf : ∀ b, g (f b) = b) :
    ∃ u, runCommands [i, j] s = .next u ∧
      (∀ a < s.ctLen.toNat, u.peek a = some (s.bufByte a)) ∧ (∀ a ≥ s.ctLen.toNat, u.peek a = s.peek a) := by
  refine ⟨_, ?_, fun _ => State.peek_afterMapBuffer_cancel hgf, fun a ha => ?_⟩
  · rw [runCommands_cons hi, runCommands_cons hj, runCommands]
  · exact (State.peek_afterMapBuffer_above (s := s.afterMapBuffer f) g ha).trans (State.peek_afterMapBuffer_above f ha)

/-! ### SUBSTITUTE and INV_SUBSTITUTE -/

theorem exec_substitute (imm : Byte) (hfit : s.ctLen.toNat ≤ s.params.bufBytes) :
    exec (.substitute imm) s = .next (s.afterMapBuffer (sboxAt s.params)) :=
  if_neg (mt of_decide_eq_true (not_lt.mpr hfit))

theorem exec_invSubstitute (imm : Byte) (hfit : s.ctLen.toNat ≤ s.params.bufBytes) :
    exec (.invSubstitute imm) s = .next (s.afterMapBuffer (invSboxAt s.params)) :=
  if_neg (mt of_decide_eq_true (not_lt.mpr hfit))

theorem exec_substitute_tooLong (imm : Byte) (h : s.ctLen.toNat > s.params.bufBytes) :
    exec (.substitute imm) s = .next (s.raise .capacityExceeded) := if_pos (decide_eq_true h)

theorem exec_invSubstitute_tooLong (imm : Byte) (h : s.ctLen.toNat > s.params.bufBytes) :
    exec (.invSubstitute imm) s = .next (s.raise .capacityExceeded) := if_pos (decide_eq_true h)

/-! ### The lookups -/

theorem exec_sboxLookup (imm : Byte) (s : State) :
    exec (.sboxLookup imm) s = .next ({ s with result := sboxAt s.params imm } : State).complete := rfl

theorem exec_invSboxLookup (imm : Byte) (s : State) :
    exec (.invSboxLookup imm) s = .next ({ s with result := invSboxAt s.params imm } : State).complete := rfl

end Sys2Proof.Machine
end

section
/-! Statements of the family 44_substitution: the refusal of an ill-formed configuration, the substitution layers and
their round trip, the two lookups. -/

open Sys2Proof Sys2Proof.Machine

/-- Settles O6: a step is refused exactly when the check of the configuration fails, and the check says what the spec
asks of a configuration (`Params.wf_iff`). -/
theorem onlyIllFormedConfigurationsAreRefused : Obligations.OnlyIllFormedConfigurationsAreRefused := by
  intro s
  rw [step_refused_iff, ← Params.wf_iff, Bool.not_eq_true]

/-- Settles O38: both commands are a layer over the buffer; the byte that INV_SUBSTITUTE leaves has the old byte as its
table entry because every value occurs in the table. -/
theorem substitutionMapsEveryByte : Obligations.SubstitutionMapsEveryByte := by
  intro imm s hwf
  have hsbox := Params.sboxOk_of_wf hwf
  refine ⟨fun hfit => ⟨?_, ?_⟩, fun hlong => ⟨⟨_, exec_substitute_tooLong imm hlong⟩,
    ⟨_, exec_invSubstitute_tooLong imm hlong⟩⟩⟩
  · exact ⟨_, exec_substitute imm hfit, s.afterMapBuffer_frame _, fun _ => State.peek_afterMapBuffer _,
      fun _ => State.peek_afterMapBuffer_above _⟩
  · exact ⟨_, exec_invSubstitute imm hfit, s.afterMapBuffer_frame _,
      fun a ha => ⟨_, State.peek_afterMapBuffer _ ha, sboxAt_invSboxAt hsbox (s.bufByte a)⟩,
      fun _ => State.peek_afterMapBuffer_above _⟩

/-- Settles O39: the two maps undo each other in both orders, and a layer keeps CT_LEN and the table. -/
theorem substitutionRoundTrip : Obligations.SubstitutionRoundTrip := by
  intro imm imm' s hwf hfit is his
  have hsbox := Params.sboxOk_of_wf hwf
  obtain rfl | rfl : is = [.substitute imm, .invSubstitute imm'] ∨ is = [.invSubstitute imm, .substitute imm'] := by
    simpa using his
  · exact runCommands_restores_of_cancel (exec_substitute imm hfit) (exec_invSubstitute imm' hfit)
      (invSboxAt_sboxAt hsbox)
  · exact runCommands_restores_of_cancel (exec_invSubstitute imm hfit) (exec_substitute imm' hfit)
      (sboxAt_invSboxAt hsbox)

/-- Settles O40: RESULT takes the entry of IMM8, or the byte whose entry IMM8 is. -/
theorem sboxLookups : Obligations.SboxLookups := fun imm s hwf =>
  ⟨⟨_, exec_sboxLookup imm s⟩, _, _, sboxAt_invSboxAt (Params.sboxOk_of_wf hwf) imm, exec_invSboxLookup imm s⟩

end

section
/-! SUPPORT. The permutation commands: what PERMUTE and INV_PERMUTE leave for a buffer that fits is one and the same
exchange of bytes in every full block (R170 to R173), and two such exchanges restore the buffer (R174). -/

namespace Sys2Proof.Machine

variable {s t u : State} {i j : Instr} {m a : Nat}

/-! ### The exchanged positions -/

/-- The addresses that the permutation of `BUF[0 .. m]` moves: positions 0, 1, 14 and 15 of every full block (R170). -/
abbrev PermutationMoves (m a : Nat) : Prop := a < m / 16 * 16 ∧ a % 16 ∈ [0, 1, 14, 15]

theorem permutationMoves_iff (m a : Nat) : PermutationMoves m a ↔ a / 16 < m / 16 ∧ permuteMoves a = true := by
  rw [Nat.div_lt_iff_lt_mul (by decide), permuteMoves_iff]
  simp [PermutationMoves, or_assoc]

/-- The partner of a moved byte is moved too. -/
theorem PermutationMoves.permutePos (h : PermutationMoves m a) : PermutationMoves m (permutePos a) := by
  rw [permutationMoves_iff, permuteMoves_iff] at h ⊢
  unfold Machine.permutePos
  omega

theorem permutePos_permutePos (a : Nat) : permutePos (permutePos a) = a := by
  unfold permutePos
  omega

/-! ### The exchange as a relation between states -/

/-- `t` is the end, without an error, of a command at `s` that exchanges the moved bytes of `BUF[0 .. CT_LEN]`, each with
its partner, and writes nothing else but STATUS. -/
structure State.SwappedInto (s t : State) : Prop where
  frame : t = { s with pending := none, done := true, err := false, errcode := 0, epoch := t.epoch, buf := t.buf }
  peek_eq : ∀ a, t.peek a =
    if PermutationMoves s.ctLen.toNat a then some (s.bufByte (permutePos a)) else s.peek a

theorem State.SwappedInto.params (h : s.SwappedInto t) : t.params = s.params := by
  rw [h.frame]

theorem State.SwappedInto.ctLen (h : s.SwappedInto t) : t.ctLen = s.ctLen := by
  rw [h.frame]

theorem State.SwappedInto.peek_moved (h : s.SwappedInto t) (ha : PermutationMoves s.ctLen.toNat a) :
    t.peek a = some (s.bufByte (permutePos a)) := (h.peek_eq a).trans (if_pos ha)

theorem State.SwappedInto.peek_unmoved (h : s.SwappedInto t) (ha : ¬ PermutationMoves s.ctLen.toNat a) :
    t.peek a = s.peek a := (h.peek_eq a).trans (if_neg ha)

/-- The second exchange brings a moved byte back from its partner's place, where the first has put it. -/
theorem State.SwappedInto.peek_moved_twice (h₁ : s.SwappedInto t) (h₂ : t.SwappedInto u)
    (ha : PermutationMoves s.ctLen.toNat a) : u.peek a = some (s.bufByte a) := by
  have hpartner : t.bufByte (permutePos a) = s.bufByte a := by
    rw [State.bufByte_of_peek (h₁.peek_moved ha.permutePos), permutePos_permutePos]
  rw [h₂.peek_moved (h₁.ctLen.symm ▸ ha), hpartner]

theorem State.SwappedInto.peek_unmoved_twice (h₁ : s.SwappedInto t) (h₂ : t.SwappedInto u)
    (ha : ¬ PermutationMoves s.ctLen.toNat a) : u.peek a = s.peek a :=
  (h₂.peek_unmoved (h₁.ctLen.symm ▸ ha)).trans (h₁.peek_unmoved ha)

/-! ### PERMUTE and INV_PERMUTE -/

/-- Whenever the buffer fits, the command exchanges the moved bytes of every full block. -/
def SwapsBlocks (i : Instr) : Prop :=
  ∀ s : State, s.ctLen.toNat ≤ s.params.bufBytes → ∃ t, exec i s = .next t ∧ s.SwappedInto t

/-- PERMUTE does so (R170, R172). -/
theorem swapsBlocks_permute (imm : Byte) : SwapsBlocks (.permute imm) := fun s hfit =>
  ⟨(s.permuteLayer s.ctLen.toNat).complete, if_neg (mt of_decide_eq_true (not_lt.mpr hfit)), rfl, fun a =>
    (s.peek_permuteLayer _ a).trans (if_congr (permutationMoves_iff _ a).symm rfl rfl)⟩

/-- INV_PERMUTE, whose two swaps come in the other order, does the same (R171, R173). -/
theorem swapsBlocks_invPermute (imm : Byte) : SwapsBlocks (.invPermute imm) := fun s hfit =>
  ⟨(s.invPermuteLayer s.ctLen.toNat).complete, if_neg (mt of_decide_eq_true (not_lt.mpr hfit)), rfl, fun a =>
    (s.peek_invPermuteLayer _ a).trans (if_congr (permutationMoves_iff _ a).symm rfl rfl)⟩

theorem exec_permute_tooLong (imm : Byte) (h : s.ctLen.toNat > s.params.bufBytes) :
    exec (.permute imm) s = .next (s.raise .capacityExceeded) := if_pos (decide_eq_true h)

theorem exec_invPermute_tooLong (imm : Byte) (h : s.ctLen.toNat > s.params.bufBytes) :
    exec (.invPermute imm) s = .next (s.raise .capacityExceeded) := if_pos (decide_eq_true h)

/-- Two commands that exchange the same bytes restore the buffer, one after the other (R174). -/
theorem SwapsBlocks.runCommands_restores (hi : SwapsBlocks i) (hj : SwapsBlocks j)
    (hfit : s.ctLen.toNat ≤ s.params.bufBytes) :
    ∃ u, runCommands [i, j] s = .next u ∧
      (∀ a, PermutationMoves s.ctLen.toNat a → u.peek a = some (s.bufByte a)) ∧
      (∀ a, ¬ PermutationMoves s.ctLen.toNat a → u.peek a = s.peek a) := by
  obtain ⟨t, hit, hst⟩ := hi s hfit
  obtain ⟨u, hju, htu⟩ := hj t (by rwa [hst.ctLen, hst.params])
  refine ⟨u, ?_, fun _ => hst.peek_moved_twice htu, fun _ => hst.peek_unmoved_twice htu⟩
  rw [runCommands_cons hit, runCommands_cons hju, runCommands]

end Sys2Proof.Machine
end

section
/-! Statements of the family 45_permutation: the exchange in every full block, and its round trips. -/

open Sys2Proof Sys2Proof.Machine

/-- Settles O41: a buffer that fits is left to the exchange that both commands make, a longer one to the capacity
check. -/
theorem permutationSwapsInFullBlocks : Obligations.PermutationSwapsInFullBlocks := by
  intro imm s i hi
  have hcmd : SwapsBlocks i ∧
      (s.ctLen.toNat > s.params.bufBytes → exec i s = .next (s.raise .capacityExceeded)) := by
    obtain rfl | rfl := List.mem_pair.mp hi
    · exact ⟨swapsBlocks_permute imm, exec_permute_tooLong imm⟩
    · exact ⟨swapsBlocks_invPermute imm, exec_invPermute_tooLong imm⟩
  obtain ⟨hswaps, hraises⟩ := hcmd
  refine ⟨fun hfit => ?_, fun hlong => ⟨_, hraises hlong⟩⟩
  obtain ⟨t, hexec, hst⟩ := hswaps s hfit
  exact ⟨t, hexec, hst.frame, hst.peek_eq⟩

/-- Settles O42: each of the three pairs is the same exchange made twice. -/
theorem permutationRoundTrip : Obligations.PermutationRoundTrip := by
  intro imm imm' s hfit is his
  have hpair : ∃ i j, is = [i, j] ∧ SwapsBlocks i ∧ SwapsBlocks j := by
    obtain rfl | rfl | rfl : is = [.permute imm, .invPermute imm'] ∨ is = [.invPermute imm, .permute imm'] ∨
        is = [.permute imm, .permute imm'] := by simpa using his
    · exact ⟨_, _, rfl, swapsBlocks_permute imm, swapsBlocks_invPermute imm'⟩
    · exact ⟨_, _, rfl, swapsBlocks_invPermute imm, swapsBlocks_permute imm'⟩
    · exact ⟨_, _, rfl, swapsBlocks_permute imm, swapsBlocks_permute imm'⟩
  obtain ⟨i, j, rfl, hi, hj⟩ := hpair
  obtain ⟨u, hrun, hmoved, hunmoved⟩ := hi.runCommands_restores hj hfit
  refine ⟨u, hrun, fun a hblock hpos => hmoved a ⟨hblock, hpos⟩, fun a hfixed => hunmoved a ?_⟩
  rintro ⟨hblock, hpos⟩
  exact hfixed.elim (not_le.mpr hblock) fun h => h hpos

end

section
/-! SUPPORT. XOR_BUF as a byte-wise layer over `BUF[0 .. CT_LEN]` (R181), in the terms of the substitution commands. -/

namespace Sys2Proof.Machine

variable {s : State}

theorem exec_xorBuf (imm : Byte) (hfit : s.ctLen.toNat ≤ s.params.bufBytes) :
    exec (.xorBuf imm) s = .next (s.afterMapBuffer (· ^^^ s.keyK1)) :=
  if_neg (mt of_decide_eq_true (not_lt.mpr hfit))

theorem exec_xorBuf_tooLong (imm : Byte) (h : s.ctLen.toNat > s.params.bufBytes) :
    exec (.xorBuf imm) s = .next (s.raise .capacityExceeded) := if_pos (decide_eq_true h)

/-- The map of `xor_with_key` undoes itself (R182). -/
theorem xorKey_xorKey (k b : Byte) : b ^^^ k ^^^ k = b := by
  rw [BitVec.xor_assoc, BitVec.xor_self, BitVec.xor_zero]

end Sys2Proof.Machine
end

section
/-! Statements of the family 46_xor: what XOR_BUF leaves at every byte, and its round trip. -/

open Sys2Proof Sys2Proof.Machine

/-- Settles O36: a buffer that fits gets the layer of the key K1, a longer one the capacity check. -/
theorem xorBufXorsEveryByte : Obligations.XorBufXorsEveryByte := by
  intro imm s
  refine ⟨fun hfit => ?_, fun hlong => ⟨_, exec_xorBuf_tooLong imm hlong⟩⟩
  exact ⟨_, exec_xorBuf imm hfit, s.afterMapBuffer_frame _, fun _ => State.peek_afterMapBuffer _,
    fun _ => State.peek_afterMapBuffer_above _⟩

/-- Settles O37: the first command keeps K1, CT_LEN and the buffer's size, so the second is the same layer again, and
this layer's map undoes itself. -/
theorem xorBufIsSelfInverse : Obligations.XorBufIsSelfInverse := fun imm imm' s hfit =>
  runCommands_restores_of_cancel (exec_xorBuf imm hfit) (exec_xorBuf (s := s.afterMapBuffer _) imm' hfit)
    (xorKey_xorKey s.keyK1)

end

section
/-! SUPPORT. The orchestrator's commands as functions of the state (R190 to R196): each check's outcome, the frame of each
pipeline, how `remove_padding` ends on full blocks, and what DECRYPT makes of a ciphertext (R198). -/

namespace Sys2Proof.Machine

variable {s t : State} {m : Nat}

/-! ### NOP and GEN_NONCE -/

/-- A word of NOP has opcode 0, which acceptance puts in LAST_OP, so the STATUS that NOP leaves holds DONE and nothing else
(R71, R190). -/
theorem State.statusWord_nop {imm : Byte} {w : Word} (h : decode w = .ok (.nop imm)) :
    (s.accept w).complete.statusWord = 0x00000002 := by
  obtain ⟨-, -, hop⟩ := (decode_eq_ok_iff_fields w _).mp h
  have hlast : (s.accept w).complete.lastOp = 0x00 := hop
  simp only [State.statusWord, State.busy, hlast, State.complete_pending, State.complete_done, State.complete_err,
    State.complete_errcode]
  rfl

theorem exec_genNonce (imm : Byte) (hrng : 16 ≤ s.rng.length) : exec (.genNonce imm) s = .next s.drawNonce.complete :=
  if_pos (decide_eq_true hrng)

theorem exec_genNonce_waits (imm : Byte) (hrng : s.rng.length < 16) : exec (.genNonce imm) s = .next s :=
  if_neg (mt of_decide_eq_true (not_le.mpr hrng))

/-- The drawn bytes stand in the nonce bank in their order (R191, R193). -/
theorem State.rng_getElem?_drawNonce (hrng : 16 ≤ s.rng.length) (i : Fin 16) :
    s.rng[i.val]? = some s.drawNonce.nonce[i] := by
  have hi : i.val < s.rng.length := Nat.lt_of_lt_of_le i.isLt hrng
  simp [hi]

/-! ### ENCRYPT and ENCRYPT_N -/

theorem exec_encrypt_tooLong (imm : Byte) (h : 8 + s.ptLen.toNat > s.params.bufBytes) :
    exec (.encrypt imm) s = .next (s.raise .capacityExceeded) := if_pos (decide_eq_true h)

theorem exec_encryptN_tooLong (imm : Byte) (h : 8 + s.ptLen.toNat > s.params.bufBytes) :
    exec (.encryptN imm) s = .next (s.raise .capacityExceeded) := if_pos (decide_eq_true h)

theorem exec_encryptN_nonceLength (imm : Byte) (hfit : 8 + s.ptLen.toNat ≤ s.params.bufBytes) (hlen : s.nonceLen ≠ 16) :
    exec (.encryptN imm) s = .next (s.raise .invalidNonceLength) := by
  rw [exec, execEncryptN, State.payloadTooLong_of_fits hfit, if_neg Bool.false_ne_true, if_pos hlen]

/-- What `derive_keys` writes, from the spec's own fold (R192, R195). -/
theorem State.deriveLatches_eq (s : State) :
    s.deriveLatches = { s with acc := s.specAcc 16, tk1 := s.specK1, tk2 := s.specK2 } := by
  rw [State.deriveLatches, s.k1_eq, s.k2_eq, s.derivedAcc_eq (Nat.le_refl 16)]

/-- The state in which the encrypting commands end, from the state that holds the nonce (R192). -/
def State.afterEncrypt (s : State) : State := (s.encryptPipeline s.ptLen.toNat).complete

@[simp] theorem State.afterEncrypt_params (s : State) : s.afterEncrypt.params = s.params := by
  rw [State.afterEncrypt, State.complete_params, State.encryptPipeline_params]

@[simp] theorem State.afterEncrypt_nonce (s : State) : s.afterEncrypt.nonce = s.nonce := by
  rw [State.afterEncrypt, State.complete_nonce, State.encryptPipeline_nonce]

@[simp] theorem State.afterEncrypt_nonceLen (s : State) : s.afterEncrypt.nonceLen = s.nonceLen := by
  rw [State.afterEncrypt, State.complete_nonceLen, State.encryptPipeline_nonceLen]

/-- `encrypt_pipeline` writes BUF, CT_LEN and the latches only (R192). -/
theorem State.afterEncrypt_frame (s : State) :
    s.afterEncrypt = { s with
      pending := none, done := true, err := false, errcode := 0, epoch := s.afterEncrypt.epoch
      buf := s.afterEncrypt.buf, ctLen := s.afterEncrypt.ctLen, wprbg := s.afterEncrypt.wprbg
      acc := s.specAcc 16, tk1 := s.specK1, tk2 := s.specK2 } := by
  apply State.ext_fields <;>
    simp [State.afterEncrypt, s.derivedAcc_eq, State.specK1, State.specK2, k1OfAcc, k2OfAcc]

/-- WPRBG as a number: the generator after the filler (R131, R192). -/
theorem State.afterEncrypt_wprbg_toNat (s : State) :
    s.afterEncrypt.wprbg.toNat = specLcg^[fillerLen s.ptLen.toNat] s.specK2.toNat := by
  rw [State.afterEncrypt, State.complete_wprbg, State.encryptPipeline, State.encryptLayers_wprbg, State.padBuffer_wprbg,
    prbgBytes_state_toNat, State.deriveLatches_tk2, State.k2_eq]

theorem State.afterEncrypt_ctLen_toNat (hwf : s.params.wf = true) (hfit : 8 + s.ptLen.toNat ≤ s.params.bufBytes) :
    s.afterEncrypt.ctLen.toNat = paddedLen s.ptLen.toNat := by
  obtain ⟨h16, -, hmax⟩ := Params.wf_bufBytes hwf
  exact paddedLen_toNat h16 hmax hfit

theorem State.peek_afterEncrypt {a : Nat} (ha : a < paddedLen s.ptLen.toNat) :
    s.afterEncrypt.peek a =
      some (sboxAt s.params (s.specPadded s.specK2 s.ptLen.toNat (specPermute a) ^^^ s.specK1)) := by
  rw [State.afterEncrypt, State.peek_complete, State.peek_encryptPipeline _ ha]

theorem State.peek_afterEncrypt_above {a : Nat} (ha : a ≥ paddedLen s.ptLen.toNat) :
    s.afterEncrypt.peek a = s.peek a := by
  rw [State.afterEncrypt, State.peek_complete, State.peek_encryptPipeline_ge _ ha]

/-! ### DECRYPT -/

theorem exec_decrypt_tooLong (imm : Byte) (h : s.ctLen.toNat > s.params.bufBytes) :
    exec (.decrypt imm) s = .next (s.raise .capacityExceeded) := if_pos (decide_eq_true h)

/-- A buffer that fits is left to the checks of CT_LEN's alignment and of NONCE_LEN (R196). -/
theorem exec_decrypt_of_fits (imm : Byte) (hfit : s.ctLen.toNat ≤ s.params.bufBytes) :
    exec (.decrypt imm) s =
      if s.ctLen.toNat % 16 ≠ 0 then .next (s.raise .invalidLength)
      else if s.nonceLen ≠ 16 then .next (s.raise .invalidNonceLength)
      else .next (s.decryptPipeline s.ctLen.toNat) := if_neg (mt of_decide_eq_true (not_lt.mpr hfit))

theorem exec_decrypt_unaligned (imm : Byte) (hfit : s.ctLen.toNat ≤ s.params.bufBytes) (h : s.ctLen.toNat % 16 ≠ 0) :
    exec (.decrypt imm) s = .next (s.raise .invalidLength) := by
  rw [exec_decrypt_of_fits imm hfit, if_pos h]

theorem exec_decrypt_nonceLength (imm : Byte) (hfit : s.ctLen.toNat ≤ s.params.bufBytes) (h16 : s.ctLen.toNat % 16 = 0)
    (h : s.nonceLen ≠ 16) : exec (.decrypt imm) s = .next (s.raise .invalidNonceLength) := by
  rw [exec_decrypt_of_fits imm hfit, if_neg (not_not_intro h16), if_pos h]

/-- The ciphertext passes every check and is left to `decrypt_pipeline` (R196). -/
theorem exec_decrypt (imm : Byte) (hfit : s.ctLen.toNat ≤ s.params.bufBytes) (h16 : s.ctLen.toNat % 16 = 0)
    (hlen : s.nonceLen = 16) : exec (.decrypt imm) s = .next (s.decryptPipeline s.ctLen.toNat) := by
  rw [exec_decrypt_of_fits imm hfit, if_neg (not_not_intro h16), if_neg (not_not_intro hlen)]

/-- The state that `decrypt_pipeline` hands to `remove_padding`: the inverse layers have run over `BUF[0 .. m]` (R195). -/
def State.afterInverseLayers (s : State) (m : Nat) : State := s.deriveLatches.decryptLayers s.deriveLatches.tk1 m

theorem State.decryptPipeline_eq (s : State) (m : Nat) :
    s.decryptPipeline m = (s.afterInverseLayers m).finishRemovePadding m := rfl

/-- The inverse layers write BUF and the key latches only (R195). -/
theorem State.afterInverseLayers_frame (s : State) (m : Nat) :
    s.afterInverseLayers m = { s with
      buf := (s.afterInverseLayers m).buf, acc := s.specAcc 16, tk1 := s.specK1, tk2 := s.specK2 } := by
  apply State.ext_fields <;>
    simp [State.afterInverseLayers, s.derivedAcc_eq, State.specK1, State.specK2, k1OfAcc, k2OfAcc]

/-- With no ciphertext no layer writes a byte. -/
theorem State.afterInverseLayers_zero (s : State) :
    s.afterInverseLayers 0 = { s with acc := s.specAcc 16, tk1 := s.specK1, tk2 := s.specK2 } :=
  s.deriveLatches_eq

/-- The plaintext byte at `a` under the inverse layers (R195). -/
def State.plainByte (s : State) (a : Nat) : Byte := invSboxAt s.params (s.bufByte (specPermute a)) ^^^ s.specK1

/-- The layers of encryption take the plaintext byte back to the ciphertext byte (R151, R182). -/
theorem State.sboxAt_plainByte (hwf : s.params.wf = true) (a : Nat) :
    sboxAt s.params (s.plainByte a ^^^ s.specK1) = s.bufByte (specPermute a) := by
  rw [State.plainByte, xorKey_xorKey, sboxAt_invSboxAt (Params.sboxOk_of_wf hwf)]

/-- The length that `remove_padding` finds is the one that the plaintext declares (R132, R195). -/
theorem State.specFromBe64_afterInverseLayers (s : State) (h16 : m % 16 = 0) (h0 : m ≠ 0) :
    specFromBe64 (s.afterInverseLayers m).bufByte = specFromBe64 s.plainByte := by
  refine specFromBe64_congr fun k hk => State.bufByte_of_peek ?_
  rw [← State.peek_finishRemovePadding _ m, ← State.decryptPipeline_eq, s.peek_decryptPipeline h16 (by omega),
    State.plainByte]

/-- How `remove_padding` ends on full blocks: the alignment check cannot fail, and the length check fails only for no
block at all (R132, R197). -/
theorem State.finishRemovePadding_cases (s : State) (h16 : m % 16 = 0) :
    (m = 0 ∧ s.finishRemovePadding m = s.raise .malformedLength) ∨
    (m ≠ 0 ∧ 8 + specFromBe64 s.bufByte > m ∧ s.finishRemovePadding m = s.raise .lengthOverflow) ∨
    (m ≠ 0 ∧ 8 + specFromBe64 s.bufByte ≤ m ∧
      s.finishRemovePadding m =
        ({ s with ptLen := BitVec.ofNat 32 (specFromBe64 s.bufByte) } : State).complete) := by
  unfold State.finishRemovePadding
  rw [State.removePadding_eq]
  by_cases h0 : m = 0
  · exact .inl ⟨h0, by rw [if_pos (by omega)]⟩
  · rw [if_neg (by omega : ¬ m < 8), if_neg (not_not_intro h16)]
    by_cases hol : 8 + specFromBe64 s.bufByte > m
    · exact .inr (.inl ⟨h0, hol, by rw [if_pos hol]⟩)
    · exact .inr (.inr ⟨h0, not_lt.mp hol, by rw [if_neg hol]⟩)

theorem State.decryptPipeline_zero (s : State) :
    s.decryptPipeline 0 =
      ({ s with acc := s.specAcc 16, tk1 := s.specK1, tk2 := s.specK2 } : State).raise .malformedLength := by
  rw [State.decryptPipeline_eq, s.afterInverseLayers_zero]
  rfl

/-- The declared length does not fit (R195). -/
theorem State.decryptPipeline_overflow (s : State) (h16 : m % 16 = 0) (h0 : m ≠ 0)
    (hol : 8 + specFromBe64 s.plainByte > m) :
    s.decryptPipeline m = (s.afterInverseLayers m).raise .lengthOverflow := by
  rw [← s.specFromBe64_afterInverseLayers h16 h0] at hol
  obtain ⟨h, -⟩ | ⟨-, -, h⟩ | ⟨-, h, -⟩ := (s.afterInverseLayers m).finishRemovePadding_cases h16
  · exact absurd h h0
  · exact h
  · exact absurd hol (not_lt.mpr h)

/-- The declared length fits and goes to PT_LEN (R195). -/
theorem State.decryptPipeline_ok (s : State) (h16 : m % 16 = 0) (h0 : m ≠ 0)
    (hol : 8 + specFromBe64 s.plainByte ≤ m) :
    s.decryptPipeline m =
      ({ s.afterInverseLayers m with ptLen := BitVec.ofNat 32 (specFromBe64 s.plainByte) } : State).complete := by
  rw [← s.specFromBe64_afterInverseLayers h16 h0] at hol ⊢
  obtain ⟨h, -⟩ | ⟨-, h, -⟩ | ⟨-, -, h⟩ := (s.afterInverseLayers m).finishRemovePadding_cases h16
  · exact absurd h h0
  · exact absurd hol (not_le.mpr h)
  · exact h

/-- A code other than 0x03 and 0x04 is neither of the two that R197 speaks of. -/
theorem errcode_avoids {c : Byte} (p : Prop) (hc : c ∉ [(0x03 : Byte), 0x04]) : c ≠ 0x04 ∧ (c = 0x03 → p) := by
  obtain ⟨h3, h4⟩ : c ≠ 0x03 ∧ c ≠ 0x04 := by simpa using hc
  exact ⟨h4, fun h => absurd h h3⟩

/-- On full blocks `decrypt_pipeline` never ends with BadBlockAlignment, and with MalformedLength only for no block
(R197). -/
theorem State.decryptPipeline_errcode (s : State) (h16 : m % 16 = 0) :
    (s.decryptPipeline m).errcode ≠ 0x04 ∧ ((s.decryptPipeline m).errcode = 0x03 → m = 0) := by
  rw [State.decryptPipeline_eq]
  obtain ⟨h0, h⟩ | ⟨-, -, h⟩ | ⟨-, -, h⟩ := (s.afterInverseLayers m).finishRemovePadding_cases h16
  · rw [h, State.raise_errcode]
    exact ⟨by decide, fun _ => h0⟩
  · rw [h, State.raise_errcode]
    exact errcode_avoids _ (by decide)
  · rw [h, State.complete_errcode]
    exact errcode_avoids _ (by decide)

/-! ### Encrypting and then decrypting -/

/-- `t` holds the ciphertext of the payload of `s`, ready for DECRYPT under any 16-byte nonce (R192). -/
structure State.EncryptedInto (s t : State) : Prop where
  params : t.params = s.params
  nonceLen : t.nonceLen = 16
  ctLen : t.ctLen.toNat = paddedLen s.ptLen.toNat
  peek : ∀ a < paddedLen s.ptLen.toNat,
    t.peek a = some (sboxAt s.params (s.specPadded s.specK2 s.ptLen.toNat (specPermute a) ^^^ s.specK1))

/-- `encrypt_pipeline` does so, from a state that holds a 16-byte nonce. -/
theorem State.encryptedInto_afterEncrypt (hwf : s.params.wf = true) (hfit : 8 + s.ptLen.toNat ≤ s.params.bufBytes)
    (hlen : s.nonceLen = 16) : s.EncryptedInto s.afterEncrypt where
  params := s.afterEncrypt_params
  nonceLen := s.afterEncrypt_nonceLen.trans hlen
  ctLen := State.afterEncrypt_ctLen_toNat hwf hfit
  peek _ := State.peek_afterEncrypt

/-- Another nonce changes nothing of that. -/
theorem State.EncryptedInto.withNonce (h : s.EncryptedInto t) (nonce : Vector Byte 16) :
    s.EncryptedInto { t with nonce := nonce } := { h with }

/-- The plaintext of a ciphertext is the padded payload: the keys do not depend on the nonce, and every layer is undone
(R124, R198). -/
theorem State.EncryptedInto.plainByte (h : s.EncryptedInto t) (hwf : s.params.wf = true) {a : Nat}
    (ha : a < paddedLen s.ptLen.toNat) : t.plainByte a = s.specPadded s.specK2 s.ptLen.toNat a := by
  have hblock := specPermute_block a
  have hmod := paddedLen_mod s.ptLen.toNat
  obtain ⟨hk1, -⟩ := State.specKeys_congr h.params
  rw [State.plainByte, State.bufByte_of_peek (h.peek (specPermute a) (by omega)), specPermute_specPermute, h.params,
    invSboxAt_sboxAt (Params.sboxOk_of_wf hwf), hk1, xorKey_xorKey]

/-- The plaintext of a ciphertext declares the payload's length. -/
theorem State.EncryptedInto.specFromBe64_plainByte (h : s.EncryptedInto t) (hwf : s.params.wf = true) :
    specFromBe64 t.plainByte = s.ptLen.toNat := by
  have hge := paddedLen_ge s.ptLen.toNat
  have hn : s.ptLen.toNat < 256 ^ 8 := Nat.lt_trans s.ptLen.isLt (by decide)
  rw [specFromBe64_congr fun k hk => h.plainByte hwf (by omega), State.specFromBe64_specPadded s _ hn]

/-- `u` holds the padded payload of `s` without an error: what DECRYPT is to leave (R198). -/
structure State.RecoveredInto (s u : State) : Prop where
  params : u.params = s.params
  err : u.err = false
  ptLen : u.ptLen = s.ptLen
  payload : ∀ i < s.ptLen.toNat, u.peek (8 + i) = some (s.bufByte (8 + i))
  padded : ∀ a < u.ctLen.toNat, u.peek a = some (s.specPadded s.specK2 s.ptLen.toNat a)

/-- DECRYPT recovers what has been encrypted (R198). -/
theorem State.EncryptedInto.exec_decrypt (h : s.EncryptedInto t) (imm : Byte) (hwf : s.params.wf = true)
    (hfit : 8 + s.ptLen.toNat ≤ s.params.bufBytes) :
    ∃ u, exec (.decrypt imm) t = .next u ∧ s.RecoveredInto u := by
  have hmod := paddedLen_mod s.ptLen.toNat
  have hge := paddedLen_ge s.ptLen.toNat
  have hbound : t.ctLen.toNat ≤ t.params.bufBytes := by
    rw [h.ctLen, h.params]
    exact paddedLen_le (Params.wf_bufBytes hwf).1 hfit
  have hct16 : t.ctLen.toNat % 16 = 0 := by rw [h.ctLen, hmod]
  have hol := h.specFromBe64_plainByte hwf
  have hct := h.ctLen
  have hend := t.decryptPipeline_ok hct16 (by omega) (by omega)
  have hpeek : ∀ a < t.ctLen.toNat,
      (t.decryptPipeline t.ctLen.toNat).peek a = some (s.specPadded s.specK2 s.ptLen.toNat a) := fun a ha => by
    rw [t.peek_decryptPipeline hct16 ha, ← h.plainByte hwf (hct ▸ ha), State.plainByte]
  refine ⟨_, Machine.exec_decrypt imm hbound hct16 h.nonceLen, ?_, ?_, ?_, fun i hi => ?_, fun a ha => hpeek a ?_⟩
  · rw [State.decryptPipeline_params, h.params]
  · rw [hend, State.complete_err]
  · rw [hend, State.complete_ptLen, hol, BitVec.ofNat_toNat, BitVec.setWidth_eq]
  · rw [hpeek _ (by omega), State.specPadded, if_neg (by omega), if_pos (Nat.add_lt_add_left hi 8)]
  · rwa [State.decryptPipeline_ctLen] at ha

end Sys2Proof.Machine
end

section
/-! Statements of the family 47_orchestrator: NOP, GEN_NONCE, the two encrypting commands, DECRYPT and its errors, and
encrypting followed by decrypting. -/

open Sys2Proof Sys2Proof.Machine

/-- Settles O43: NOP is `complete()`, and acceptance has put its opcode 0 in LAST_OP. -/
theorem nopOnlyCompletes : Obligations.NopOnlyCompletes := fun _ _ =>
  ⟨⟨_, rfl⟩, fun _ h => ⟨_, rfl, State.statusWord_nop h⟩⟩

/-- Settles O44: the two outcomes of the draw, by what the random source can supply. -/
theorem genNonceDrawsSixteenBytes : Obligations.GenNonceDrawsSixteenBytes := fun imm _ =>
  ⟨fun hrng => ⟨_, exec_genNonce imm hrng, rfl, State.rng_getElem?_drawNonce hrng⟩, exec_genNonce_waits imm⟩

/-- Settles O46: the checks in their order, then `encrypt_pipeline` and what it leaves at every byte. -/
theorem encryptNProducesTheCiphertext : Obligations.EncryptNProducesTheCiphertext := by
  rintro imm s _ _ hwf rfl rfl
  refine ⟨fun hlong => ⟨_, exec_encryptN_tooLong imm hlong⟩,
    fun hfit hlen => ⟨_, exec_encryptN_nonceLength imm hfit hlen⟩, fun hfit hlen => ?_⟩
  exact ⟨s.afterEncrypt, exec_encryptN_of_fits imm hfit hlen, s.afterEncrypt_frame,
    State.afterEncrypt_ctLen_toNat hwf hfit, s.afterEncrypt_wprbg_toNat, fun _ => State.peek_afterEncrypt,
    fun _ => State.peek_afterEncrypt_above⟩

/-- Settles O47: the capacity check, then the draw and `encrypt_pipeline` from the state that the draw leaves, whose
parameters, payload and buffer are those of `s`. -/
theorem encryptDrawsANonceAndEncrypts : Obligations.EncryptDrawsANonceAndEncrypts := by
  rintro imm s _ _ hwf rfl rfl
  refine ⟨fun hlong => ⟨_, exec_encrypt_tooLong imm hlong⟩, fun hfit hrng => ?_⟩
  obtain ⟨hk1, hk2⟩ := State.specKeys_congr s.drawNonce.afterEncrypt_params
  have hacc := State.specAcc_congr s.drawNonce.afterEncrypt_params
  refine ⟨s.drawNonce.afterEncrypt, exec_encrypt_of_fits imm hfit hrng, ?_⟩
  rw [hk1, hk2, hacc, State.afterEncrypt_nonce]
  exact ⟨s.drawNonce.afterEncrypt_frame, State.rng_getElem?_drawNonce hrng,
    State.afterEncrypt_ctLen_toNat (s := s.drawNonce) hwf hfit, s.drawNonce.afterEncrypt_wprbg_toNat,
    fun _ => State.peek_afterEncrypt (s := s.drawNonce), fun _ => State.peek_afterEncrypt_above (s := s.drawNonce)⟩

/-- Settles O48: the checks in their order, then the three ends of `remove_padding` on full blocks. -/
theorem decryptChecksAndInvertsTheLayers : Obligations.DecryptChecksAndInvertsTheLayers := by
  rintro imm s _ hwf rfl
  refine ⟨fun hlong => ⟨_, exec_decrypt_tooLong imm hlong⟩, fun hfit h16 => ⟨_, exec_decrypt_unaligned imm hfit h16⟩,
    fun hfit h16 hlen => ⟨_, exec_decrypt_nonceLength imm hfit h16 hlen⟩, fun hfit h0 hlen => ?_,
    fun hfit h16 h0 hlen => ?_⟩
  · have hend := exec_decrypt imm hfit (by rw [h0]) hlen
    rw [h0, s.decryptPipeline_zero] at hend
    exact ⟨_, hend⟩
  · refine ⟨_, s.plainByte, exec_decrypt imm hfit h16 hlen, fun a _ => State.sboxAt_plainByte hwf a,
      fun _ => s.peek_decryptPipeline h16, fun _ => s.peek_decryptPipeline_ge, fun hol => ?_, fun hol => ?_⟩
    · have hword : specFromBe64 s.plainByte < 2 ^ 32 := by have := s.ctLen.isLt; omega
      rw [s.decryptPipeline_ok h16 h0 hol, s.afterInverseLayers_frame]
      exact ⟨rfl, (BitVec.toNat_ofNat ..).trans (Nat.mod_eq_of_lt hword)⟩
    · rw [s.decryptPipeline_overflow h16 h0 hol, s.afterInverseLayers_frame]
      rfl

/-- Settles O49: each check of DECRYPT has another code, and `decrypt_pipeline` runs on full blocks only;
REMOVE_PADDING of 1 byte and of 8 bytes ends with the two errors. -/
theorem decryptNeverRaisesBadBlockAlignment : Obligations.DecryptNeverRaisesBadBlockAlignment := by
  constructor
  · intro imm s t h
    by_cases hfit : s.ctLen.toNat ≤ s.params.bufBytes
    · rw [exec_decrypt_of_fits imm hfit] at h
      split at h
      · cases h
        exact errcode_avoids _ (by decide : errorCode .invalidLength ∉ _)
      · split at h
        · cases h
          exact errcode_avoids _ (by decide : errorCode .invalidNonceLength ∉ _)
        · rename_i h16 _
          cases h
          obtain ⟨h4, h3⟩ := s.decryptPipeline_errcode (not_not.mp h16)
          exact ⟨h4, fun he => BitVec.eq_of_toNat_eq (h3 he)⟩
    · rw [exec_decrypt_tooLong imm (not_le.mp hfit)] at h
      cases h
      exact errcode_avoids _ (by decide : errorCode .capacityExceeded ∉ _)
  · intro code hcode
    obtain rfl | rfl := List.mem_pair.mp hcode
    · exact ⟨0, { State.reset with ctLen := 1 }, _,
        exec_removePadding_error (e := .malformedLength) 0 (by decide) rfl, rfl⟩
    · exact ⟨0, { State.reset with ctLen := 8 }, _,
        exec_removePadding_error (e := .badBlockAlignment) 0 (by decide) rfl, rfl⟩

/-- Settles O50: both encrypting commands leave a ciphertext that DECRYPT recovers under any 16-byte nonce. -/
theorem encryptThenDecryptRecoversThePayload : Obligations.EncryptThenDecryptRecoversThePayload := by
  intro imm imm' s hwf hfit
  refine ⟨fun nonce hlen => ?_, fun hrng => ?_⟩
  · have hct := (State.encryptedInto_afterEncrypt hwf hfit hlen).withNonce nonce
    obtain ⟨u, hu, hrec⟩ := hct.exec_decrypt imm' hwf hfit
    exact ⟨_, u, exec_encryptN_of_fits imm hfit hlen, hu, hrec.err, hrec.ptLen, hrec.payload, hrec.padded⟩
  · have hct := State.encryptedInto_afterEncrypt (s := s.drawNonce) hwf hfit rfl
    obtain ⟨u, hu, hrec⟩ := hct.exec_decrypt imm' hwf hfit
    obtain ⟨-, hk2⟩ := State.specKeys_congr hrec.params
    refine ⟨u, ?_, hrec.err, hrec.ptLen, hrec.payload, ?_⟩
    · exact (runCommands_cons (exec_encrypt_of_fits imm hfit hrng) _).trans (runCommands_cons hu [])
    · rw [hk2]
      exact hrec.padded

end

section
/-! SUPPORT. How a command ends as far as errors go: which state an error leaves behind it (R225, R230), and the commands
that wait for the random source (R241). -/

namespace Sys2Proof.Machine

variable {s : State} {i : Instr}

/-! ### What an error leaves -/

/-- What command `i` at `s` can come to: it waits, it completes, or it raises an error with nothing but latches written
before (R230), unless it is DECRYPT and finds a declared length that does not fit (R225). -/
inductive CommandEnd (i : Instr) (s : State) : Result → Prop
  | waits : CommandEnd i s (.next s)
  | completes (u : State) : CommandEnd i s (.next u.complete)
  | raises {u : State} (hu : s.SameButLatches u) (e : Error) : CommandEnd i s (.next (u.raise e))
  | overflows {imm : Byte} (hi : i = .decrypt imm) (u : State) : CommandEnd i s (.next (u.raise .lengthOverflow))

/-- An error raised before any write. -/
theorem CommandEnd.raised (i : Instr) (s : State) (e : Error) : CommandEnd i s (.next (s.raise e)) :=
  .raises (u := s) rfl e

/-- A check, by its two branches. -/
theorem CommandEnd.ite {c : Prop} [Decidable c] {r₁ r₂ : Result} (h₁ : c → CommandEnd i s r₁)
    (h₂ : ¬ c → CommandEnd i s r₂) : CommandEnd i s (if c then r₁ else r₂) := by
  split
  · exact h₁ ‹_›
  · exact h₂ ‹_›

/-- A check before any write: it fails, or the command goes on as `r` says. -/
theorem CommandEnd.check {c : Prop} [Decidable c] {e : Error} {r : Result} (h : CommandEnd i s r) :
    CommandEnd i s (if c then .next (s.raise e) else r) :=
  .ite (fun _ => .raised i s e) fun _ => h

/-- `remove_padding` only reads the buffer before its errors (R132). -/
theorem CommandEnd.finishRemovePadding (i : Instr) (s : State) (m : Nat) :
    CommandEnd i s (.next (s.finishRemovePadding m)) := by
  unfold State.finishRemovePadding
  cases s.removePadding m with
  | error e => exact .raised i s e
  | ok ol => exact .completes _

/-- On full blocks `decrypt_pipeline` raises either for no block at all, when the layers have written nothing, or for the
declared length (R195, R197). -/
theorem CommandEnd.decryptPipeline (imm : Byte) (s : State) {m : Nat} (h16 : m % 16 = 0) :
    CommandEnd (.decrypt imm) s (.next (s.decryptPipeline m)) := by
  obtain ⟨rfl, -⟩ | ⟨-, -, h⟩ | ⟨-, -, h⟩ := (s.afterInverseLayers m).finishRemovePadding_cases h16
  · rw [s.decryptPipeline_zero]
    exact .raises (u := { s with acc := s.specAcc 16, tk1 := s.specK1, tk2 := s.specK2 }) rfl _
  · rw [s.decryptPipeline_eq, h]
    exact .overflows rfl _
  · rw [s.decryptPipeline_eq, h]
    exact .completes _

/-- Every command ends in one of these ways: each check comes before the writes, but for the last one of DECRYPT. -/
theorem exec_commandEnd (i : Instr) (s : State) : CommandEnd i s (exec i s) := by
  cases i with
  | nop | prbgSeed | prbgNext | sboxLookup | invSboxLookup => exact .completes _
  | deriveKeys | addPadding => exact .check (.completes _)
  | xorBuf | substitute | invSubstitute | permute | invPermute => exact .check (.completes _)
  | genNonce => exact .ite (fun _ => .completes _) fun _ => .waits
  | encrypt => exact .check (.ite (fun _ => .completes _) fun _ => .waits)
  | encryptN => exact .check (.check (.completes _))
  | removePadding => exact .check (.finishRemovePadding _ s _)
  | decrypt imm =>
    exact .check (.ite (fun _ => .raised _ s _) fun h16 => .check (.decryptPipeline imm s (not_not.mp h16)))

/-! ### Waiting for the random source -/

/-- ENCRYPT of a payload that fits waits until the source can supply a nonce (R193, R241). -/
theorem exec_encrypt_waits (imm : Byte) (hfit : 8 + s.ptLen.toNat ≤ s.params.bufBytes) (hrng : s.rng.length < 16) :
    exec (.encrypt imm) s = .next s :=
  (if_neg (mt of_decide_eq_true (not_lt.mpr hfit))).trans (if_neg (mt of_decide_eq_true (not_le.mpr hrng)))

/-- While the source is stalled, the two drawing commands change nothing. -/
theorem exec_stalled (hi : ∃ imm, i = .genNonce imm ∨ (i = .encrypt imm ∧ 8 + s.ptLen.toNat ≤ s.params.bufBytes))
    (hrng : s.rng.length < 16) : exec i s = .next s := by
  obtain ⟨imm, rfl | ⟨rfl, hfit⟩⟩ := hi
  · exact exec_genNonce_waits imm hrng
  · exact exec_encrypt_waits imm hfit hrng

/-- Bit 0 of STATUS is BUSY (R25). -/
theorem State.statusWord_bit_zero (s : State) : s.statusWord.getLsbD 0 = s.busy := by
  have hmod : s.statusWord.toNat % 2 = s.busy.toNat := by
    have hle := s.busy.toNat_le
    have hword := s.statusWord_toNat
    omega
  rw [BitVec.getLsbD, Nat.testBit_zero, hmod]
  cases s.busy <;> rfl

end Sys2Proof.Machine
end

section
/-! Statements of the family 60_exceptions: what an error changes, CapacityExceeded, ILLEGAL words, a stalled random
source. -/

open Sys2Proof Sys2Proof.Machine

/-- Settles O28, by the ways a command ends (`exec_commandEnd`): it has not waited, for it is no longer pending, and it has
not completed, for ERR is 1. -/
theorem errorsLeaveEverythingButStatus : Obligations.ErrorsLeaveEverythingButStatus := by
  intro i s t h hp ht herr hover
  have hend := exec_commandEnd i s
  rw [h] at hend
  cases hend with
  | waits => exact absurd ht hp
  | completes u => exact absurd herr Bool.false_ne_true
  | raises hu e =>
    obtain ⟨w, x, k1, k2, rfl⟩ := hu.exists_withLatches
    rfl
  | overflows hi u => exact absurd ⟨⟨_, hi⟩, rfl⟩ hover

/-- Settles O45, event by event: the engine's turn waits, a read changes no state of the spec, a write while busy is
ignored. That a stalled turn takes no byte at all from the list `rng` is the model's (log entries 5 and 16). -/
theorem stalledRandomSourceHoldsTheEngine : Obligations.StalledRandomSourceHoldsTheEngine := by
  intro s t w i hp hd hi hrng hreset hs
  have hturn (rest : List Event) :
      ({ s with inputs := rest } : State).engineTurn = .next { s with inputs := rest } :=
    (State.engineTurn_of_decode (s := { s with inputs := rest }) hp hd).trans
      (exec_stalled (s := { s with inputs := rest }) hi hrng)
  have hframe : t = { s with inputs := t.inputs, rdata := t.rdata, epoch := t.epoch } := by
    obtain ⟨-, ⟨-, h⟩ | ⟨rest, -, h⟩ | ⟨a, rest, -, rfl⟩ | ⟨a, d, strb, rest, -, rfl⟩ | ⟨k, rest, hin, -⟩⟩ :=
      step_cases hs
    · cases (hturn s.inputs).symm.trans h
      rfl
    · cases (hturn rest).symm.trans h
      rfl
    · rfl
    · have hbusy : ({ s with inputs := rest } : State).busy = true := State.busy_of_ne_none (by simp [hp])
      rw [State.hostWrite_ignored (.inl hbusy)]
    · exact absurd hin (hreset k rest)
  have hpend : t.pending = some w := (congrArg State.pending hframe).trans hp
  exact ⟨hframe, t.statusWord_bit_zero.trans (State.busy_of_ne_none (by simp [hpend]))⟩

/-- Settles O5: the numbers say that the word does not decode (`illegalWordsAreExactly`), so the engine's turn raises
IllegalCommand, and LAST_OP is still what acceptance put there. -/
theorem illegalCommandEndsWithError : Obligations.IllegalCommandEndsWithError := by
  intro s w rest hwf hp hin hill
  obtain ⟨e, he⟩ := (illegalWordsAreExactly w).mpr hill
  have hstep := (step_engine hwf hin).trans (State.engineTurn_of_illegal (s := { s with inputs := rest }) hp he)
  refine ⟨⟨_, hstep⟩, fun hinv t ht => ?_⟩
  cases hstep.symm.trans ht
  exact hinv.lastOpPending w hp

/-- Settles O27: for each of the ten commands the capacity check is the first one. -/
theorem capacityExceededChangesOnlyStatus : Obligations.CapacityExceededChangesOnlyStatus := by
  rintro i imm s (⟨hi, hlong⟩ | ⟨hi, hlong⟩) <;> simp only [List.mem_cons, List.not_mem_nil, or_false] at hi
  · rcases hi with rfl | rfl | rfl
    · exact ⟨_, exec_encrypt_tooLong imm hlong⟩
    · exact ⟨_, exec_encryptN_tooLong imm hlong⟩
    · exact ⟨_, exec_addPadding_tooLong imm hlong⟩
  · rcases hi with rfl | rfl | rfl | rfl | rfl | rfl | rfl
    · exact ⟨_, exec_decrypt_tooLong imm hlong⟩
    · exact ⟨_, exec_removePadding_tooLong imm hlong⟩
    · exact ⟨_, exec_xorBuf_tooLong imm hlong⟩
    · exact ⟨_, exec_substitute_tooLong imm hlong⟩
    · exact ⟨_, exec_invSubstitute_tooLong imm hlong⟩
    · exact ⟨_, exec_permute_tooLong imm hlong⟩
    · exact ⟨_, exec_invPermute_tooLong imm hlong⟩

end

section
/-! SUPPORT. Commands run by hand (R257): over a buffer whose bytes all stand in it, each layer command does what the
layer does inside a pipeline, because no command on the way reads a free value. -/

namespace Sys2Proof.Machine

variable {s t : State} {q : Nat → Byte} {r : Nat → Option Byte} {k2 : Byte} {n a : Nat}

/-! ### Written bytes -/

/-- A byte that has been written reads the same as long as it stands there, whatever the counter of the free values. -/
theorem State.bufByte_of_peek_eq (h : t.peek a = s.peek a) (hw : s.peek a ≠ none) : t.bufByte a = s.bufByte a := by
  obtain ⟨b, hb⟩ := Option.ne_none_iff_exists'.mp hw
  rw [State.bufByte_of_peek hb, State.bufByte_of_peek (h.trans hb)]

theorem State.peek_eq_some_bufByte (hw : s.peek a ≠ none) : s.peek a = some (s.bufByte a) := by
  obtain ⟨b, hb⟩ := Option.ne_none_iff_exists'.mp hw
  rw [State.bufByte_of_peek hb, hb]

/-- With a written payload the whole padded buffer stands in `BUF` (R130, R133). -/
theorem State.peek_padBuffer_of_written (hw : ∀ i < n, s.peek (8 + i) ≠ none) (ha : a < paddedLen n) :
    (s.padBuffer k2 n).peek a = some (s.specPadded k2 n a) := by
  obtain h | ⟨h8, hn, hpeek, hspec⟩ := s.peek_padBuffer_spec k2 ha
  · exact h
  · have hwa := hw (a - 8) (by omega)
    rw [Nat.add_sub_cancel' h8] at hwa
    rw [hpeek, hspec, State.peek_eq_some_bufByte hwa]

/-- The padded buffer depends on the state by the payload only (R130). -/
theorem State.specPadded_congr (h : ∀ i < n, t.bufByte (8 + i) = s.bufByte (8 + i)) (k2 : Byte) (a : Nat) :
    t.specPadded k2 n a = s.specPadded k2 n a := by
  unfold State.specPadded
  by_cases h8 : a < 8
  · rw [if_pos h8, if_pos h8]
  · by_cases hn : a < 8 + n
    · have hb := h (a - 8) (by omega)
      rw [Nat.add_sub_cancel' (not_lt.mp h8)] at hb
      rw [if_neg h8, if_pos hn, if_neg h8, if_pos hn, hb]
    · rw [if_neg h8, if_neg hn, if_neg h8, if_neg hn]

/-! ### What stands in the whole buffer -/

/-- `BUF[0 .. CT_LEN]` holds the bytes `q`, all of them written; what stands above is `r`. -/
structure State.Holds (s : State) (q : Nat → Byte) (r : Nat → Option Byte) : Prop where
  inside : ∀ a < s.ctLen.toNat, s.peek a = some (q a)
  above : ∀ a ≥ s.ctLen.toNat, s.peek a = r a

/-- Together with the length, this is the whole content of the buffer. -/
theorem State.Holds.peek_eq (hs : s.Holds q r) (ht : t.Holds q r) (hlen : t.ctLen = s.ctLen) (a : Nat) :
    t.peek a = s.peek a := by
  by_cases ha : a < s.ctLen.toNat
  · rw [hs.inside a ha, ht.inside a (hlen ▸ ha)]
  · rw [hs.above a (not_lt.mp ha), ht.above a (hlen ▸ not_lt.mp ha)]

/-- Every byte of `BUF[0 .. CT_LEN]` reads the same. -/
theorem State.Holds.bufByte_eq (hs : s.Holds q r) (ht : t.Holds q r) (hlen : t.ctLen = s.ctLen) :
    ∀ a < s.ctLen.toNat, t.bufByte a = s.bufByte a := fun a ha => by
  rw [State.bufByte_of_peek (hs.inside a ha), State.bufByte_of_peek (ht.inside a (hlen ▸ ha))]

/-- A buffer that has been written holds what it reads. -/
theorem State.holds_of_written (hw : ∀ a < s.ctLen.toNat, s.peek a ≠ none) : s.Holds s.bufByte s.peek :=
  ⟨fun a ha => State.peek_eq_some_bufByte (hw a ha), fun _ _ => rfl⟩

/-- A byte-wise layer command (R152, R153, R181). -/
theorem State.Holds.afterMapBuffer (h : s.Holds q r) (f : Byte → Byte) :
    (s.afterMapBuffer f).Holds (fun a => f (q a)) r where
  inside a ha := by rw [State.peek_afterMapBuffer (s := s) f ha, State.bufByte_of_peek (h.inside a ha)]
  above a ha := (State.peek_afterMapBuffer_above (s := s) f ha).trans (h.above a ha)

/-- A permutation command on full blocks (R172, R173). -/
theorem State.Holds.swappedInto (h : s.Holds q r) (h16 : s.ctLen.toNat % 16 = 0) (hst : s.SwappedInto t) :
    t.Holds (fun a => q (specPermute a)) r where
  inside a ha := by
    rw [hst.ctLen] at ha
    by_cases hmv : permuteMoves a = true
    · have hmoves : PermutationMoves s.ctLen.toNat a := (permutationMoves_iff _ a).mpr ⟨by omega, hmv⟩
      have hblock := permutePos_block a
      rw [hst.peek_moved hmoves, State.bufByte_of_peek (h.inside (permutePos a) (by omega)), specPermute, if_pos hmv]
    · rw [hst.peek_unmoved fun hm => hmv ((permutationMoves_iff _ a).mp hm).2, h.inside a ha, specPermute, if_neg hmv]
  above a ha := by
    rw [hst.ctLen] at ha
    rw [hst.peek_unmoved fun hm => by have := hm.1; omega, h.above a ha]

theorem State.SwappedInto.keyK1 (h : s.SwappedInto t) : t.keyK1 = s.keyK1 := by
  rw [h.frame]

theorem State.SwappedInto.ptLen (h : s.SwappedInto t) : t.ptLen = s.ptLen := by
  rw [h.frame]

/-! ### The keys by hand -/

/-- For a nonce of 16 bytes DERIVE_KEYS gives KEYS the pair that the pipelines keep in their latches (R122, R192). -/
theorem exec_deriveKeys_sixteen (imm : Byte) (hlen : s.nonceLen = 16) :
    exec (.deriveKeys imm) s = .next s.afterDeriveKeys ∧
      s.afterDeriveKeys.keyK1 = s.specK1 ∧ s.afterDeriveKeys.keyK2 = s.specK2 := by
  have h16 : s.nonceLen.toNat = 16 := congrArg BitVec.toNat hlen
  refine ⟨exec_deriveKeys imm h16.le, ?_, ?_⟩
  · rw [State.afterDeriveKeys_keyK1, h16]
    rfl
  · rw [State.afterDeriveKeys_keyK2, h16]
    rfl

/-! ### Encrypting -/

/-- The ciphertext byte at `a` under the layers of encryption (R192). -/
def State.cipherByte (s : State) (a : Nat) : Byte :=
  sboxAt s.params (s.specPadded s.specK2 s.ptLen.toNat (specPermute a) ^^^ s.specK1)

theorem State.holds_afterEncrypt (hwf : s.params.wf = true) (hfit : 8 + s.ptLen.toNat ≤ s.params.bufBytes) :
    s.afterEncrypt.Holds s.cipherByte s.peek := by
  have hlen := State.afterEncrypt_ctLen_toNat hwf hfit
  exact ⟨fun a ha => State.peek_afterEncrypt (hlen ▸ ha), fun a ha => State.peek_afterEncrypt_above (hlen ▸ ha)⟩

/-- ADD_PADDING of a written payload (R133). -/
theorem State.holds_afterAddPadding (hwf : s.params.wf = true) (hfit : 8 + s.ptLen.toNat ≤ s.params.bufBytes)
    (hw : ∀ i < s.ptLen.toNat, s.peek (8 + i) ≠ none) :
    s.afterAddPadding.Holds (s.specPadded s.keyK2 s.ptLen.toNat) s.peek := by
  have hlen := State.afterAddPadding_ctLen_toNat hwf hfit
  have hge := paddedLen_ge s.ptLen.toNat
  refine ⟨fun a ha => ?_, fun a ha => ?_⟩
  · rw [State.peek_afterAddPadding, State.peek_padBuffer_of_written hw (hlen ▸ ha)]
  · rw [State.peek_afterAddPadding, State.peek_padBuffer_unwritten s _ (by omega) (.inr (hlen ▸ ha))]

/-- DERIVE_KEYS and ADD_PADDING leave the padded payload that `encrypt_pipeline` encrypts: DERIVE_KEYS moves the counter
of the free values, but a written payload reads the same (R133, R192). -/
theorem State.holds_afterDeriveKeys_afterAddPadding (hwf : s.params.wf = true)
    (hfit : 8 + s.ptLen.toNat ≤ s.params.bufBytes) (hk2 : s.afterDeriveKeys.keyK2 = s.specK2)
    (hw : ∀ i < s.ptLen.toNat, s.peek (8 + i) ≠ none) :
    s.afterDeriveKeys.afterAddPadding.Holds (s.specPadded s.specK2 s.ptLen.toNat) s.peek := by
  have h := State.holds_afterAddPadding (s := s.afterDeriveKeys) hwf hfit hw
  have hpayload : s.afterDeriveKeys.specPadded s.specK2 s.ptLen.toNat = s.specPadded s.specK2 s.ptLen.toNat :=
    funext (State.specPadded_congr (fun i hi => State.bufByte_of_peek_eq (State.peek_complete _ _) (hw i hi)) _)
  rw [hk2] at h
  exact hpayload ▸ h

@[simp] theorem State.afterAddPadding_keyK1 (s : State) : s.afterAddPadding.keyK1 = s.keyK1 := by
  rw [State.afterAddPadding, State.complete_keyK1, State.padBuffer_keyK1]

/-- XOR_BUF, SUBSTITUTE and PERMUTE, one after another, over a padded buffer (R192). -/
theorem State.Holds.runCommands_encryptLayers (h : s.Holds q r) (imm : Byte)
    (hfit : s.ctLen.toNat ≤ s.params.bufBytes) (h16 : s.ctLen.toNat % 16 = 0) :
    ∃ u, runCommands [.xorBuf imm, .substitute imm, .permute imm] s = .next u ∧ u.ctLen = s.ctLen ∧
      u.Holds (fun a => sboxAt s.params (q (specPermute a) ^^^ s.keyK1)) r := by
  have hx := exec_xorBuf imm hfit
  have hsub := exec_substitute (s := s.afterMapBuffer (· ^^^ s.keyK1)) imm hfit
  obtain ⟨u, hperm, hst⟩ :=
    swapsBlocks_permute imm ((s.afterMapBuffer (· ^^^ s.keyK1)).afterMapBuffer (sboxAt s.params)) hfit
  refine ⟨u, ?_, hst.ctLen, ((h.afterMapBuffer _).afterMapBuffer _).swappedInto h16 hst⟩
  exact (runCommands_cons hx _).trans ((runCommands_cons hsub _).trans (runCommands_cons hperm []))

/-! ### Decrypting -/

@[simp] theorem State.afterInverseLayers_ctLen (s : State) (m : Nat) : (s.afterInverseLayers m).ctLen = s.ctLen := by
  rw [s.afterInverseLayers_frame]

@[simp] theorem State.afterInverseLayers_ptLen (s : State) (m : Nat) : (s.afterInverseLayers m).ptLen = s.ptLen := by
  rw [s.afterInverseLayers_frame]

theorem State.holds_afterInverseLayers (h16 : s.ctLen.toNat % 16 = 0) :
    (s.afterInverseLayers s.ctLen.toNat).Holds s.plainByte s.peek := by
  have hlen := s.afterInverseLayers_ctLen s.ctLen.toNat
  have hpeek (a : Nat) : (s.afterInverseLayers s.ctLen.toNat).peek a = (s.decryptPipeline s.ctLen.toNat).peek a := by
    rw [State.decryptPipeline_eq, State.peek_finishRemovePadding]
  exact ⟨fun a ha => (hpeek a).trans (s.peek_decryptPipeline h16 (hlen ▸ ha)),
    fun a ha => (hpeek a).trans (s.peek_decryptPipeline_ge (hlen ▸ ha))⟩

/-- INV_PERMUTE, INV_SUBSTITUTE and XOR_BUF, one after another, over a written ciphertext of full blocks (R195). -/
theorem State.Holds.runCommands_decryptLayers (h : s.Holds q r) (imm : Byte)
    (hfit : s.ctLen.toNat ≤ s.params.bufBytes) (h16 : s.ctLen.toNat % 16 = 0) (is : List Instr) :
    ∃ u, runCommands (.invPermute imm :: .invSubstitute imm :: .xorBuf imm :: is) s = runCommands is u ∧
      u.ctLen = s.ctLen ∧ u.params = s.params ∧ u.ptLen = s.ptLen ∧
      u.Holds (fun a => invSboxAt s.params (q (specPermute a)) ^^^ s.keyK1) r := by
  obtain ⟨t, hperm, hst⟩ := swapsBlocks_invPermute imm s hfit
  have hfit' : t.ctLen.toNat ≤ t.params.bufBytes := by rwa [hst.ctLen, hst.params]
  have hsub := exec_invSubstitute imm hfit'
  have hx := exec_xorBuf (s := t.afterMapBuffer (invSboxAt t.params)) imm hfit'
  refine ⟨_, (runCommands_cons hperm _).trans ((runCommands_cons hsub _).trans (runCommands_cons hx is)), hst.ctLen,
    hst.params, hst.ptLen, ?_⟩
  rw [← hst.params, ← hst.keyK1]
  exact ((h.swappedInto h16 hst).afterMapBuffer _).afterMapBuffer _

/-- `remove_padding` reads the length field only, and that only when it is there (R132). -/
theorem State.finishRemovePadding_congr {m : Nat} (hpt : t.ptLen = s.ptLen)
    (hb : ∀ a < m, t.bufByte a = s.bufByte a) :
    (t.finishRemovePadding m).ptLen = (s.finishRemovePadding m).ptLen ∧
      (t.finishRemovePadding m).err = (s.finishRemovePadding m).err ∧
      (t.finishRemovePadding m).errcode = (s.finishRemovePadding m).errcode := by
  have hremove : t.removePadding m = s.removePadding m := by
    rw [State.removePadding_eq, State.removePadding_eq]
    by_cases h8 : m < 8
    · rw [if_pos h8, if_pos h8]
    · rw [specFromBe64_congr fun k hk => hb k (by omega)]
  unfold State.finishRemovePadding
  rw [hremove]
  cases s.removePadding m with
  | error e => exact ⟨hpt, rfl, rfl⟩
  | ok ol => exact ⟨rfl, rfl, rfl⟩

end Sys2Proof.Machine
end

section
/-! SUPPORT. The random bytes that a reset loses (R251), and the counter of the free values. -/

namespace Sys2Proof.Machine

variable {s : State} {rest : List Event} {taken : Nat}

/-! ### A reset and the random source -/

/-- The commands that draw, and get as far as drawing (R191, R193). -/
theorem State.drawing_iff (s : State) :
    s.drawing = true ↔ ∃ w imm, s.pending = some w ∧
      (decode w = .ok (.genNonce imm) ∨
        decode w = .ok (.encrypt imm) ∧ 8 + s.ptLen.toNat ≤ s.params.bufBytes) := by
  unfold State.drawing
  cases hp : s.pending with
  | none => simp
  | some w =>
    cases hd : decode w with
    | error e => simp [hd]
    | ok i =>
      cases i with
      | genNonce => simp [hd]
      | encrypt => simp [hd, State.payloadTooLong]
      | _ => simp [hd]

theorem step_reset_drawing (hwf : s.params.wf = true) (hin : s.inputs = .reset taken :: rest) (htaken : taken ≤ 16)
    (hdraw : s.drawing = true) : ∃ t, step s = .next t ∧ t.rng = s.rng.drop taken := by
  refine ⟨_, step_reset hwf hin, (if_pos hdraw).trans ?_⟩
  rw [Nat.min_eq_left htaken]

theorem step_reset_not_drawing (hwf : s.params.wf = true) (hin : s.inputs = .reset taken :: rest)
    (hdraw : ¬ s.drawing = true) : ∃ t, step s = .next t ∧ t.rng = s.rng :=
  ⟨_, step_reset hwf hin, if_neg hdraw⟩

/-! ### The counter of the free values -/

/-- A command's outcome at `s`, by the counter: it waits with nothing changed, or it ends and moves the counter by
one. -/
inductive WaitsOrMovesEpoch (s : State) : Result → Prop
  | waits : WaitsOrMovesEpoch s (.next s)
  | ends {t : State} (h : t.epoch = s.epoch + 1) : WaitsOrMovesEpoch s (.next t)

/-- A check, by its two branches. -/
theorem WaitsOrMovesEpoch.ite {c : Prop} [Decidable c] {r₁ r₂ : Result} (h₁ : WaitsOrMovesEpoch s r₁)
    (h₂ : WaitsOrMovesEpoch s r₂) : WaitsOrMovesEpoch s (if c then r₁ else r₂) := by
  split
  · exact h₁
  · exact h₂

/-- What a command writes before its end leaves the counter alone. -/
theorem WaitsOrMovesEpoch.completes {u : State} (h : u.epoch = s.epoch) : WaitsOrMovesEpoch s (.next u.complete) :=
  .ends (congrArg (· + 1) h)

theorem WaitsOrMovesEpoch.raises (s : State) (e : Error) : WaitsOrMovesEpoch s (.next (s.raise e)) := .ends rfl

theorem exec_waitsOrMovesEpoch (i : Instr) (s : State) : WaitsOrMovesEpoch s (exec i s) := by
  cases i with
  | nop | prbgSeed | prbgNext | sboxLookup | invSboxLookup => exact .completes rfl
  | deriveKeys | xorBuf | substitute | invSubstitute | permute | invPermute => exact .ite (.raises s _) (.completes rfl)
  | addPadding =>
    refine .ite (.raises s _) (.completes ?_)
    simp only [State.padBuffer_epoch]
  | genNonce => exact .ite (.completes rfl) .waits
  | encrypt => exact .ite (.raises s _) (.ite (.completes (s.drawNonce.encryptPipeline_epoch _)) .waits)
  | encryptN => exact .ite (.raises s _) (.ite (.raises s _) (.completes (s.encryptPipeline_epoch _)))
  | removePadding => exact .ite (.raises s _) (.ends (s.finishRemovePadding_epoch _))
  | decrypt =>
    exact .ite (.raises s _) (.ite (.raises s _) (.ite (.raises s _) (.ends (s.decryptPipeline_epoch _))))

end Sys2Proof.Machine
end

section
/-! Statements of the families 70_reset_and_hazards and other: the layers by hand, the random bytes that a reset loses, and
the counter of the free values. -/

open Sys2Proof Sys2Proof.Machine

/-- Settles O52: by hand the padded payload comes to stand in the buffer, and the three layers then leave the ciphertext
bytes that `encrypt_pipeline` leaves. -/
theorem layersByHandEncryptAlike : Obligations.LayersByHandEncryptAlike := by
  intro imm s hwf hfit hlen hw
  obtain ⟨hderive, hk1, hk2⟩ := exec_deriveKeys_sixteen imm hlen
  have hpad := exec_addPadding (s := s.afterDeriveKeys) imm hfit
  have hct : s.afterDeriveKeys.afterAddPadding.ctLen.toNat = paddedLen s.ptLen.toNat :=
    State.afterAddPadding_ctLen_toNat (s := s.afterDeriveKeys) hwf hfit
  have hpadded := State.holds_afterDeriveKeys_afterAddPadding hwf hfit hk2 hw
  obtain ⟨u, hlayers, hctu, hu⟩ := hpadded.runCommands_encryptLayers imm
    (by rw [hct, State.afterAddPadding_params]; exact paddedLen_le (Params.wf_bufBytes hwf).1 hfit)
    (by rw [hct, paddedLen_mod])
  rw [State.afterAddPadding_params, State.afterAddPadding_keyK1, hk1] at hu
  have hlenu : u.ctLen = s.afterEncrypt.ctLen := by
    rw [hctu]
    exact BitVec.eq_of_toNat_eq (hct.trans (State.afterEncrypt_ctLen_toNat hwf hfit).symm)
  exact ⟨s.afterEncrypt, u, exec_encryptN_of_fits imm hfit hlen,
    (runCommands_cons hderive _).trans ((runCommands_cons hpad _).trans hlayers), hlenu,
    (State.holds_afterEncrypt hwf hfit).peek_eq hu hlenu⟩

/-- Settles O53: before `remove_padding` both runs hold the plaintext bytes, and the end reads nothing else. -/
theorem layersByHandDecryptAlike : Obligations.LayersByHandDecryptAlike := by
  intro imm s hfit h16 hlen hw
  obtain ⟨hderive, hk1, -⟩ := exec_deriveKeys_sixteen imm hlen
  have hheld : s.afterDeriveKeys.Holds s.bufByte s.peek := { State.holds_of_written hw with }
  obtain ⟨v, hrun, hctv, hpv, hptv, hv⟩ := hheld.runCommands_decryptLayers imm hfit h16 [.removePadding imm]
  have hremove := exec_removePadding (s := v) imm (by rw [hctv, hpv]; exact hfit)
  rw [hk1] at hv
  have hlayers := State.holds_afterInverseLayers h16
  have hctl := s.afterInverseLayers_ctLen s.ctLen.toNat
  have hend := State.finishRemovePadding_congr (hptv.trans (s.afterInverseLayers_ptLen s.ctLen.toNat).symm)
    (hlayers.bufByte_eq hv (hctv.trans hctl.symm))
  rw [hctl] at hend
  obtain ⟨hpt, herr, hcode⟩ := hend
  refine ⟨_, v.finishRemovePadding s.ctLen.toNat, exec_decrypt imm hfit h16 hlen, ?_, hpt, herr, hcode, fun a => ?_⟩
  · rw [hctv] at hremove
    exact (runCommands_cons hderive _).trans (hrun.trans (runCommands_cons hremove []))
  · rw [State.decryptPipeline_eq, State.peek_finishRemovePadding, State.peek_finishRemovePadding]
    exact hlayers.peek_eq hv (hctv.trans hctl.symm) a

/-- Settles O20: by whether the abandoned command draws (`State.drawing_iff`). -/
theorem resetLosesTheRandomBytesTaken : Obligations.ResetLosesTheRandomBytesTaken := by
  intro s taken rest hwf hin htaken
  have hlost := step_reset_drawing hwf hin htaken
  have hkept := step_reset_not_drawing hwf hin
  rw [State.drawing_iff] at hlost hkept
  refine ⟨fun w imm hp hd => hlost ⟨w, imm, hp, .inl hd⟩,
    fun w imm hp hd hfit => hlost ⟨w, imm, hp, .inr ⟨hd, hfit⟩⟩, fun w hp hnot => hkept ?_, fun hp => hkept ?_⟩
  · rintro ⟨w', imm, hp', hdraw⟩
    cases hp.symm.trans hp'
    obtain ⟨hgen, hlong⟩ := hnot imm
    obtain hd | ⟨hd, hfit⟩ := hdraw
    · exact hgen hd
    · exact not_lt.mpr hfit (hlong hd)
  · rintro ⟨w, imm, hp', -⟩
    cases hp.symm.trans hp'

/-- Settles O17: a read moves the counter by its definition; a command that does not wait ends. -/
theorem freeValuesAreDrawnAfresh : Obligations.FreeValuesAreDrawnAfresh := by
  refine ⟨fun s a rest hwf hin => ⟨_, step_read hwf hin, rfl⟩, fun i s t h => ?_⟩
  have hend := exec_waitsOrMovesEpoch i s
  rw [h] at hend
  cases hend with
  | waits => exact .inl rfl
  | ends he => exact .inr he

end
